-- ==== Sys2Proof/Word.lean ====
section
/-! DEFINITION. The word types of the core (R9): wire addresses of 12 bits, register values of 32 or 8 bits,
16-bit request addresses, capacities and callback handles. -/

namespace Sys2Proof

/-- An 8-bit register value or one byte of a transfer. -/
abbrev Byte := BitVec 8

/-- A 16-bit request operand: an `addr` operand or a queue capacity (R65, R68). -/
abbrev Half := BitVec 16

/-- A 32-bit register value or one word of a frame object. -/
abbrev Word := BitVec 32

/-- A 12-bit device address, as it stands in a command word (R38, R60). -/
abbrev Addr := BitVec 12

/-- An opaque reference to a host callback (R16, R68). -/
abbrev Handle := BitVec 16

end Sys2Proof
end

