-- ==== Sys2Proof/Syntax.lean ====
section
/-! DEFINITION. The instructions of the core: one constructor per row of spec/opcode_table.json (R82), with the operands
the encoding gives each (R60, R63, R65 to R68). -/

namespace Sys2Proof

/-- The two payload widths of a transaction: 4 bytes or 1 byte (R45). -/
inductive Width where
  | four
  | one
deriving DecidableEq, Repr, Inhabited

/-- The payload of a transaction: a 32-bit value or one byte (R45, R63). -/
inductive Payload where
  | word (v : Word)
  | byte (v : Byte)
deriving DecidableEq, Repr, Inhabited

/-- The eight data bytes of a frame, `data[0]` to `data[7]` (R20). -/
structure Bytes8 where
  b0 : Byte
  b1 : Byte
  b2 : Byte
  b3 : Byte
  b4 : Byte
  b5 : Byte
  b6 : Byte
  b7 : Byte
deriving DecidableEq, Repr, Inhabited

/-- The 15-byte frame operand as it is sent (R67). The flags byte is carried whole, so that a byte with a bit of 7:2
set reaches the rule of the request. -/
structure FrameOperand where
  id    : Word
  flags : Byte
  len   : Byte
  idx   : Byte
  data  : Bytes8
deriving DecidableEq, Repr, Inhabited

/-- One filter entry of the configuration operand (R68): 10 bytes. -/
structure FilterOperand where
  acc  : Word
  mask : Word
  cb   : Half
deriving DecidableEq, Repr, Inhabited

/-- The configuration operand of `CONFIGURE` as it is sent (R68). -/
structure ConfOperand where
  txCap   : Half
  rxCap   : Half
  bypass  : Byte
  nflt    : Byte
  entries : List FilterOperand
deriving DecidableEq, Repr, Inhabited

/-- The instructions: three wire commands, fifteen host requests and the service pass. -/
inductive Instr where
  /-- `WRITE`: one write transaction on the wire (R60, R83). -/
  | write (addr : Addr) (p : Payload)
  /-- `READ`: one read transaction on the wire (R60, R83). -/
  | read (addr : Addr) (w : Width)
  /-- `RESET`: the bare command word 0x0000 (R61, R90). -/
  | reset
  /-- `RD32` (R86). -/
  | rd32 (addr : Half)
  /-- `WR32` (R87). -/
  | wr32 (addr : Half) (v : Word)
  /-- `RD8` (R88). -/
  | rd8 (addr : Half)
  /-- `WR8` (R89). -/
  | wr8 (addr : Half) (v : Byte)
  /-- `DEVRESET` (R90). -/
  | devreset
  /-- `SETRATE` (R91). -/
  | setrate (rate : Byte)
  /-- `READERR` (R92). -/
  | readerr
  /-- `CONFIGURE` (R93). -/
  | configure (conf : ConfOperand)
  /-- `TRYSEND` (R110). -/
  | trysend (f : FrameOperand)
  /-- `AVAIL` (R113). -/
  | avail
  /-- `RECV` (R114). -/
  | recv
  /-- `DISPATCH` (R131). -/
  | dispatch (obs : Byte)
  /-- `TXQ_SIZE` (R115). -/
  | txqSize
  /-- `TXQ_COUNT` (R116). -/
  | txqCount
  /-- `TXQ_PEAK` (R117). -/
  | txqPeak
  /-- `IRQ`: the service pass, started by the level of the interrupt input (R121). -/
  | irq
deriving DecidableEq, Repr, Inhabited

/-- What stands at the request port in byte form: a host request (R66), or one chip-select bracket handed to the codec
whole (R63; log entry 7). -/
inductive PortItem where
  | host (bytes : List Byte)
  | wire (bytes : List Byte)
deriving DecidableEq, Repr, Inhabited

end Sys2Proof
end

