-- ==== Sys2Proof/Machine/Events.lean ====
section
/-! DEFINITION. The data the machine's state is made of: frames (R20), bus events (R28), output events (R29), refusal reasons
(R134), responses (R65), frame objects (R71), and the choices of the scheduler and the environment (R52, R59). -/

namespace Sys2Proof.Machine

/-- The bus clock rate (R26). -/
inductive Rate where
  | slow
  | fast
deriving DecidableEq, Repr, Inhabited

/-- The context that issues a transaction (R6, R83). -/
inductive Issuer where
  | fg
  | isr
deriving DecidableEq, Repr, Inhabited

/-- The chip's hardware FIFOs: receive FIFO, transmit FIFO, bypass queue (R16). -/
inductive Fifo where
  | rxf
  | txf
  | txq
deriving DecidableEq, Repr, Inhabited

/-- The two FIFOs whose interrupt enable the core writes (R106). -/
inductive IeFifo where
  | rxf
  | txf
deriving DecidableEq, Repr, Inhabited

/-- A frame, CanMessage (R20). -/
structure Frame where
  id   : Word
  ext  : Bool
  rtr  : Bool
  len  : Byte
  data : Bytes8
  idx  : Byte
deriving DecidableEq, Repr, Inhabited

/-- A bounded frame queue (R21): `items` oldest first. -/
structure Queue where
  cap   : Nat
  items : List Frame
  peak  : Nat
deriving DecidableEq, Repr, Inhabited

/-- A frame object in chip RAM: four 32-bit words (R71). -/
structure FrameObj where
  w0 : Word
  w1 : Word
  w2 : Word
  w3 : Word
deriving DecidableEq, Repr, Inhabited

/-- The kind of a bus event (R28). -/
inductive TxnKind where
  | rd
  | wr
  | reset
deriving DecidableEq, Repr, Inhabited

/-- A bus event (R28). `n` and `data` of the rule are one field: no payload for `RESET` (`n = 0`), a byte (`n = 1`) or a
32-bit value (`n = 4`) otherwise. -/
structure BusEvent where
  kind   : TxnKind
  addr   : Addr
  data   : Option Payload
  rate   : Rate
  issuer : Issuer
deriving DecidableEq, Repr, Inhabited

/-- An output event (R29). -/
inductive OutEvent where
  | matchObserved (k : Byte)
  | callback (h : Handle) (f : Frame)
deriving DecidableEq, Repr, Inhabited

/-- The reasons of a refusal, in the order of their codes 1 to 8 (R134). -/
inductive Reason where
  | reservedCode
  | badFrame
  | badRate
  | badBool
  | notReady
  | configTwice
  | zeroRxCap
  | tooManyFilters
deriving DecidableEq, Repr, Inhabited

/-- What a host request answers (R65). -/
inductive Response where
  /-- The request has no response value. -/
  | done
  | word (v : Word)
  | byte (v : Byte)
  | bool (b : Bool)
  | nat (n : Nat)
  /-- `RECV` with `true`: the frame comes with it (R114). -/
  | frame (f : Frame)
  /-- `Refused(reason)` in place of the normal response (R134). -/
  | refused (r : Reason)
deriving DecidableEq, Repr, Inhabited

/-- A step of the environment (R52, R59). The first three are those of `ENV_REF`; `setInt` sets the level of the interrupt
input of a free chip (R58). -/
inductive DevEvent where
  /-- A frame object arrives at the receive FIFO. -/
  | arrive (o : FrameObj)
  /-- The head of a transmit FIFO is transmitted and removed. -/
  | transmit (f : Fifo)
  /-- A status bit is raised. -/
  | raiseStatus (b : Fin 32)
  | setInt (active : Bool)
deriving DecidableEq, Repr, Inhabited

/-- Whose turn it is at a scheduling point (R6, R52). -/
inductive Turn where
  | fg
  | isr
  | dev (e : DevEvent)
deriving DecidableEq, Repr, Inhabited

end Sys2Proof.Machine
end

