-- ==== Sys2Proof/Machine/Params.lean ====
section
/-! DEFINITION. The static model parameters (R8): the chip map with the constraints it must meet (R31), the frame layout (R72),
the length and acknowledge modes. -/

namespace Sys2Proof

/-- The registers of one hardware FIFO and its advance byte (R31, R33): `A_CON`, `A_STA`, `A_UA`, `ADV`. -/
structure FifoMap where
  con : Addr
  sta : Addr
  ua  : Addr
  adv : Byte
deriving DecidableEq, Repr, Inhabited

/-- Every chip register address, bit position and byte constant the core uses (R31). `A_FLTOBJ(k)` and `A_FLTMASK(k)` are
given by their slot 0, since the slots follow each other at stride 8 (R31; log entry 11). -/
structure ChipMap where
  /-- `A_INT`, the interrupt status register. -/
  aInt     : Addr
  bRxne    : Fin 32
  bTxnf    : Fin 32
  bTbc     : Fin 32
  bMod     : Fin 32
  bSerr    : Fin 32
  bBuserr  : Fin 32
  /-- `A_INT_IE` and `V_INT_IE`. -/
  aIntIe   : Addr
  vIntIe   : Byte
  /-- `A_TREC`. -/
  aTrec    : Addr
  rxf      : FifoMap
  txf      : FifoMap
  txq      : FifoMap
  /-- `UA_BASE`. -/
  uaBase   : Addr
  /-- `NF_BIT`, a bit of a status byte. -/
  nfBit    : Fin 8
  ieOnRxf  : Byte
  ieOffRxf : Byte
  ieOnTxf  : Byte
  ieOffTxf : Byte
  /-- `A_FLTCON(k)` for `k` in `0..31`. -/
  fltCon   : Vector Addr 32
  fltObj0  : Addr
  fltMask0 : Addr
  /-- `FLT_EN` and `RXF_NUM`. -/
  fltEn    : Byte
  rxfNum   : Byte
  /-- `A_NBT`, `A_CTRL`, `A_OSC`, `A_IOCON`, `A_SCRATCH`: used by the sequencer only. -/
  aNbt     : Addr
  aCtrl    : Addr
  aOsc     : Addr
  aIocon   : Addr
  aScratch : Addr
deriving DecidableEq, Repr, Inhabited

/-- The frame layout (R72): the lowest bit of the identifier parts in word 0 and of the length code in word 1, and the
positions of the two flags. The filter index stands at 15:11 of word 1 by the source. Log entry 10 for the widths. -/
structure FrameLayout where
  sidLo : Fin 32
  eidLo : Fin 32
  dlcLo : Fin 32
  ide   : Fin 32
  rtr   : Fin 32
deriving DecidableEq, Repr, Inhabited

/-- `RX_LEN_MODE` (R8, R75). -/
inductive RxLenMode where
  | raw
  | clamp8
deriving DecidableEq, Repr, Inhabited

/-- `ACK_MODE` (R8, R125). -/
inductive AckMode where
  | writeBit
  | writeZeroInBit
deriving DecidableEq, Repr, Inhabited

/-- The static model parameters (R8). `erratumMask` changes no behaviour, because every request is one atomic step (R53). -/
structure Params where
  cm          : ChipMap
  fl          : FrameLayout
  rxLenMode   : RxLenMode
  ackMode     : AckMode
  erratumMask : Bool
deriving DecidableEq, Repr, Inhabited

/-- The constraints a chip map must meet (R31): the scratch address lies in the RAM window, the mask and acceptance registers fill
the 8-byte slot of a filter, and the four status bits are distinct from each other and from the two FIFO bits. That the slots
follow each other at stride 8 holds by the form of the map. -/
def ChipMap.constraintsHold (m : ChipMap) : Bool :=
  decide (0x400 ≤ m.aScratch.toNat ∧ m.aScratch.toNat < 0xC00) &&
    decide (m.fltMask0.toNat = m.fltObj0.toNat + 4 ∨ m.fltObj0.toNat = m.fltMask0.toNat + 4) &&
    decide [m.bTbc, m.bMod, m.bSerr, m.bBuserr].Nodup &&
    [m.bTbc, m.bMod, m.bSerr, m.bBuserr].all fun b => b != m.bRxne && b != m.bTxnf

/-- Parameters whose chip map meets the constraints of R31. -/
structure AllowedParams where
  params  : Params
  allowed : params.cm.constraintsHold = true

/-- Some allowed parameters: they only show that there are any, and no value of theirs is used. -/
def someAllowedParams : AllowedParams where
  params := { (default : Params) with
    cm := { (default : ChipMap) with aScratch := 0x400, fltMask0 := 4, bTbc := 2, bMod := 3, bSerr := 4, bBuserr := 5 } }
  allowed := by decide

end Sys2Proof
end

