-- ==== Sys2Proof/Config.lean ====
section
/-! DEFINITION. What an implementation fixes and the source leaves open: which static model parameters hold (R8, R31, R72) and
the free values of the model (R52, R58, R149). The opaque constants have no body: nothing can evaluate them. -/

namespace Sys2Proof

/-- Any allowed parameters: a constant without a body. -/
opaque Config.anyAllowed [Inhabited AllowedParams] : AllowedParams

/-- The parameters of the model instance, fixed for the machine and unknown, but for the constraints of R31 (R8; log entry 1). -/
def Config.params : Params := (@Config.anyAllowed ⟨someAllowedParams⟩).params

/-- The oracle (R58): its answer to a read, from the bus history, the address, the number of bytes and a free choice. A read
of one byte takes the low 8 bits. -/
opaque Config.oracle : List Machine.BusEvent → Addr → Nat → Nat → Word

/-- The scheduler's free choice at its n-th open scheduling point (R52). -/
opaque Config.turn : Nat → Machine.Turn

/-- The level of the interrupt input at core reset, which the chip alone knows (R58, R149). -/
opaque Config.intAtReset : Bool

end Sys2Proof
end

