-- ==== Sys2Proof/Machine/Bits.lean ====
section
/-! DEFINITION. Byte order and the command word: `bytes_le4` and `from_le4` (R12, R41), the command word and its wire order
(R42, R60), the payload bytes of a transaction (R63). -/

namespace Sys2Proof.Machine

/-- A 16-bit operand least-significant byte first (R66). -/
def bytesLe2 (v : Half) : List Byte := [v.extractLsb' 0 8, v.extractLsb' 8 8]

/-- `bytes_le4` (R12, R41). -/
def bytesLe4 (v : Word) : List Byte :=
  [v.extractLsb' 0 8, v.extractLsb' 8 8, v.extractLsb' 16 8, v.extractLsb' 24 8]

/-- The 16-bit value of two bytes sent least-significant byte first (R66). -/
def fromLe2 (b0 b1 : Byte) : Half := b0.setWidth 16 ||| (b1.setWidth 16 <<< 8)

/-- `from_le4` (R12, R41). -/
def fromLe4 (b0 b1 b2 b3 : Byte) : Word :=
  b0.setWidth 32 ||| (b1.setWidth 32 <<< 8) ||| (b2.setWidth 32 <<< 16) ||| (b3.setWidth 32 <<< 24)

/-- The opcode of a write command (R61). -/
def opcWrite : BitVec 4 := 0b0010

/-- The opcode of a read command (R61). -/
def opcRead : BitVec 4 := 0b0011

/-- A device address computed as a natural, kept to its low 12 bits (R40, R60). -/
def addr12 (a : Nat) : Addr := BitVec.ofNat 12 a

/-- The 16-bit command word (R60): `(address & 0xFFF) | (opcode << 12)`. -/
def cmdWord (opc : BitVec 4) (a : Nat) : BitVec 16 :=
  (addr12 a).setWidth 16 ||| (opc.setWidth 16 <<< 12)

/-- The command word on the wire, most-significant byte first (R42; log entry 13). -/
def cmdBytes (c : BitVec 16) : List Byte := [c.extractLsb' 8 8, c.extractLsb' 0 8]

/-- How many payload bytes a width stands for (R45). -/
def widthBytes : Width → Nat
  | .four => 4
  | .one => 1

/-- The payload of the given width held in the low bits of a 32-bit value. -/
def packPayload (w : Width) (v : Word) : Payload :=
  match w with
  | .four => .word v
  | .one => .byte (v.setWidth 8)

/-- The width of a payload. -/
def payloadWidth : Payload → Width
  | .word _ => .four
  | .byte _ => .one

/-- A payload on the wire, least-significant byte first (R41, R63). -/
def payloadBytes : Payload → List Byte
  | .word v => bytesLe4 v
  | .byte v => [v]

end Sys2Proof.Machine
end

