-- ==== Sys2Proof/WellFormed.lean ====
section
/-! DEFINITION. Which instructions an encoding can carry (R66, R68): every operand is a bit field of its own width, so the one
check is that a configuration operand lists as many filter entries as its count byte says. -/

namespace Sys2Proof

/-- The number of filter entries that follow a count byte: none for `0xFF` ("filter list omitted"), else the count (R68;
log entry 14 for counts above 32). -/
def filterCount (nflt : Byte) : Nat := if nflt = 0xFF then 0 else nflt.toNat

/-- The configuration operand lists exactly the entries that its count byte announces (R68). -/
def ConfOperand.wellFormed (c : ConfOperand) : Bool := c.entries.length == filterCount c.nflt

/-- The instruction has an encoding (R63, R66). -/
def Instr.wellFormed : Instr → Bool
  | .write _ _ => true
  | .read _ _ => true
  | .reset => true
  | .rd32 _ => true
  | .wr32 _ _ => true
  | .rd8 _ => true
  | .wr8 _ _ => true
  | .devreset => true
  | .setrate _ => true
  | .readerr => true
  | .configure c => c.wellFormed
  | .trysend _ => true
  | .avail => true
  | .recv => true
  | .dispatch _ => true
  | .txqSize => true
  | .txqCount => true
  | .txqPeak => true
  | .irq => true

end Sys2Proof
end

