-- ==== Sys2Proof/Decode.lean ====
section
/-! DEFINITION. The decoder, total on any bytes and rejecting by name, and the encoder: host requests (R65 to R69) and the
chip-select brackets of the wire (R60 to R64). -/

namespace Sys2Proof

/-- Why a byte string is no instruction. -/
inductive Reject where
  /-- The request code is in no row of R65: the core itself refuses it (R69). -/
  | reservedCode
  /-- A host request without its code byte. -/
  | emptyRequest
  /-- The operand bytes are not as many as the request takes (R66). -/
  | wrongLength (mnemonic : String)
  /-- A command word the core never emits (R62). -/
  | notEmitted (cmd : BitVec 16)
  /-- A payload of a length other than the core emits, or a bracket without a whole command word (R64). -/
  | badBracket
deriving DecidableEq, Repr

/-- The host request codes (R65). -/
def requestCode : Instr → Option Byte
  | .write _ _ => none
  | .read _ _ => none
  | .reset => none
  | .rd32 _ => some 0x01
  | .wr32 _ _ => some 0x02
  | .rd8 _ => some 0x03
  | .wr8 _ _ => some 0x04
  | .devreset => some 0x05
  | .setrate _ => some 0x06
  | .readerr => some 0x07
  | .configure _ => some 0x10
  | .trysend _ => some 0x20
  | .avail => some 0x30
  | .recv => some 0x31
  | .dispatch _ => some 0x32
  | .txqSize => some 0x40
  | .txqCount => some 0x41
  | .txqPeak => some 0x42
  | .irq => none

/-- The filter entries of a configuration operand, 10 bytes each (R68). -/
def decodeEntries : List Byte → Option (List FilterOperand)
  | [] => some []
  | a0 :: a1 :: a2 :: a3 :: m0 :: m1 :: m2 :: m3 :: c0 :: c1 :: rest =>
    (decodeEntries rest).map fun es =>
      ⟨Machine.fromLe4 a0 a1 a2 a3, Machine.fromLe4 m0 m1 m2 m3, Machine.fromLe2 c0 c1⟩ :: es
  | _ => none

/-- The configuration operand (R68); `none` where the byte count is not the one `nflt` calls for. -/
def decodeConf : List Byte → Option ConfOperand
  | t0 :: t1 :: r0 :: r1 :: byp :: nflt :: rest =>
    match decodeEntries rest with
    | some es =>
      if es.length = filterCount nflt then
        some ⟨Machine.fromLe2 t0 t1, Machine.fromLe2 r0 r1, byp, nflt, es⟩
      else none
    | none => none
  | _ => none

/-- The frame operand (R67). -/
def decodeFrame : List Byte → Option FrameOperand
  | [i0, i1, i2, i3, fl, len, idx, d0, d1, d2, d3, d4, d5, d6, d7] =>
    some ⟨Machine.fromLe4 i0 i1 i2 i3, fl, len, idx, ⟨d0, d1, d2, d3, d4, d5, d6, d7⟩⟩
  | _ => none

/-- A request that takes no operand. -/
def decodeBare (i : Instr) (mnemonic : String) : List Byte → Except Reject Instr
  | [] => .ok i
  | _ => .error (.wrongLength mnemonic)

/-- A request with one byte operand. -/
def decodeByteOp (mk : Byte → Instr) (mnemonic : String) : List Byte → Except Reject Instr
  | [b] => .ok (mk b)
  | _ => .error (.wrongLength mnemonic)

/-- A request with one `addr` operand. -/
def decodeAddrOp (mk : Half → Instr) (mnemonic : String) : List Byte → Except Reject Instr
  | [a0, a1] => .ok (mk (Machine.fromLe2 a0 a1))
  | _ => .error (.wrongLength mnemonic)

/-- The operands of a host request, by its code (R65). -/
def decodeOperands (code : Byte) (ops : List Byte) : Except Reject Instr :=
  match code.toNat with
  | 0x01 => decodeAddrOp .rd32 "RD32" ops
  | 0x02 =>
    match ops with
    | [a0, a1, v0, v1, v2, v3] => .ok (.wr32 (Machine.fromLe2 a0 a1) (Machine.fromLe4 v0 v1 v2 v3))
    | _ => .error (.wrongLength "WR32")
  | 0x03 => decodeAddrOp .rd8 "RD8" ops
  | 0x04 =>
    match ops with
    | [a0, a1, v] => .ok (.wr8 (Machine.fromLe2 a0 a1) v)
    | _ => .error (.wrongLength "WR8")
  | 0x05 => decodeBare .devreset "DEVRESET" ops
  | 0x06 => decodeByteOp .setrate "SETRATE" ops
  | 0x07 => decodeBare .readerr "READERR" ops
  | 0x10 =>
    match decodeConf ops with
    | some c => .ok (.configure c)
    | none => .error (.wrongLength "CONFIGURE")
  | 0x20 =>
    match decodeFrame ops with
    | some f => .ok (.trysend f)
    | none => .error (.wrongLength "TRYSEND")
  | 0x30 => decodeBare .avail "AVAIL" ops
  | 0x31 => decodeBare .recv "RECV" ops
  | 0x32 => decodeByteOp .dispatch "DISPATCH" ops
  | 0x40 => decodeBare .txqSize "TXQ_SIZE" ops
  | 0x41 => decodeBare .txqCount "TXQ_COUNT" ops
  | 0x42 => decodeBare .txqPeak "TXQ_PEAK" ops
  | _ => .error .reservedCode

/-- A host request in its byte form (R66). -/
def decodeHost : List Byte → Except Reject Instr
  | [] => .error .emptyRequest
  | code :: ops => decodeOperands code ops

/-- The instruction of a command word and the payload bytes of its bracket (R61, R62, R64). The bytes of a read are the
chip's, so only their number counts. -/
def decodeCommand (c : BitVec 16) (payload : List Byte) : Except Reject Instr :=
  let addr : Addr := c.extractLsb' 0 12
  if c = 0 then
    match payload with
    | [] => .ok .reset
    | _ => .error .badBracket
  else if c.extractLsb' 12 4 = Machine.opcWrite then
    match payload with
    | [v0, v1, v2, v3] => .ok (.write addr (.word (Machine.fromLe4 v0 v1 v2 v3)))
    | [v] => .ok (.write addr (.byte v))
    | _ => .error .badBracket
  else if c.extractLsb' 12 4 = Machine.opcRead then
    match payload with
    | [_, _, _, _] => .ok (.read addr .four)
    | [_] => .ok (.read addr .one)
    | _ => .error .badBracket
  else .error (.notEmitted c)

/-- One chip-select bracket: two command bytes, most-significant first, then the payload (R42, R63). -/
def decodeWire : List Byte → Except Reject Instr
  | hi :: lo :: payload => decodeCommand (lo.setWidth 16 ||| (hi.setWidth 16 <<< 8)) payload
  | _ => .error .badBracket

/-- The decoder: what stands at the port, as an instruction or a named rejection. -/
def decode : PortItem → Except Reject Instr
  | .host bytes => decodeHost bytes
  | .wire bytes => decodeWire bytes

/-- The bytes of the filter entries (R68). -/
def encodeEntries : List FilterOperand → List Byte
  | [] => []
  | e :: es => Machine.bytesLe4 e.acc ++ Machine.bytesLe4 e.mask ++ Machine.bytesLe2 e.cb ++ encodeEntries es

/-- The configuration operand in bytes (R68). -/
def encodeConf (c : ConfOperand) : List Byte :=
  Machine.bytesLe2 c.txCap ++ Machine.bytesLe2 c.rxCap ++ [c.bypass, c.nflt] ++ encodeEntries c.entries

/-- The eight data bytes in order. -/
def encodeData (d : Bytes8) : List Byte := [d.b0, d.b1, d.b2, d.b3, d.b4, d.b5, d.b6, d.b7]

/-- The frame operand in bytes (R67). -/
def encodeFrame (f : FrameOperand) : List Byte :=
  Machine.bytesLe4 f.id ++ [f.flags, f.len, f.idx] ++ encodeData f.data

/-- The encoder: the byte form of an instruction at the port. The service pass has none (R121). A read bracket carries the
filler bytes 0x00 the core sends while the chip answers (R63). -/
def encode : Instr → Option PortItem
  | .write a p => some (.wire (Machine.cmdBytes (Machine.cmdWord Machine.opcWrite a.toNat) ++ Machine.payloadBytes p))
  | .read a w =>
    some (.wire (Machine.cmdBytes (Machine.cmdWord Machine.opcRead a.toNat) ++ List.replicate (Machine.widthBytes w) 0))
  | .reset => some (.wire [0x00, 0x00])
  | .rd32 a => some (.host (0x01 :: Machine.bytesLe2 a))
  | .wr32 a v => some (.host (0x02 :: (Machine.bytesLe2 a ++ Machine.bytesLe4 v)))
  | .rd8 a => some (.host (0x03 :: Machine.bytesLe2 a))
  | .wr8 a v => some (.host (0x04 :: (Machine.bytesLe2 a ++ [v])))
  | .devreset => some (.host [0x05])
  | .setrate r => some (.host [0x06, r])
  | .readerr => some (.host [0x07])
  | .configure c => some (.host (0x10 :: encodeConf c))
  | .trysend f => some (.host (0x20 :: encodeFrame f))
  | .avail => some (.host [0x30])
  | .recv => some (.host [0x31])
  | .dispatch o => some (.host [0x32, o])
  | .txqSize => some (.host [0x40])
  | .txqCount => some (.host [0x41])
  | .txqPeak => some (.host [0x42])
  | .irq => none

/-- How many operand bytes a request code calls for when those bytes are zero (R65 to R68). -/
def zeroOperandBytes (code : Byte) : Nat :=
  match code.toNat with
  | 0x01 => 2
  | 0x02 => 6
  | 0x03 => 2
  | 0x04 => 3
  | 0x06 => 1
  | 0x10 => 6
  | 0x20 => 15
  | 0x32 => 1
  | _ => 0

/-- What stands at the port for a table word: one code byte and zero operands (8 bits), or one command word and, but for the
reset, a payload of four zero bytes (16 bits). -/
def tableItem (nbits w : Nat) : Option PortItem :=
  match nbits with
  | 8 =>
    let code : Byte := BitVec.ofNat 8 w
    some (.host (code :: List.replicate (zeroOperandBytes code) 0))
  | 16 =>
    let c : BitVec 16 := BitVec.ofNat 16 w
    some (.wire (Machine.cmdBytes c ++ if c = 0 then [] else List.replicate 4 0))
  | _ => none

/-- The instruction the decoder reads from a table word. The `IRQ` row has no bits: it is matched by the level of `int_in`
(R121). -/
def decodeTableWord (nbits w : Nat) : Option Instr :=
  match nbits with
  | 0 => some .irq
  | _ =>
    match tableItem nbits w with
    | some item =>
      match decode item with
      | .ok i => some i
      | .error _ => none
    | none => none

end Sys2Proof
end

