-- ==== Sys2Proof/Machine/State.lean ====
section
/-! DEFINITION. The state of the core (R19) with its environment and its ports, the ways a step can stop, and core reset
(R148). -/

namespace Sys2Proof.Machine

/-- A filter entry of the configuration (R8): acceptance word, mask word, callback. -/
structure FilterEntry where
  acc  : Word
  mask : Word
  cb   : Option Handle
deriving DecidableEq, Repr, Inhabited

/-- The instance configuration held in `s.cfg` (R8, R93). `filters = none`: the filter list was omitted. -/
structure Cfg where
  txSwCap  : Nat
  rxSwCap  : Nat
  bypassEn : Bool
  filters  : Option (List FilterEntry)
deriving DecidableEq, Repr, Inhabited

/-- A plain memory of `ENV_REF` (R59), as pairs of an address and a value in canonical form: addresses strictly rising, no
entry equal to 0, which is what an unlisted address reads as. -/
abbrev Memory (w : Nat) := List (Nat × BitVec w)

/-- One hardware FIFO of `ENV_REF` (R59): capacity, objects, last byte written to its control register, staging area, the
user-address offset `o(f)`, and whether an advance found it full. -/
structure FifoEnv where
  size    : Nat
  objs    : List FrameObj
  ie      : Option Byte
  stage   : FrameObj
  off     : Word
  overrun : Bool
deriving DecidableEq, Repr, Inhabited

/-- The reference environment `ENV_REF` (R59). Bit `b` of `st` is 1 when the status bit `b` is raised. `mem8` is a list of
`Host.Cell`. -/
structure EnvRef where
  rxf   : FifoEnv
  txf   : FifoEnv
  txq   : FifoEnv
  st    : Word
  mem32 : Memory 32
  mem8  : Memory 8
deriving DecidableEq, Repr, Inhabited

/-- A chip of which nothing is assumed (R58): the read answers the environment has already fixed, the counter of the free
choice that answers every further read, and the level of `int_in` (log entry 2). -/
structure FreeChip where
  answers : List Word
  choice  : Nat
  intIn   : Bool
deriving DecidableEq, Repr, Inhabited

/-- The environment: a free oracle, or the reference environment. -/
inductive Chip where
  | free (c : FreeChip)
  | ref (e : EnvRef)
deriving DecidableEq, Repr, Inhabited

/-- The codec's state with the chip at the other end of the bus (R19, R26): `bus_rate`, `cs`, `txn_count`, `hist`. -/
structure Bus where
  rate     : Rate
  cs       : Bool
  txnCount : Nat
  hist     : List BusEvent
  chip     : Chip
deriving DecidableEq, Repr, Inhabited

/-- The state of the machine: the record of R19 (the codec's fields under `bus`), and the model's own fields: the parameters
(log entry 1), the last response (log entry 8), the request port (log entry 5), the scheduler's choices (log entry 4). -/
structure State where
  par      : Params
  ready    : Bool
  cfg      : Option Cfg
  txqSw    : Option Queue
  rxqSw    : Option Queue
  txHwFull : Bool
  bypassEn : Bool
  cbTable  : Vector (Option Handle) 32
  cbSize   : Nat
  bus      : Bus
  isrBusy  : Bool
  refused  : Bool
  out      : List OutEvent
  resp     : Option Response
  port     : List PortItem
  agenda   : List Turn
  tick     : Nat
deriving DecidableEq, Repr

/-- Why the machine stops. -/
inductive Fault where
  /-- Raised by a flow-control request or a service pass in a state that says `ready` while the queue it needs is absent. No
  run reaches such a state (the queues exist from `CONFIGURE` on, R93), so the stop is safe (log entry 9). -/
  | queueAbsent
deriving DecidableEq, Repr

/-- Why an instruction has no meaning. -/
inductive Refusal where
  /-- Raised by an arm of `exec` whose instruction has no meaning yet. Safe. -/
  | notModelled (mnemonic : String)
  /-- Raised by the step when what stands at the port is no encoding: a request of a wrong length (R66) or a wire bracket the
  core never emits (R62, R64). The spec gives such bytes no meaning. Safe (log entry 6). -/
  | undecodable (why : Reject)
deriving DecidableEq, Repr

/-- Core reset (R148): every field at the value of R19; the chip is unknown (R149). -/
def State.reset : State where
  par := Config.params
  ready := false
  cfg := none
  txqSw := none
  rxqSw := none
  txHwFull := false
  bypassEn := false
  cbTable := Vector.replicate 32 none
  cbSize := 0
  bus := ⟨.slow, false, 0, [], .free ⟨[], 0, Config.intAtReset⟩⟩
  isrBusy := false
  refused := false
  out := []
  resp := none
  port := []
  agenda := []
  tick := 0

end Sys2Proof.Machine
end

