-- ==== Sys2Proof/Machine/Operands.lean ====
section
/-! DEFINITION. The operand forms: the frame operand (R67), the configuration operand (R68, R97), the packing of a frame into
the four words of a frame object and back (R71 to R76, R102, R103), and the register addresses of the chip map (R31). -/

namespace Sys2Proof.Machine

/-- The registers of a hardware FIFO (R31, R33). -/
def fifoMap (m : ChipMap) : Fifo → FifoMap
  | .rxf => m.rxf
  | .txf => m.txf
  | .txq => m.txq

/-- The FIFO an interrupt-enable write goes to (R106). -/
def ieFifo : IeFifo → Fifo
  | .rxf => .rxf
  | .txf => .txf

/-- `IE_ON(f)` and `IE_OFF(f)` (R31, R106). -/
def ieByte (m : ChipMap) : IeFifo → Bool → Byte
  | .rxf, true => m.ieOnRxf
  | .rxf, false => m.ieOffRxf
  | .txf, true => m.ieOnTxf
  | .txf, false => m.ieOffTxf

/-- `A_FLTCON(k)` (R31). -/
def fltConAddr (m : ChipMap) (k : Nat) : Nat := ((m.fltCon[k]?).getD 0).toNat

/-- `A_FLTOBJ(k) = A_FLTOBJ(0) + 8k` (R31). -/
def fltObjAddr (m : ChipMap) (k : Nat) : Nat := m.fltObj0.toNat + 8 * k

/-- `A_FLTMASK(k) = A_FLTMASK(0) + 8k` (R31). -/
def fltMaskAddr (m : ChipMap) (k : Nat) : Nat := m.fltMask0.toNat + 8 * k

/-- The filter control byte `FLT_EN | RXF_NUM` (R80). -/
def filterControl (m : ChipMap) : Byte := m.fltEn ||| m.rxfNum

/-- A flags byte with a bit of 7:2 set is no frame (R67). -/
def badFlags (flags : Byte) : Bool := flags.extractLsb' 2 6 != 0

/-- The frame a frame operand stands for (R67): bit 0 of the flags is `ext`, bit 1 `rtr`. -/
def frameOf (f : FrameOperand) : Frame :=
  ⟨f.id, f.flags.getLsbD 0, f.flags.getLsbD 1, f.len, f.data, f.idx⟩

/-- A frame as an operand: the frame part of the `RECV` response (R67). -/
def frameOperand (f : Frame) : FrameOperand :=
  ⟨f.id, (if f.ext then 1 else 0) ||| (if f.rtr then 2 else 0), f.len, f.idx, f.data⟩

/-- The callback of a filter entry: `0xFFFF` for none (R68). -/
def handleOf (cb : Half) : Option Handle := if cb = 0xFFFF then none else some cb

/-- A filter entry of the operand (R68). -/
def filterOf (e : FilterOperand) : FilterEntry := ⟨e.acc, e.mask, handleOf e.cb⟩

/-- The configuration a configuration operand stands for (R68, R93). -/
def cfgOf (c : ConfOperand) : Cfg where
  txSwCap := c.txCap.toNat
  rxSwCap := c.rxCap.toNat
  bypassEn := c.bypass == 1
  filters := if c.nflt = 0xFF then none else some (c.entries.map filterOf)

/-- The filters `CONFIGURE` programs: the list, or the implicit accept-all filter where it was omitted (R97). -/
def programmedFilters (c : Cfg) : List FilterEntry := c.filters.getD [⟨0, 0, none⟩]

/-- The filters whose callbacks are installed: none where the list was omitted (R98). -/
def installedFilters (c : Cfg) : List FilterEntry := c.filters.getD []

/-- The callback table of a filter list (R98): entry `k` for `k < N`, `none` above. -/
def callbackTable (fs : List FilterEntry) : Vector (Option Handle) 32 :=
  Vector.ofFn fun k => (fs[k.val]?).bind FilterEntry.cb

/-- The identifier word on transmit (R73); identifier bits above 10 (standard) or 28 (extended) are dropped. -/
def encodeId (fl : FrameLayout) (f : Frame) : Word :=
  if f.ext then
    ((f.id.extractLsb' 18 11).setWidth 32 <<< fl.sidLo.val) ||| ((f.id.extractLsb' 0 18).setWidth 32 <<< fl.eidLo.val)
  else (f.id.extractLsb' 0 11).setWidth 32 <<< fl.sidLo.val

/-- The length on the wire, `min(len, 8)` (R74). -/
def clampLen (len : Byte) : Byte := if len ≤ 8 then len else 8

/-- A flag at a bit position of a word. -/
def flagBit (b : Bool) (pos : Fin 32) : Word := if b then (1 : Word) <<< pos.val else 0

/-- The control word on transmit (R74): length, extended flag, remote flag, every other bit 0. -/
def encodeControl (fl : FrameLayout) (f : Frame) : Word :=
  ((clampLen f.len).setWidth 32 <<< fl.dlcLo.val) ||| flagBit f.ext fl.ide ||| flagBit f.rtr fl.rtr

/-- `Encode(f)` (R102): the frame object of a frame. The frame itself keeps its length. -/
def encodeObj (fl : FrameLayout) (f : Frame) : FrameObj where
  w0 := encodeId fl f
  w1 := encodeControl fl f
  w2 := fromLe4 f.data.b0 f.data.b1 f.data.b2 f.data.b3
  w3 := fromLe4 f.data.b4 f.data.b5 f.data.b6 f.data.b7

/-- The received identifier (R73): the `SID` field alone, or `SID` above `EID` when the extended flag is set. -/
def decodeId (fl : FrameLayout) (ext : Bool) (w0 : Word) : Word :=
  let sid : Word := (w0.extractLsb' fl.sidLo.val 11).setWidth 32
  let eid : Word := (w0.extractLsb' fl.eidLo.val 18).setWidth 32
  if ext then (sid <<< 18) ||| eid else sid

/-- The delivered length of a received length code (R75). -/
def deliveredLen (mode : RxLenMode) (code : BitVec 4) : Byte :=
  match mode with
  | .raw => code.setWidth 8
  | .clamp8 => clampLen (code.setWidth 8)

/-- The data bytes of the two data words (R76). -/
def decodeData (w2 w3 : Word) : Bytes8 where
  b0 := w2.extractLsb' 0 8
  b1 := w2.extractLsb' 8 8
  b2 := w2.extractLsb' 16 8
  b3 := w2.extractLsb' 24 8
  b4 := w3.extractLsb' 0 8
  b5 := w3.extractLsb' 8 8
  b6 := w3.extractLsb' 16 8
  b7 := w3.extractLsb' 24 8

/-- `Decode(w0, w1, w2, w3)` (R75, R103): the filter index is `w1[15:11]`. -/
def decodeObj (P : Params) (o : FrameObj) : Frame where
  id := decodeId P.fl (o.w1.getLsbD P.fl.ide.val) o.w0
  ext := o.w1.getLsbD P.fl.ide.val
  rtr := o.w1.getLsbD P.fl.rtr.val
  len := deliveredLen P.rxLenMode (o.w1.extractLsb' P.fl.dlcLo.val 4)
  data := decodeData o.w2 o.w3
  idx := (o.w1.extractLsb' 11 5).setWidth 8

end Sys2Proof.Machine
end

