-- ==== Sys2Proof/Machine/Flags.lean ====
section
/-! DEFINITION. The flags and the bits the core decides on: the refusal reasons of a request in their order (R134 to R136),
the not-full bit (R107), the status decoder (R122), the acknowledge byte (R125), queue full and empty (R14). -/

namespace Sys2Proof.Machine

/-- The code of a refusal reason (R134). -/
def reasonCode : Reason → Nat
  | .reservedCode => 1
  | .badFrame => 2
  | .badRate => 3
  | .badBool => 4
  | .notReady => 5
  | .configTwice => 6
  | .zeroRxCap => 7
  | .tooManyFilters => 8

/-- A flag operand other than 0 and 1 (R66, R134). -/
def badBool (b : Byte) : Bool := 2 ≤ b.toNat

/-- The filter count of a configuration operand is neither `0xFF` nor in `0..32` (R94). -/
def tooManyFilters (nflt : Byte) : Bool := nflt != 0xFF && 32 < nflt.toNat

/-- The ready gate (R136). -/
def readyGate (ready : Bool) : Option Reason := if ready then none else some .notReady

/-- The first reason `CONFIGURE` is refused for, in the order of R135 (R94). -/
def configureRefusal (ready : Bool) (c : ConfOperand) : Option Reason :=
  if ready then some .configTwice
  else if c.rxCap = 0 then some .zeroRxCap
  else if badBool c.bypass then some .badBool
  else if tooManyFilters c.nflt then some .tooManyFilters
  else none

/-- The first reason `TRYSEND` is refused for: the operand's format before the ready gate (R110, R135). -/
def trysendRefusal (ready : Bool) (f : FrameOperand) : Option Reason :=
  if badFlags f.flags then some .badFrame else readyGate ready

/-- The first reason `DISPATCH` is refused for: the operand's format before the ready gate (R131, R135). -/
def dispatchRefusal (ready : Bool) (obs : Byte) : Option Reason :=
  if badBool obs then some .badBool else readyGate ready

/-- The rate a `SETRATE` operand names (R91). -/
def rateOf (rate : Byte) : Option Rate :=
  if rate = 0 then some .slow else if rate = 1 then some .fast else none

/-- `q.full` (R14). -/
def queueFull (q : Queue) : Bool := q.items.length == q.cap

/-- The not-full bit of a status byte (R107). -/
def notFullBit (m : ChipMap) (status : Byte) : Bool := status.getLsbD m.nfBit.val

/-- A bit belongs to `STATUS_BITS` (R32, R122). -/
def isStatusBit (m : ChipMap) (b : Fin 32) : Bool :=
  b == m.bTbc || b == m.bMod || b == m.bSerr || b == m.bBuserr

/-- `STATUS_BITS` in ascending order (R121, R122). -/
def statusBits (m : ChipMap) : List (Fin 32) := (List.finRange 32).filter (isStatusBit m)

/-- The status bits set in a status word, in ascending order: the ones a pass acknowledges (R121). -/
def pendingStatus (m : ChipMap) (st : Word) : List (Fin 32) :=
  (statusBits m).filter fun b => st.getLsbD b.val

/-- `AckByte(j)` (R125). -/
def ackByte (mode : AckMode) (j : Nat) : Byte :=
  match mode with
  | .writeBit => (1 : Byte) <<< j
  | .writeZeroInBit => ~~~((1 : Byte) <<< j)

/-- The byte of the interrupt status register that holds bit `b` (R125). -/
def ackAddr (m : ChipMap) (b : Fin 32) : Nat := m.aInt.toNat + b.val / 8

/-- `Lookup(k)` (R130). -/
def lookup (table : Vector (Option Handle) 32) (size k : Nat) : Option Handle :=
  if k < size then (table[k]?).join else none

end Sys2Proof.Machine
end

