-- ==== Sys2Proof/Machine/Chip.lean ====
section
/-! DEFINITION. The environment at the other end of the bus: the free oracle (R58) and the reference environment `ENV_REF`
(R59), its answers to reads, the effects of writes, its own steps, and the level of the interrupt input (R27). -/

namespace Sys2Proof.Machine

/-- The value at an address: 0 where nothing is listed (R59). -/
def memGet {w : Nat} : Memory w → Nat → BitVec w
  | [], _ => 0
  | (k, v) :: rest, a => if k = a then v else memGet rest a

/-- A write that keeps the canonical form: an entry equal to 0 is removed. -/
def memSet {w : Nat} : Memory w → Nat → BitVec w → Memory w
  | [], a, v => if v = 0 then [] else [(a, v)]
  | (k, x) :: rest, a, v =>
    if a < k then (if v = 0 then (k, x) :: rest else (a, v) :: (k, x) :: rest)
    else if a = k then (if v = 0 then rest else (a, v) :: rest)
    else (k, x) :: memSet rest a v

/-- Every key of the list lies above `lo`, in rising order, and no entry is 0. -/
def memWfAbove {w : Nat} (lo : Nat) : Memory w → Bool
  | [] => true
  | (k, v) :: rest => decide (lo < k) && v != 0 && memWfAbove k rest

/-- The canonical form of a memory (R59): addresses strictly rising, no entry equal to 0. -/
def Memory.wf {w : Nat} : Memory w → Bool
  | [] => true
  | (k, v) :: rest => v != 0 && memWfAbove k rest

/-- One hardware FIFO of `ENV_REF`. -/
def envFifo (e : EnvRef) : Fifo → FifoEnv
  | .rxf => e.rxf
  | .txf => e.txf
  | .txq => e.txq

/-- Replace one hardware FIFO of `ENV_REF`. -/
def setEnvFifo (e : EnvRef) (f : Fifo) (x : FifoEnv) : EnvRef :=
  match f with
  | .rxf => { e with rxf := x }
  | .txf => { e with txf := x }
  | .txq => { e with txq := x }

/-- The FIFO has space (R59). -/
def hasSpace (x : FifoEnv) : Bool := decide (x.objs.length < x.size)

/-- The slot address of a FIFO of `ENV_REF`: `UA_BASE + o(f)` (R59). -/
def envSlot (m : ChipMap) (x : FifoEnv) : Nat := m.uaBase.toNat + x.off.toNat

/-- Which word of the frame object at slot address `p` a device address names (R71). -/
def slotWord (p : Nat) (a : Addr) : Option (Fin 4) :=
  if a = addr12 p then some 0
  else if a = addr12 (p + 4) then some 1
  else if a = addr12 (p + 8) then some 2
  else if a = addr12 (p + 12) then some 3
  else none

/-- Word `j` of a frame object (R71). -/
def objWord (o : FrameObj) (j : Fin 4) : Word :=
  match j with
  | 0 => o.w0
  | 1 => o.w1
  | 2 => o.w2
  | 3 => o.w3

/-- Replace word `j` of a frame object. -/
def setObjWord (o : FrameObj) (j : Fin 4) (v : Word) : FrameObj :=
  match j with
  | 0 => { o with w0 := v }
  | 1 => { o with w1 := v }
  | 2 => { o with w2 := v }
  | 3 => { o with w3 := v }

/-- The interrupt status word of `ENV_REF` (R59). -/
def envIntWord (m : ChipMap) (e : EnvRef) : Word :=
  flagBit (!e.rxf.objs.isEmpty && e.rxf.ie == some m.ieOnRxf) m.bRxne |||
    flagBit (hasSpace e.txf && e.txf.ie == some m.ieOnTxf) m.bTxnf ||| e.st

/-- The words of the object at the head of the receive FIFO, where the address lies in its slot (R59). -/
def envSlotRead (m : ChipMap) (e : EnvRef) (a : Addr) : Option Word :=
  match e.rxf.objs with
  | [] => none
  | o :: _ => (slotWord (envSlot m e.rxf) a).map (objWord o)

/-- A 32-bit read of `ENV_REF`, in the order R59 lists its answers (log entry 3). -/
def envRead32 (m : ChipMap) (e : EnvRef) (a : Addr) : Word :=
  if a = m.rxf.ua then e.rxf.off
  else if a = m.txf.ua then e.txf.off
  else if a = m.txq.ua then e.txq.off
  else match envSlotRead m e a with
    | some v => v
    | none => if a = m.aInt then envIntWord m e else memGet e.mem32 a.toNat

/-- The status byte of a FIFO of `ENV_REF`: `NF_BIT` is 1 iff it has space, other bits 0 (R59). -/
def envStatusByte (m : ChipMap) (x : FifoEnv) : Byte := if hasSpace x then (1 : Byte) <<< m.nfBit.val else 0

/-- An 8-bit read of `ENV_REF` (R59). -/
def envRead8 (m : ChipMap) (e : EnvRef) (a : Addr) : Byte :=
  if a = m.rxf.sta then envStatusByte m e.rxf
  else if a = m.txf.sta then envStatusByte m e.txf
  else if a = m.txq.sta then envStatusByte m e.txq
  else memGet e.mem8 a.toNat

/-- A 32-bit write into the slot of a transmit FIFO stages a word (R59). -/
def stageWord (m : ChipMap) (a : Addr) (v : Word) (x : FifoEnv) : FifoEnv :=
  match slotWord (envSlot m x) a with
  | some j => { x with stage := setObjWord x.stage j v }
  | none => x

/-- A write at `A_CON(f)` sets the last byte written there (R59). -/
def noteIe (r : FifoMap) (a : Addr) (v : Byte) (x : FifoEnv) : FifoEnv :=
  if a = r.con then { x with ie := some v } else x

/-- The advance of the receive FIFO: its head is removed, if it has one (R59). -/
def advanceRx (x : FifoEnv) : FifoEnv := { x with objs := x.objs.tail }

/-- The advance of a transmit FIFO: the staged object is appended, or `overrun` recorded (R59). -/
def advanceTx (x : FifoEnv) : FifoEnv :=
  if hasSpace x then { x with objs := x.objs ++ [x.stage] } else { x with overrun := true }

/-- The byte at `A_CON(f) + 1` is `ADV(f)`: the write advances the FIFO (R47, R59). -/
def isAdvance (r : FifoMap) (a : Addr) (v : Byte) : Bool := a == addr12 (r.con.toNat + 1) && v == r.adv

/-- An acknowledge write for status bit `b` (R59, R125). -/
def isAck (P : Params) (a : Addr) (v : Byte) (b : Fin 32) : Bool :=
  isStatusBit P.cm b && a == addr12 (ackAddr P.cm b) && v == ackByte P.ackMode (b.val % 8)

/-- Remove from the raised status bits those a byte write acknowledges (R59). -/
def ackStatus (P : Params) (a : Addr) (v : Byte) (st : Word) : Word :=
  ((List.finRange 32).filter (isAck P a v)).foldl (fun w b => w &&& ~~~((1 : Word) <<< b.val)) st

/-- A 32-bit write of `ENV_REF` (R59). -/
def envWrite32 (m : ChipMap) (e : EnvRef) (a : Addr) (v : Word) : EnvRef where
  rxf := noteIe m.rxf a (v.setWidth 8) e.rxf
  txf := noteIe m.txf a (v.setWidth 8) (stageWord m a v e.txf)
  txq := noteIe m.txq a (v.setWidth 8) (stageWord m a v e.txq)
  st := e.st
  mem32 := memSet e.mem32 a.toNat v
  mem8 := e.mem8

/-- An 8-bit write of `ENV_REF` (R59). -/
def envWrite8 (P : Params) (e : EnvRef) (a : Addr) (v : Byte) : EnvRef where
  rxf := noteIe P.cm.rxf a v (if isAdvance P.cm.rxf a v then advanceRx e.rxf else e.rxf)
  txf := noteIe P.cm.txf a v (if isAdvance P.cm.txf a v then advanceTx e.txf else e.txf)
  txq := noteIe P.cm.txq a v (if isAdvance P.cm.txq a v then advanceTx e.txq else e.txq)
  st := ackStatus P a v e.st
  mem32 := e.mem32
  mem8 := memSet e.mem8 a.toNat v

/-- The answer of a free chip (R58): the next answer the environment has fixed, or the oracle's at the next free choice. -/
def freeRead (c : FreeChip) (hist : List BusEvent) (a : Addr) (w : Width) : Word × FreeChip :=
  match c.answers with
  | v :: rest => (v, { c with answers := rest })
  | [] => (Config.oracle hist a (widthBytes w) c.choice, { c with choice := c.choice + 1 })

/-- The chip's answer to a read (R58); a read of one byte takes the low 8 bits. -/
def chipRead (m : ChipMap) (hist : List BusEvent) (a : Addr) (w : Width) (c : Chip) : Word × Chip :=
  match c with
  | .free fc => ((freeRead fc hist a w).1, .free (freeRead fc hist a w).2)
  | .ref e =>
    match w with
    | .four => (envRead32 m e a, c)
    | .one => ((envRead8 m e a).setWidth 32, c)

/-- The effect of a write on the chip: nothing is assumed of a free chip (R58). -/
def chipWrite (P : Params) (a : Addr) (p : Payload) (c : Chip) : Chip :=
  match c with
  | .free _ => c
  | .ref e =>
    match p with
    | .word v => .ref (envWrite32 P.cm e a v)
    | .byte v => .ref (envWrite8 P e a v)

/-- The effect of the device reset on the chip: nothing is assumed of a free chip, and R59 gives `ENV_REF` none (log
entry 12). -/
def chipReset (c : Chip) : Chip := c

/-- A frame object arrives at the tail of the receive FIFO, or is lost on the CAN side when it is full (R59). -/
def envArrive (e : EnvRef) (o : FrameObj) : EnvRef :=
  if hasSpace e.rxf then { e with rxf := { e.rxf with objs := e.rxf.objs ++ [o] } } else e

/-- The head of a transmit FIFO is transmitted and removed (R59); the receive FIFO transmits nothing. -/
def envTransmit (e : EnvRef) (f : Fifo) : EnvRef :=
  match f with
  | .rxf => e
  | .txf => { e with txf := { e.txf with objs := e.txf.objs.tail } }
  | .txq => { e with txq := { e.txq with objs := e.txq.objs.tail } }

/-- A status bit is raised (R59); a bit outside `STATUS_BITS` is no status bit. -/
def envRaise (m : ChipMap) (e : EnvRef) (b : Fin 32) : EnvRef :=
  if isStatusBit m b then { e with st := e.st ||| ((1 : Word) <<< b.val) } else e

/-- A step of the environment (R52, R59). Of a free chip only the level of `int_in` is seen between transactions; the level
of `ENV_REF` follows from its status word (log entry 20). -/
def devStep (m : ChipMap) (ev : DevEvent) (c : Chip) : Chip :=
  match c, ev with
  | .free fc, .setInt b => .free { fc with intIn := b }
  | .free fc, .arrive _ => .free fc
  | .free fc, .transmit _ => .free fc
  | .free fc, .raiseStatus _ => .free fc
  | .ref e, .arrive o => .ref (envArrive e o)
  | .ref e, .transmit f => .ref (envTransmit e f)
  | .ref e, .raiseStatus b => .ref (envRaise m e b)
  | .ref e, .setInt _ => .ref e

/-- The level of the interrupt input: `true` is active (R27, R59). -/
def intIn (m : ChipMap) (c : Chip) : Bool :=
  match c with
  | .free fc => fc.intIn
  | .ref e => envIntWord m e != 0

end Sys2Proof.Machine
end

