-- ==== Sys2Proof/Machine/Ops.lean ====
section
/-! DEFINITION. The named operations of the core: the bus transaction and its accesses (R83 to R89), the queue primitives
(R100, R101), the hardware FIFO helpers (R104 to R109), the refusal (R134), entry into and return from the interrupt context
(R140, R141), the responses (R13), and the scheduler with the fetch from the request port (R52, R119). -/

namespace Sys2Proof.Machine

/-- What a bus transaction is asked to do (R83): the address is a natural, of which the low 12 bits are sent. -/
inductive Access where
  | rd (a : Nat) (w : Width)
  | wr (a : Nat) (p : Payload)
  | reset
deriving DecidableEq, Repr

/-- The chip-select bracket is opened (R83). -/
def assertCs (b : Bus) : Bus := { b with cs := true }

/-- The chip-select bracket is closed: the transaction is counted and recorded (R83). -/
def releaseCs (b : Bus) (chip : Chip) (ev : BusEvent) : Bus :=
  { b with cs := false, txnCount := b.txnCount + 1, hist := b.hist ++ [ev], chip := chip }

/-- The command word a transaction opens with (R60, R61, R83). -/
def accessCmd : Access → BitVec 16
  | .rd a _ => cmdWord opcRead a
  | .wr a _ => cmdWord opcWrite a
  | .reset => 0x0000

/-- The address field of a command word, `c[11:0]` (R60). -/
def cmdAddr (c : BitVec 16) : Addr := c.extractLsb' 0 12

/-- One bus transaction (R83): the value read, 0 for the other kinds, and the bus after it. -/
def txn (P : Params) (issuer : Issuer) (acc : Access) (b : Bus) : Word × Bus :=
  let opened := assertCs b
  let addr := cmdAddr (accessCmd acc)
  match acc with
  | .rd _ w =>
    let r := chipRead P.cm b.hist addr w b.chip
    (r.1, releaseCs opened r.2 ⟨.rd, addr, some (packPayload w r.1), b.rate, issuer⟩)
  | .wr _ p => (0, releaseCs opened (chipWrite P addr p b.chip) ⟨.wr, addr, some p, b.rate, issuer⟩)
  | .reset => (0, releaseCs opened (chipReset b.chip) ⟨.reset, addr, none, b.rate, issuer⟩)

/-- The bytes that cross the bus in the chip-select bracket of an event, in order (R63). -/
def eventBytes (ev : BusEvent) : List Byte :=
  match ev.kind with
  | .rd => cmdBytes (cmdWord opcRead ev.addr.toNat) ++ (ev.data.map payloadBytes).getD []
  | .wr => cmdBytes (cmdWord opcWrite ev.addr.toNat) ++ (ev.data.map payloadBytes).getD []
  | .reset => cmdBytes 0x0000

/-- The payload length `n` of an event: 4, 1 or 0 (R28). -/
def eventLen (ev : BusEvent) : Nat := (ev.data.map fun p => widthBytes (payloadWidth p)).getD 0

/-- `MemRead(a, 4)` (R86). -/
def memRead32 (P : Params) (issuer : Issuer) (a : Nat) (b : Bus) : Word × Bus := txn P issuer (.rd a .four) b

/-- `MemRead(a, 1)` (R88). -/
def memRead8 (P : Params) (issuer : Issuer) (a : Nat) (b : Bus) : Byte × Bus :=
  let r := txn P issuer (.rd a .one) b
  (r.1.setWidth 8, r.2)

/-- `MemWrite(a, 4, v)` (R87). -/
def memWrite32 (P : Params) (issuer : Issuer) (a : Nat) (v : Word) (b : Bus) : Bus := (txn P issuer (.wr a (.word v)) b).2

/-- `MemWrite(a, 1, v)` (R89). -/
def memWrite8 (P : Params) (issuer : Issuer) (a : Nat) (v : Byte) (b : Bus) : Bus := (txn P issuer (.wr a (.byte v)) b).2

/-- `DevReset()` (R90). -/
def devReset (P : Params) (issuer : Issuer) (b : Bus) : Bus := (txn P issuer .reset b).2

/-- `q.enq(f)` (R100): whether the frame was accepted, and the queue after it. -/
def enq (q : Queue) (f : Frame) : Bool × Queue :=
  if q.items.length < q.cap then
    (true, { q with items := q.items ++ [f], peak := max q.peak (q.items.length + 1) })
  else (false, q)

/-- `q.deq()` (R101): the head frame and the queue after it. -/
def deq (q : Queue) : Option (Frame × Queue) :=
  match q.items with
  | [] => none
  | f :: rest => some (f, { q with items := rest })

/-- A queue as `CONFIGURE` constructs it (R95). -/
def emptyQueue (cap : Nat) : Queue := ⟨cap, [], 0⟩

/-- `Slot(f)` (R104): the slot address, a natural, and one read. -/
def slot (P : Params) (issuer : Issuer) (f : Fifo) (b : Bus) : Nat × Bus :=
  let r := memRead32 P issuer (fifoMap P.cm f).ua.toNat b
  (P.cm.uaBase.toNat + r.1.toNat, r.2)

/-- `Advance(f)` (R105). -/
def advance (P : Params) (issuer : Issuer) (f : Fifo) (b : Bus) : Bus :=
  memWrite8 P issuer ((fifoMap P.cm f).con.toNat + 1) (fifoMap P.cm f).adv b

/-- `SetIE(f, on)` (R106). -/
def setIE (P : Params) (issuer : Issuer) (f : IeFifo) (on : Bool) (b : Bus) : Bus :=
  memWrite8 P issuer (fifoMap P.cm (ieFifo f)).con.toNat (ieByte P.cm f on) b

/-- `NotFull(f)` (R107). -/
def notFull (P : Params) (issuer : Issuer) (f : Fifo) (b : Bus) : Bool × Bus :=
  let r := memRead8 P issuer (fifoMap P.cm f).sta.toNat b
  (notFullBit P.cm r.1, r.2)

/-- The four word writes of a frame object at slot address `p` (R71, R108). -/
def writeObj (P : Params) (issuer : Issuer) (p : Nat) (o : FrameObj) (b : Bus) : Bus :=
  let b := memWrite32 P issuer p o.w0 b
  let b := memWrite32 P issuer (p + 4) o.w1 b
  let b := memWrite32 P issuer (p + 8) o.w2 b
  memWrite32 P issuer (p + 12) o.w3 b

/-- The four word reads of a frame object at slot address `p` (R71, R109). -/
def readObj (P : Params) (issuer : Issuer) (p : Nat) (b : Bus) : FrameObj × Bus :=
  let r0 := memRead32 P issuer p b
  let r1 := memRead32 P issuer (p + 4) r0.2
  let r2 := memRead32 P issuer (p + 8) r1.2
  let r3 := memRead32 P issuer (p + 12) r2.2
  (⟨r0.1, r1.1, r2.1, r3.1⟩, r3.2)

/-- `HwWrite(f, fr)` (R108): six transactions. -/
def hwWrite (P : Params) (issuer : Issuer) (f : Fifo) (fr : Frame) (b : Bus) : Bus :=
  let p := slot P issuer f b
  advance P issuer f (writeObj P issuer p.1 (encodeObj P.fl fr) p.2)

/-- `HwRead()` (R109): six transactions. -/
def hwRead (P : Params) (issuer : Issuer) (b : Bus) : Frame × Bus :=
  let p := slot P issuer .rxf b
  let o := readObj P issuer p.1 p.2
  (decodeObj P o.1, advance P issuer .rxf o.2)

/-- `respond v` (R13): the response of the request to `FG`. -/
def respond (r : Response) (s : State) : State := { s with resp := some r }

/-- `emit E` (R13, R132). -/
def emit (ev : OutEvent) (s : State) : State := { s with out := s.out ++ [ev] }

/-- `raise Refused(reason)` (R134): the refusal mark is set, `FG` gets the reason, nothing else changes. -/
def raiseRefused (r : Reason) (s : State) : State := { s with refused := true, resp := some (.refused r) }

/-- Entry into the interrupt context (R140): nothing is saved. -/
def enterIsr (s : State) : State := { s with isrBusy := true }

/-- Return from the interrupt context (R141): nothing is restored but the mark. -/
def leaveIsr (s : State) : State := { s with isrBusy := false }

/-- Ends a request that no refusal reason stops with its meaning, and the others with their refusal (R134, R135). -/
def guarded (reason : Option Reason) (s : State) (meaning : Host.Outcome State Fault Refusal) :
    Host.Outcome State Fault Refusal :=
  match reason with
  | some r => .next (raiseRefused r s)
  | none => meaning

/-- Runs a meaning on a queue; a configured core without it does not exist (R19; log entry 9). -/
def withQueue (q : Option Queue) (meaning : Queue → Host.Outcome State Fault Refusal) : Host.Outcome State Fault Refusal :=
  match q with
  | some q => meaning q
  | none => .fault .queueAbsent

/-- The removal `RECV` and `DISPATCH` share (R114, R131): the head frame of `rxq_sw`, and the state after it. The not-empty
interrupt is enabled again when the queue was full before. -/
def takeRx (q : Queue) (s : State) : Option (Frame × State) :=
  match deq q with
  | none => none
  | some (f, q') =>
    some (f, { s with
      rxqSw := some q'
      bus := if queueFull q then setIE s.par .fg .rxf true s.bus else s.bus })

/-- A service pass may start (R119). -/
def isrEligible (s : State) : Bool := intIn s.par.cm s.bus.chip && s.ready && !s.isrBusy

/-- Who moves next (R52): the choice already made, or a free one. -/
def nextTurn (s : State) : Turn × State :=
  match s.agenda with
  | t :: rest => (t, { s with agenda := rest })
  | [] => (Config.turn s.tick, { s with tick := s.tick + 1 })

/-- A step of the environment (R52). -/
def runDev (ev : DevEvent) (s : State) : State :=
  { s with bus := { s.bus with chip := devStep s.par.cm ev s.bus.chip } }

/-- What the port holds next, as an instruction or a rejection, and the state with that request taken (R52, R66). -/
def fetch (s : State) : Option (Except Reject Instr × State) :=
  match s.port with
  | [] => none
  | item :: rest => some (decode item, { s with port := rest })

/-- The outcome of a request that is no instruction: a reserved code is refused by the core (R69), other bytes have no meaning
(R62, R64, R66). -/
def rejectRequest (why : Reject) (s : State) : Host.Outcome State Fault Refusal :=
  match why with
  | .reservedCode => .next (raiseRefused .reservedCode s)
  | .emptyRequest => .refused (.undecodable .emptyRequest)
  | .wrongLength m => .refused (.undecodable (.wrongLength m))
  | .notEmitted c => .refused (.undecodable (.notEmitted c))
  | .badBracket => .refused (.undecodable .badBracket)

/-- The interrupt input is driven active: what `withFetchWord` needs for the service pass (log entry 19). -/
def raiseLine (m : ChipMap) (c : Chip) : Chip :=
  match c with
  | .free fc => .free { fc with intIn := true }
  | .ref e => .ref (envRaise m e m.bMod)

end Sys2Proof.Machine
end

