-- ==== Sys2Proof/Machine/Codec.lean ====
section
/-! DEFINITION. The raw codec requests (R85 to R92), admitted in every state. -/

namespace Sys2Proof.Machine

/-- `RD32` (R86). -/
def execRd32 (addr : Half) (s : State) : Host.Outcome State Fault Refusal :=
  let r := memRead32 s.par .fg addr.toNat s.bus
  .next (respond (.word r.1) { s with bus := r.2 })

/-- `WR32` (R87). -/
def execWr32 (addr : Half) (v : Word) (s : State) : Host.Outcome State Fault Refusal :=
  .next (respond .done { s with bus := memWrite32 s.par .fg addr.toNat v s.bus })

/-- `RD8` (R88). -/
def execRd8 (addr : Half) (s : State) : Host.Outcome State Fault Refusal :=
  let r := memRead8 s.par .fg addr.toNat s.bus
  .next (respond (.byte r.1) { s with bus := r.2 })

/-- `WR8` (R89). -/
def execWr8 (addr : Half) (v : Byte) (s : State) : Host.Outcome State Fault Refusal :=
  .next (respond .done { s with bus := memWrite8 s.par .fg addr.toNat v s.bus })

/-- `DEVRESET` (R90): the core keeps its queues, flags and tables. -/
def execDevreset (s : State) : Host.Outcome State Fault Refusal :=
  .next (respond .done { s with bus := devReset s.par .fg s.bus })

/-- `SETRATE` (R91): no transaction. -/
def execSetrate (rate : Byte) (s : State) : Host.Outcome State Fault Refusal :=
  match rateOf rate with
  | some r => .next (respond .done { s with bus := { s.bus with rate := r } })
  | none => .next (raiseRefused .badRate s)

/-- `READERR` (R92): the raw diagnostic register. -/
def execReaderr (s : State) : Host.Outcome State Fault Refusal :=
  let r := memRead32 s.par .fg s.par.cm.aTrec.toNat s.bus
  .next (respond (.word r.1) { s with bus := r.2 })

end Sys2Proof.Machine
end

