-- ==== Sys2Proof/Machine/Configure.lean ====
section
/-! DEFINITION. `CONFIGURE` (R93 to R99): the core's part of bring-up. -/

namespace Sys2Proof.Machine

/-- Programs one filter slot: mask, acceptance, control (R96). -/
def programFilter (P : Params) (k : Nat) (f : FilterEntry) (b : Bus) : Bus :=
  let b := memWrite32 P .fg (fltMaskAddr P.cm k) f.mask b
  let b := memWrite32 P .fg (fltObjAddr P.cm k) f.acc b
  memWrite8 P .fg (fltConAddr P.cm k) (filterControl P.cm) b

/-- Programs the filter slots from `k` on, in list order (R96). -/
def programFilters (P : Params) (k : Nat) (fs : List FilterEntry) (b : Bus) : Bus :=
  match fs with
  | [] => b
  | f :: rest => programFilters P (k + 1) rest (programFilter P k f b)

/-- The interrupt-enable writes that end `CONFIGURE` (R99). -/
def programEnables (P : Params) (b : Bus) : Bus :=
  let b := setIE P .fg .rxf true b
  let b := setIE P .fg .txf false b
  memWrite8 P .fg P.cm.aIntIe.toNat P.cm.vIntIe b

/-- The state `CONFIGURE` leaves when no refusal applies (R93). -/
def configured (c : Cfg) (s : State) : State :=
  { s with
    ready := true
    cfg := some c
    txqSw := some (emptyQueue c.txSwCap)
    rxqSw := some (emptyQueue c.rxSwCap)
    txHwFull := false
    bypassEn := c.bypassEn
    cbTable := callbackTable (installedFilters c)
    cbSize := (installedFilters c).length
    bus := programEnables s.par (programFilters s.par 0 (programmedFilters c) s.bus) }

/-- `CONFIGURE` (R93): the refusals of R94 come before any transaction. -/
def execConfigure (conf : ConfOperand) (s : State) : Host.Outcome State Fault Refusal :=
  guarded (configureRefusal s.ready conf) s (.next (respond .done (configured (cfgOf conf) s)))

end Sys2Proof.Machine
end

