-- ==== Sys2Proof/Machine/Dispatcher.lean ====
section
/-! DEFINITION. The Interrupt Dispatcher (R119 to R128): the service pass with its status decoder and its handlers. -/

namespace Sys2Proof.Machine

/-- `RxDrain()` (R123): the receive queue and the bus after it. -/
def rxDrain (P : Params) (q : Queue) (b : Bus) : Queue × Bus :=
  if queueFull q then (q, setIE P .isr .rxf false b)
  else
    let r := hwRead P .isr b
    let q' := (enq q r.1).2
    if queueFull q' then (q', setIE P .isr .rxf false r.2) else (q', r.2)

/-- `TxDrain()` (R124): the transmit queue, `tx_hw_full` and the bus after it. -/
def txDrain (P : Params) (q : Queue) (full : Bool) (b : Bus) : Queue × Bool × Bus :=
  match deq q with
  | none => (q, false, setIE P .isr .txf false b)
  | some (f, q') => (q', full, hwWrite P .isr .txf f b)

/-- `Ack(b)` (R125). -/
def ack (P : Params) (b : Fin 32) (bus : Bus) : Bus :=
  memWrite8 P .isr (ackAddr P.cm b) (ackByte P.ackMode (b.val % 8)) bus

/-- The acknowledgements of a pass, in order (R121). -/
def ackAll (P : Params) (bits : List (Fin 32)) (bus : Bus) : Bus := bits.foldl (fun b i => ack P i b) bus

/-- The receive handler of a pass: run only when its bit is set (R121, R122). -/
def rxHandler (P : Params) (st : Word) (q : Queue) (b : Bus) : Queue × Bus :=
  if st.getLsbD P.cm.bRxne.val then rxDrain P q b else (q, b)

/-- The transmit handler of a pass: run only when its bit is set (R121, R122). -/
def txHandler (P : Params) (st : Word) (q : Queue) (full : Bool) (b : Bus) : Queue × Bool × Bus :=
  if st.getLsbD P.cm.bTxnf.val then txDrain P q full b else (q, full, b)

/-- The service pass (R121), every decision taken on the one status word read. -/
def servicePass (rq tq : Queue) (s : State) : State :=
  let st := memRead32 s.par .isr s.par.cm.aInt.toNat s.bus
  let rx := rxHandler s.par st.1 rq st.2
  let tx := txHandler s.par st.1 tq s.txHwFull rx.2
  { s with
    rxqSw := some rx.1
    txqSw := some tx.1
    txHwFull := tx.2.1
    bus := ackAll s.par (pendingStatus s.par.cm st.1) tx.2.2 }

/-- `IRQ` (R121): entry, the pass, return; no response and no refusal (R128). -/
def execIrq (s : State) : Host.Outcome State Fault Refusal :=
  withQueue s.rxqSw fun rq => withQueue s.txqSw fun tq => .next (leaveIsr (servicePass rq tq (enterIsr s)))

end Sys2Proof.Machine
end

