-- ==== Sys2Proof/Machine/FlowControl.lean ====
section
/-! DEFINITION. The Flow-Control Engine's requests: `TRYSEND` (R110 to R112), `AVAIL` (R113), `RECV` (R114) and the accessors
of the transmit software queue (R115 to R117). -/

namespace Sys2Proof.Machine

/-- The buffered branch of the ordinary path (R111): no transaction. -/
def sendBuffered (f : Frame) (q : Queue) (s : State) : State :=
  let r := enq q f
  respond (.bool r.1) { s with txqSw := some r.2 }

/-- The direct branch of the ordinary path (R111): the write into `TXF`, then the status read that may mark it full. -/
def sendDirect (f : Frame) (s : State) : State :=
  let st := notFull s.par .fg .txf (hwWrite s.par .fg .txf f s.bus)
  if st.1 then respond (.bool true) { s with bus := st.2 }
  else respond (.bool true) { s with txHwFull := true, bus := setIE s.par .fg .txf true st.2 }

/-- `SendOrdinary(f)` (R111). -/
def sendOrdinary (f : Frame) (s : State) : Host.Outcome State Fault Refusal :=
  if s.txHwFull then withQueue s.txqSw fun q => .next (sendBuffered f q s)
  else .next (sendDirect f s)

/-- `SendBypass(f)` (R112): the status is read before the slot. -/
def sendBypass (f : Frame) (s : State) : State :=
  if s.bypassEn then
    let st := notFull s.par .fg .txq s.bus
    if st.1 then respond (.bool true) { s with bus := hwWrite s.par .fg .txq f st.2 }
    else respond (.bool false) { s with bus := st.2 }
  else respond (.bool false) s

/-- The path of a frame by its selector (R77, R110). -/
def trySend (f : Frame) (s : State) : Host.Outcome State Fault Refusal :=
  if f.idx = 0 then sendOrdinary f s
  else if f.idx = 255 then .next (sendBypass f s)
  else .next (respond (.bool false) s)

/-- `TRYSEND` (R110). -/
def execTrysend (f : FrameOperand) (s : State) : Host.Outcome State Fault Refusal :=
  guarded (trysendRefusal s.ready f) s (trySend (frameOf f) s)

/-- `AVAIL` (R113). -/
def execAvail (s : State) : Host.Outcome State Fault Refusal :=
  guarded (readyGate s.ready) s
    (withQueue s.rxqSw fun q => .next (respond (.bool (decide (0 < q.items.length))) s))

/-- The response of `RECV` to what was taken from the queue (R114). -/
def receive (q : Queue) (s : State) : State :=
  match takeRx q s with
  | none => respond (.bool false) s
  | some (f, s') => respond (.frame f) s'

/-- `RECV` (R114). -/
def execRecv (s : State) : Host.Outcome State Fault Refusal :=
  guarded (readyGate s.ready) s (withQueue s.rxqSw fun q => .next (receive q s))

/-- `TXQ_SIZE` (R115). -/
def execTxqSize (s : State) : Host.Outcome State Fault Refusal :=
  guarded (readyGate s.ready) s (withQueue s.txqSw fun q => .next (respond (.nat q.cap) s))

/-- `TXQ_COUNT` (R116). -/
def execTxqCount (s : State) : Host.Outcome State Fault Refusal :=
  guarded (readyGate s.ready) s (withQueue s.txqSw fun q => .next (respond (.nat q.items.length) s))

/-- `TXQ_PEAK` (R117). -/
def execTxqPeak (s : State) : Host.Outcome State Fault Refusal :=
  guarded (readyGate s.ready) s (withQueue s.txqSw fun q => .next (respond (.nat q.peak) s))

end Sys2Proof.Machine
end

