-- ==== Sys2Proof/Machine/Router.lean ====
section
/-! DEFINITION. The Filter/Callback Router (R130 to R133): the dispatch of a received frame to its callback. -/

namespace Sys2Proof.Machine

/-- The events of a dispatched frame (R131, R132): the observer first, then the callback of the frame's own index. -/
def routeEvents (observer : Bool) (table : Vector (Option Handle) 32) (size : Nat) (f : Frame) : List OutEvent :=
  (if observer then [OutEvent.matchObserved f.idx] else []) ++
    (match lookup table size f.idx.toNat with
     | some h => [OutEvent.callback h f]
     | none => [])

/-- The dispatch of what was taken from the receive queue (R131). -/
def dispatchFrame (observer : Bool) (q : Queue) (s : State) : State :=
  match takeRx q s with
  | none => respond (.bool false) s
  | some (f, s') =>
    respond (.bool true) ((routeEvents observer s.cbTable s.cbSize f).foldl (fun t ev => emit ev t) s')

/-- `DISPATCH` (R131). -/
def execDispatch (obs : Byte) (s : State) : Host.Outcome State Fault Refusal :=
  guarded (dispatchRefusal s.ready obs) s (withQueue s.rxqSw fun q => .next (dispatchFrame (obs == 1) q s))

end Sys2Proof.Machine
end

