-- ==== Sys2Proof/Machine/Wire.lean ====
section
/-! DEFINITION. The wire commands `WRITE`, `READ`, `RESET` (R60 to R63, R83, R90): one bare bus transaction of the codec on
behalf of `FG`, without a response, since they are no host requests (log entry 7). -/

namespace Sys2Proof.Machine

/-- `WRITE` (R83): one write transaction. -/
def execWrite (addr : Addr) (p : Payload) (s : State) : Host.Outcome State Fault Refusal :=
  .next { s with bus := (txn s.par .fg (.wr addr.toNat p) s.bus).2 }

/-- `READ` (R83): one read transaction; the value stands in its bus event. -/
def execRead (addr : Addr) (w : Width) (s : State) : Host.Outcome State Fault Refusal :=
  .next { s with bus := (txn s.par .fg (.rd addr.toNat w) s.bus).2 }

/-- `RESET` (R90): the reset transaction; it resets the chip, not the core. -/
def execReset (s : State) : Host.Outcome State Fault Refusal :=
  .next { s with bus := devReset s.par .fg s.bus }

end Sys2Proof.Machine
end

