-- ==== Sys2Proof/Machine/Dispatch.lean ====
section
/-! DEFINITION. `exec`: one arm per constructor of `Instr`, each one direct call of its meaning. -/

namespace Sys2Proof.Machine

def exec (i : Instr) (s : State) : Host.Outcome State Fault Refusal :=
  match i with
  | .write addr p => Sys2Proof.Machine.execWrite addr p s
  | .read addr w => Sys2Proof.Machine.execRead addr w s
  | .reset => Sys2Proof.Machine.execReset s
  | .rd32 addr => Sys2Proof.Machine.execRd32 addr s
  | .wr32 addr v => Sys2Proof.Machine.execWr32 addr v s
  | .rd8 addr => Sys2Proof.Machine.execRd8 addr s
  | .wr8 addr v => Sys2Proof.Machine.execWr8 addr v s
  | .devreset => Sys2Proof.Machine.execDevreset s
  | .setrate rate => Sys2Proof.Machine.execSetrate rate s
  | .readerr => Sys2Proof.Machine.execReaderr s
  | .configure conf => Sys2Proof.Machine.execConfigure conf s
  | .trysend f => Sys2Proof.Machine.execTrysend f s
  | .avail => Sys2Proof.Machine.execAvail s
  | .recv => Sys2Proof.Machine.execRecv s
  | .dispatch obs => Sys2Proof.Machine.execDispatch obs s
  | .txqSize => Sys2Proof.Machine.execTxqSize s
  | .txqCount => Sys2Proof.Machine.execTxqCount s
  | .txqPeak => Sys2Proof.Machine.execTxqPeak s
  | .irq => Sys2Proof.Machine.execIrq s

end Sys2Proof.Machine
end

