-- ==== Sys2Proof/Machine/Schedule.lean ====
section
/-! DEFINITION. What each agent does with its turn at a scheduling point (R51, R52, R119), and the states in which a given
instruction is the next one to run (log entries 5 and 19). -/

namespace Sys2Proof.Machine

/-- The foreground's turn: its next request, if it has one, is delivered and runs to its response (R51, R52). -/
def stepFg (s : State) : Host.Outcome State Fault Refusal :=
  match fetch s with
  | none => .next s
  | some (.ok i, s') => exec i s'
  | some (.error why, s') => rejectRequest why s'

/-- The interrupt context's turn: a service pass, if one is eligible (R119). -/
def stepIsr (s : State) : Host.Outcome State Fault Refusal :=
  if isrEligible s then exec .irq s else .next s

/-- The turn of an agent (R52). An agent that has nothing to do lets its turn pass (log entry 4). -/
def runTurn (t : Turn) (s : State) : Host.Outcome State Fault Refusal :=
  match t with
  | .fg => stepFg s
  | .isr => stepIsr s
  | .dev ev => .next (runDev ev s)

/-- The state with an item at the head of the request port and the foreground's turn next. -/
def portNext (item : PortItem) (s : State) : State :=
  { s with port := item :: s.port, agenda := .fg :: s.agenda }

/-- The state in which the service pass is the next step: its turn, the interrupt input active, the core configured and no pass
running (R119; log entry 19). -/
def irqNext (s : State) : State :=
  { s with
    agenda := .isr :: s.agenda
    ready := true
    isrBusy := false
    txqSw := some (s.txqSw.getD (emptyQueue 1))
    rxqSw := some (s.rxqSw.getD (emptyQueue 1))
    bus := { s.bus with chip := raiseLine s.par.cm s.bus.chip } }

end Sys2Proof.Machine
end

