-- ==== Sys2Proof/Machine/Step.lean ====
section
/-! DEFINITION. One step of the machine: one scheduling point and the atomic step of the agent whose turn it is (R51, R52). -/

namespace Sys2Proof.Machine

/-- One step (R52): who moves is the choice already made, or a free one. -/
def step (s : State) : Host.Outcome State Fault Refusal := runTurn (nextTurn s).1 (nextTurn s).2

/-- The state with the instruction of a table word where the next step fetches it: at the head of the request port, with the
foreground's turn next (log entry 5 for how a program comes to run from reset). The `IRQ` row has no bits: for it, the state
in which the service pass is next. -/
def State.withFetchWord (s : State) (nbits w : Nat) : State :=
  match nbits with
  | 0 => irqNext s
  | _ =>
    match tableItem nbits w with
    | some item => portNext item s
    | none => s

end Sys2Proof.Machine
end

