-- ==== Sys2Proof/Machine/Bringup.lean ====
section
/-! DEFINITION. The bring-up sequencer at its interface (R150 to R153, R78), a program of `FG` over the requests of the core.
It is outside the block (R5) and no part of the step; its values are arguments (log entry 18). -/

namespace Sys2Proof.Machine

/-- The bits of the bring-up error word (R151): twelve checks and five run-time errors. -/
inductive BeginError where
  | bitrateClose
  | nbtPacking
  | intLine
  | nullHandler
  | txqSize
  | txqPrio
  | rxfSize
  | txfSize
  | txfPrio
  | ramUsage
  | filterCount
  | filterList
  | cfgTimeout
  | selftestSlow
  | pllTimeout
  | selftestFast
  | modeTimeout
deriving DecidableEq, Repr

/-- The settings the sequencer validates (R151). Verdicts of outside collaborators (the bit-timing calculator, the platform, the
filter-list builder) and the RAM usage are given as they computed them. -/
structure Settings where
  bitrateClose      : Bool
  brp               : Nat
  tseg1             : Nat
  tseg2             : Nat
  sjw               : Nat
  intLineCapable    : Bool
  handlerPresent    : Bool
  txqSize           : Nat
  txqPrio           : Nat
  rxfSize           : Nat
  txfSize           : Nat
  txfPrio           : Nat
  ramUsage          : Nat
  filters           : Option (List FilterOperand)
  filtersConsistent : Bool
  txSwCap           : Half
  rxSwCap           : Half
  pll               : Bool
deriving DecidableEq, Repr

/-- The sequencer's own register words and read-back predicates, `SEQ.*` (R150), for one settings record. -/
structure SeqWords where
  reqConfig : Word
  isConfig  : Word → Bool
  osc       : Word
  pllReady  : Word → Bool
  iocon     : Word
  txqcon    : Word
  txfcon    : Word
  rxfcon    : Word
  reqMode   : Word
  isMode    : Word → Bool

/-- The four 1-based bit-timing parameters fit their byte fields (R78, R151). -/
def nbtPacks (st : Settings) : Bool :=
  [st.brp, st.tseg1, st.tseg2, st.sjw].all fun v => decide (1 ≤ v ∧ v ≤ 256)

/-- The nominal bit-timing word (R78). -/
def nbtWord (st : Settings) : Word :=
  (BitVec.ofNat 32 (st.brp - 1) <<< 24) ||| (BitVec.ofNat 32 (st.tseg1 - 1) <<< 16) |||
    (BitVec.ofNat 32 (st.tseg2 - 1) <<< 8) ||| BitVec.ofNat 32 (st.sjw - 1)

/-- Whether the settings violate a check (R151); a run-time error is no check. -/
def violates (st : Settings) : BeginError → Bool
  | .bitrateClose => !st.bitrateClose
  | .nbtPacking => !nbtPacks st
  | .intLine => !st.intLineCapable
  | .nullHandler => !st.handlerPresent
  | .txqSize => decide (32 < st.txqSize)
  | .txqPrio => decide (31 < st.txqPrio)
  | .rxfSize => !decide (1 ≤ st.rxfSize ∧ st.rxfSize ≤ 32)
  | .txfSize => !decide (1 ≤ st.txfSize ∧ st.txfSize ≤ 32)
  | .txfPrio => decide (31 < st.txfPrio)
  | .ramUsage => decide (2048 < st.ramUsage)
  | .filterCount => decide (32 < (st.filters.getD []).length)
  | .filterList => !st.filtersConsistent
  | .cfgTimeout => false
  | .selftestSlow => false
  | .pllTimeout => false
  | .selftestFast => false
  | .modeTimeout => false

/-- The twelve checks of step 1 (R151). -/
def beginChecks : List BeginError :=
  [.bitrateClose, .nbtPacking, .intLine, .nullHandler, .txqSize, .txqPrio, .rxfSize, .txfSize, .txfPrio, .ramUsage,
    .filterCount, .filterList]

/-- The mask of an error under `BEGIN_ERR` (R151). -/
def errBit (bits : BeginError → Fin 32) (e : BeginError) : Word := (1 : Word) <<< (bits e).val

/-- The error word of step 1: the bits of exactly the violated checks (R151). -/
def validate (bits : BeginError → Fin 32) (st : Settings) : Word :=
  (beginChecks.filter (violates st)).foldl (fun w e => w ||| errBit bits e) 0

/-- The configuration operand the sequencer hands to the core (R150). -/
def bootConf (st : Settings) : ConfOperand where
  txCap := st.txSwCap
  rxCap := st.rxSwCap
  bypass := if 0 < st.txqSize then 1 else 0
  nflt := match st.filters with
    | none => 0xFF
    | some fs => BitVec.ofNat 8 fs.length
  entries := st.filters.getD []

/-- Issues one request and waits for its response (R6). A stop of the machine leaves the state as it is. -/
def issue (i : Instr) (s : State) : State :=
  match exec i s with
  | .next t => t
  | .fault _ => s
  | .refused _ => s

/-- A raw 32-bit write of the sequencer. -/
def seqWrite (a : Addr) (v : Word) (s : State) : State := issue (.wr32 (a.setWidth 16) v) s

/-- A raw 32-bit read of the sequencer: the value `FG` got. -/
def seqRead (a : Addr) (s : State) : Word × State :=
  let t := issue (.rd32 (a.setWidth 16)) s
  (match t.resp with
    | some (.word v) => v
    | _ => 0, t)

/-- A bounded wait (R153): at least one read; `patience` is how many further reads the deadline leaves. -/
def poll (a : Addr) (pred : Word → Bool) : Nat → State → Bool × State
  | 0, s =>
    let r := seqRead a s
    (pred r.1, r.2)
  | patience + 1, s =>
    let r := seqRead a s
    if pred r.1 then (true, r.2) else poll a pred patience r.2

/-- The self-test over a list of bit positions (R152): it stops at the first mismatch. -/
def selfTestBits (a : Addr) : List Nat → State → Bool × State
  | [], s => (true, s)
  | b :: rest, s =>
    let r := seqRead a (seqWrite a ((1 : Word) <<< b) s)
    if r.1 = (1 : Word) <<< b then selfTestBits a rest r.2 else (false, r.2)

/-- The self-test (R152). -/
def selfTest (s : State) : Bool × State := selfTestBits s.par.cm.aScratch (List.range 32) s

/-- Zeroing the working RAM, `0x400, 0x404, ..., 0xBFC` (R150). -/
def zeroRam (s : State) : State :=
  (List.range 512).foldl (fun t k => seqWrite (addr12 (0x400 + 4 * k)) 0 t) s

/-- An error bit added when a wait or a test failed. -/
def addErr (bits : BeginError → Fin 32) (ok : Bool) (e : BeginError) (w : Word) : Word :=
  if ok then w else w ||| errBit bits e

/-- Steps 8 to 12 of the reference sequence (R150), from the error word so far. -/
def bootTail (bits : BeginError → Fin 32) (w : SeqWords) (patience : Nat) (st : Settings) (err : Word) (s : State) :
    Word × State :=
  let m := s.par.cm
  let s := zeroRam s
  let s := seqWrite m.aIocon w.iocon s
  let s := seqWrite m.txq.con w.txqcon s
  let s := seqWrite m.txf.con w.txfcon s
  let s := seqWrite m.rxf.con w.rxfcon s
  let s := issue (.configure (bootConf st)) s
  let s := seqWrite m.aNbt (nbtWord st) s
  let s := seqWrite m.aCtrl w.reqMode s
  let r := poll m.aCtrl w.isMode patience s
  (addErr bits r.1 .modeTimeout err, r.2)

/-- Steps 5 and 6 (R150): the oscillator, the full rate, the second self-test. -/
def bootClock (bits : BeginError → Fin 32) (w : SeqWords) (patPll patMode : Nat) (st : Settings) (err : Word) (s : State) :
    Word × State :=
  let s := seqWrite s.par.cm.aOsc w.osc s
  let r := if st.pll then poll s.par.cm.aOsc w.pllReady patPll s else (true, s)
  let err := addErr bits r.1 .pllTimeout err
  let t := selfTest (issue (.setrate 1) r.2)
  if t.1 then bootTail bits w patMode st err t.2 else (addErr bits false .selftestFast err, t.2)

/-- The reference bring-up sequence (R150): the error word and the state it leaves. The three patience values are the free
choices of the bounded waits (R153). -/
def boot (bits : BeginError → Fin 32) (w : SeqWords) (patCfg patPll patMode : Nat) (st : Settings) (s : State) :
    Word × State :=
  let err := validate bits st
  if err ≠ 0 then (err, s)
  else
    let s := seqWrite s.par.cm.aCtrl w.reqConfig s
    let r := poll s.par.cm.aCtrl w.isConfig patCfg s
    let err := addErr bits r.1 .cfgTimeout 0
    let t := selfTest (issue .devreset (issue (.setrate 0) r.2))
    if t.1 then bootClock bits w patPll patMode st err t.2 else (addErr bits false .selftestSlow err, t.2)

end Sys2Proof.Machine
end

