-- ==== Sys2Proof/Machine/Reference.lean ====
section
/-! DEFINITION. The reference instances of the test vectors: `CM_REF` (R31), `FL_REF` (R72) and the initial `ENV_REF` (R59).
Their values are from general knowledge, not from the source (93 G1, G2; log entry 23): no step reads them; a state that
carries them is the instance a vector or a claim under `ENV_REF` speaks of. -/

namespace Sys2Proof.Machine

/-- `CM_REF` (R31). -/
def cmRef : ChipMap where
  aInt := 0x01C
  bRxne := 1
  bTxnf := 0
  bTbc := 2
  bMod := 3
  bSerr := 12
  bBuserr := 13
  aIntIe := 0x01E
  vIntIe := 0x03
  aTrec := 0x034
  rxf := ⟨0x05C, 0x060, 0x064, 0x01⟩
  txf := ⟨0x068, 0x06C, 0x070, 0x03⟩
  txq := ⟨0x050, 0x054, 0x058, 0x03⟩
  uaBase := 0x400
  nfBit := 0
  ieOnRxf := 0x01
  ieOffRxf := 0x00
  ieOnTxf := 0x81
  ieOffTxf := 0x80
  fltCon := Vector.ofFn fun k => BitVec.ofNat 12 (0x1D0 + k.val)
  fltObj0 := 0x1F0
  fltMask0 := 0x1F4
  fltEn := 0x80
  rxfNum := 1
  aNbt := 0x004
  aCtrl := 0x000
  aOsc := 0xE00
  aIocon := 0xE04
  aScratch := 0x400

/-- `FL_REF` (R72). -/
def flRef : FrameLayout := ⟨0, 11, 0, 4, 5⟩

/-- The model instance of the test vectors (95, section 0). -/
def paramsRef : Params := ⟨cmRef, flRef, .raw, .writeBit, false⟩

/-- A hardware FIFO of a fresh `ENV_REF` (R59), with its size and its offset `o(f)`. -/
def freshFifo (size : Nat) (off : Word) : FifoEnv := ⟨size, [], none, ⟨0, 0, 0, 0⟩, off, false⟩

/-- A fresh `ENV_REF` with the offsets the tests fix (R59). -/
def envFresh (rxf txf txq : Nat) : EnvRef :=
  ⟨freshFifo rxf 0x000, freshFifo txf 0x100, freshFifo txq 0x200, 0, [], []⟩

end Sys2Proof.Machine
end

