-- ==== Sys2Proof/Safety.lean ====
section
/-! DEFINITION. What a sound state and a safe run are, in the terms the statements use: the invariants of R21, R26, R37 and
R127, the premise "no raw write to the owned registers and no device reset" (R85, R158), and the reference environment without
frame loss (R59, R118). -/

namespace Sys2Proof.Machine

/-- The bus event of a 32-bit read (R28). -/
def evRd32 (b : Bus) (issuer : Issuer) (a : Nat) (v : Word) : BusEvent := ⟨.rd, addr12 a, some (.word v), b.rate, issuer⟩

/-- The bus event of an 8-bit read (R28). -/
def evRd8 (b : Bus) (issuer : Issuer) (a : Nat) (v : Byte) : BusEvent := ⟨.rd, addr12 a, some (.byte v), b.rate, issuer⟩

/-- The bus event of a 32-bit write (R28). -/
def evWr32 (b : Bus) (issuer : Issuer) (a : Nat) (v : Word) : BusEvent := ⟨.wr, addr12 a, some (.word v), b.rate, issuer⟩

/-- The bus event of an 8-bit write (R28). -/
def evWr8 (b : Bus) (issuer : Issuer) (a : Nat) (v : Byte) : BusEvent := ⟨.wr, addr12 a, some (.byte v), b.rate, issuer⟩

/-- The bus event of the reset transaction (R28): `n = 0`, `addr = 0`. -/
def evReset (b : Bus) (issuer : Issuer) : BusEvent := ⟨.reset, 0, none, b.rate, issuer⟩

/-- `b'` is `b` after exactly the transactions `evs`, in order: chip select released, each one counted and recorded, the rate
unchanged (R50, R83). -/
abbrev RanEvents (b b' : Bus) (evs : List BusEvent) : Prop :=
  b'.rate = b.rate ∧ b'.cs = false ∧ b'.txnCount = b.txnCount + evs.length ∧ b'.hist = b.hist ++ evs

/-- The bus `b` after exactly the transactions `evs`, with the chip they leave. -/
def afterEvents (b : Bus) (chip : Chip) (evs : List BusEvent) : Bus where
  rate := b.rate
  cs := false
  txnCount := b.txnCount + evs.length
  hist := b.hist ++ evs
  chip := chip

/-- The six transactions of `HwWrite` (R108): `u` is the user-address reading, `o` the frame object. -/
def frameWriteEvents (m : ChipMap) (b : Bus) (issuer : Issuer) (f : Fifo) (u : Word) (o : FrameObj) : List BusEvent :=
  let p := m.uaBase.toNat + u.toNat
  [evRd32 b issuer (fifoMap m f).ua.toNat u, evWr32 b issuer p o.w0, evWr32 b issuer (p + 4) o.w1,
    evWr32 b issuer (p + 8) o.w2, evWr32 b issuer (p + 12) o.w3,
    evWr8 b issuer ((fifoMap m f).con.toNat + 1) (fifoMap m f).adv]

/-- The six transactions of `HwRead` (R109): `u` is the user-address reading, `o` the words read. -/
def frameReadEvents (m : ChipMap) (b : Bus) (issuer : Issuer) (u : Word) (o : FrameObj) : List BusEvent :=
  let p := m.uaBase.toNat + u.toNat
  [evRd32 b issuer m.rxf.ua.toNat u, evRd32 b issuer p o.w0, evRd32 b issuer (p + 4) o.w1, evRd32 b issuer (p + 8) o.w2,
    evRd32 b issuer (p + 12) o.w3, evWr8 b issuer (m.rxf.con.toNat + 1) m.rxf.adv]

/-- The transactions that program filter slot `k` (R96). -/
def filterEvents (m : ChipMap) (b : Bus) (f : FilterEntry) (k : Nat) : List BusEvent :=
  [evWr32 b .fg (m.fltMask0.toNat + 8 * k) f.mask, evWr32 b .fg (m.fltObj0.toNat + 8 * k) f.acc,
    evWr8 b .fg (fltConAddr m k) (m.fltEn ||| m.rxfNum)]

/-- What the receive drain of a pass may do (R122, R123): nothing when its bit is clear; with a full queue one write of
`IE_OFF(RXF)`; else one frame moves, with that write when the queue is full after it. -/
def RxDrained (P : Params) (b : Bus) (st : Word) (q q' : Queue) (evs : List BusEvent) : Prop :=
  if st.getLsbD P.cm.bRxne.val = false then q' = q ∧ evs = []
  else if q.items.length = q.cap then
    q' = q ∧ evs = [evWr8 b .isr P.cm.rxf.con.toNat P.cm.ieOffRxf]
  else ∃ (u : Word) (o : FrameObj), q' = (enq q (decodeObj P o)).2 ∧
    evs = frameReadEvents P.cm b .isr u o ++
      (if q'.items.length = q'.cap then [evWr8 b .isr P.cm.rxf.con.toNat P.cm.ieOffRxf] else [])

/-- What the transmit drain of a pass may do (R122, R124): nothing when its bit is clear; with an empty queue the full flag is
cleared and `IE_OFF(TXF)` written; else the head frame is written into `TXF`. -/
def TxDrained (P : Params) (b : Bus) (st : Word) (q q' : Queue) (full full' : Bool) (evs : List BusEvent) : Prop :=
  if st.getLsbD P.cm.bTxnf.val = false then q' = q ∧ full' = full ∧ evs = []
  else match q.items with
    | [] => q' = q ∧ full' = false ∧ evs = [evWr8 b .isr P.cm.txf.con.toNat P.cm.ieOffTxf]
    | f :: rest => ∃ u : Word, q' = { q with items := rest } ∧ full' = full ∧
        evs = frameWriteEvents P.cm b .isr .txf u (encodeObj P.fl f)

/-- The acknowledgements of a pass (R125): one byte write for each status bit set, in ascending order. -/
def ackEvents (P : Params) (b : Bus) (st : Word) : List BusEvent :=
  ((List.finRange 32).filter fun i => isStatusBit P.cm i && st.getLsbD i.val).map fun i =>
    evWr8 b .isr (P.cm.aInt.toNat + i.val / 8) (ackByte P.ackMode (i.val % 8))

/-- Runs the transactions of a list of bus events on the bus again: every read must give the value its event records (R58,
R83). `none` where one does not. -/
def replay (P : Params) (b : Bus) : List BusEvent → Option Bus
  | [] => some b
  | ev :: rest =>
    let acc : Access := match ev.kind, ev.data with
      | .rd, some (.word _) => .rd ev.addr.toNat .four
      | .rd, some (.byte _) => .rd ev.addr.toNat .one
      | .wr, some p => .wr ev.addr.toNat p
      | _, _ => .reset
    let r := txn P ev.issuer acc b
    if r.2.hist = b.hist ++ [ev] then replay P r.2 rest else none

/-- A queue within its bounds (R21): `count <= peak <= cap`. -/
def queueOk (q : Queue) : Bool := decide (q.items.length ≤ q.peak) && decide (q.peak ≤ q.cap)

/-- The core before `CONFIGURE`: no configuration, no queue, every flag at its reset value (R19, R136, R142). -/
abbrev Unconfigured (s : State) : Prop :=
  s.ready = false ∧ s.cfg = none ∧ s.txqSw = none ∧ s.rxqSw = none ∧ s.txHwFull = false ∧ s.bypassEn = false ∧
    s.cbSize = 0 ∧ s.cbTable = Vector.replicate 32 none

/-- The core with configuration `c` and queues `tq`, `rq` (R23, R24, R93 to R95, R98): capacities, bypass flag and callback
table are the configuration's, and both queues are within their bounds. -/
abbrev ConfiguredAs (s : State) (c : Cfg) (tq rq : Queue) : Prop :=
  s.ready = true ∧ tq.cap = c.txSwCap ∧ rq.cap = c.rxSwCap ∧ 1 ≤ c.rxSwCap ∧ s.bypassEn = c.bypassEn ∧
    s.cbSize = (installedFilters c).length ∧ s.cbSize ≤ 32 ∧ s.cbTable = callbackTable (installedFilters c) ∧
    queueOk tq = true ∧ queueOk rq = true

/-- The core is in one of its two phases (R142). -/
def phaseOk (s : State) : Bool :=
  match s.cfg, s.txqSw, s.rxqSw with
  | none, none, none => decide (Unconfigured s)
  | some c, some tq, some rq => decide (ConfiguredAs s c tq rq)
  | _, _, _ => false

/-- The memories of the environment are in canonical form (R59). -/
def chipMemOk : Chip → Bool
  | .free _ => true
  | .ref e => e.mem32.wf && e.mem8.wf

/-- A sound state between atomic steps: chip select released (R26), no pass running (R127), every transaction counted and
recorded (R83), one of the two phases (R142), memories canonical. -/
abbrev Sound (s : State) : Prop :=
  s.bus.cs = false ∧ s.isrBusy = false ∧ s.bus.txnCount = s.bus.hist.length ∧ chipMemOk s.bus.chip = true ∧ phaseOk s = true

/-- The registers the flow-control engine owns (R85): the four bytes of `A_CON(f)` for each FIFO and of `A_INT`. A raw write counts
as a write to one of them by its start address alone. DESIGN CHOICE (log entry 26): a misaligned 32-bit write that starts 1 to 3
bytes below an owned register, whose effect on the chip is unknown (R44, 93 U3), does not count. -/
def ownedAddr (m : ChipMap) (a : Addr) : Bool :=
  [m.rxf.con, m.txf.con, m.txq.con, m.aInt].any fun r => [0, 1, 2, 3].any fun i => a == addr12 (r.toNat + i)

/-- A raw request that can break the engine's beliefs (R85, R158): a raw write to an owned register, or a device reset. -/
def disturbs (m : ChipMap) : Instr → Bool
  | .write a _ => ownedAddr m a
  | .wr32 a _ => ownedAddr m (addr12 a.toNat)
  | .wr8 a _ => ownedAddr m (addr12 a.toNat)
  | .devreset => true
  | .reset => true
  | .read _ _ => false
  | .rd32 _ => false
  | .rd8 _ => false
  | .setrate _ => false
  | .readerr => false
  | .configure _ => false
  | .trysend _ => false
  | .avail => false
  | .recv => false
  | .dispatch _ => false
  | .txqSize => false
  | .txqCount => false
  | .txqPeak => false
  | .irq => false

/-- A request at the port that disturbs nothing (R158). -/
def cleanItem (m : ChipMap) (item : PortItem) : Bool :=
  match decode item with
  | .ok i => !disturbs m i
  | .error _ => true

/-- Every request at the port disturbs nothing (R158): with requests of `FG` only at the port, no disturbing one is ever
issued. -/
abbrev PortClean (s : State) : Prop := s.port.all (cleanItem s.par.cm) = true

/-- The last byte the core wrote at a device address, in a byte write (R37). -/
def lastByte (a : Addr) (hist : List BusEvent) : Option Byte :=
  hist.foldl (fun acc ev =>
    match ev.kind, ev.data with
    | .wr, some (.byte v) => if ev.addr = a then some v else acc
    | _, _ => acc) none

/-- The byte addresses other than `A_CON(RXF)` and `A_CON(TXF)` that the engine writes (R99, R105, R125). -/
def otherBytes (m : ChipMap) : List Addr :=
  m.aIntIe :: [m.rxf.con, m.txf.con, m.txq.con].map (fun c => addr12 (c.toNat + 1)) ++
    (statusBits m).map fun b => addr12 (ackAddr m b)

/-- A chip map whose two interrupt-enable bytes are told apart: from each other, from every other byte the engine writes, and
on from off. `CM_REF` is one. -/
abbrev MapSeparate (m : ChipMap) : Prop :=
  m.rxf.con ≠ m.txf.con ∧ m.rxf.con ∉ otherBytes m ∧ m.txf.con ∉ otherBytes m ∧
    m.ieOnRxf ≠ m.ieOffRxf ∧ m.ieOnTxf ≠ m.ieOffTxf

/-- `txq_sw` holds a frame. -/
def txqWaiting (s : State) : Bool := (s.txqSw.map fun q => !q.items.isEmpty).getD false

/-- `rxq_sw` is full. -/
def rxqIsFull (s : State) : Bool := (s.rxqSw.map queueFull).getD false

/-- INV1 to INV3 of R37. -/
abbrev FlowInvariant (s : State) : Prop :=
  (txqWaiting s = true → s.txHwFull = true) ∧
    (s.txHwFull = true ↔ lastByte s.par.cm.txf.con s.bus.hist = some s.par.cm.ieOnTxf) ∧
    (rxqIsFull s = true ↔ lastByte s.par.cm.rxf.con s.bus.hist = some s.par.cm.ieOffRxf)

/-- A sound state in which the invariants of R37 hold from `CONFIGURE` on, with the premises of R37. -/
abbrev FlowSound (s : State) : Prop :=
  MapSeparate s.par.cm ∧ PortClean s ∧ Sound s ∧ (s.ready = true → FlowInvariant s)

/-- The beliefs of the core about `ENV_REF` that R118 rests on: the transmit FIFO has space whenever it is not believed full,
no transmit FIFO was ever overrun, and, once configured, the chip's interrupt enables agree with the core (R37). -/
abbrev EnvAgrees (s : State) (e : EnvRef) : Prop :=
  e.rxf.off = 0x000 ∧ e.txf.off = 0x100 ∧ e.txq.off = 0x200 ∧ e.txf.overrun = false ∧ e.txq.overrun = false ∧
    (s.txHwFull = false → hasSpace e.txf = true) ∧ e.st &&& 0x300C = e.st ∧
    (s.ready = true →
      (txqWaiting s = true → s.txHwFull = true) ∧ (s.txHwFull = true ↔ e.txf.ie = some 0x81) ∧
        (rxqIsFull s = true ↔ e.rxf.ie = some 0x00))

/-- The environment is `ENV_REF` and agrees with the core. -/
def envAgrees (s : State) : Bool :=
  match s.bus.chip with
  | .ref e => decide (EnvAgrees s e)
  | .free _ => false

/-- A sound state with `CM_REF` and `ENV_REF` in which no frame was lost (R59, R118). -/
abbrev NoLoss (s : State) : Prop := s.par.cm = cmRef ∧ PortClean s ∧ Sound s ∧ envAgrees s = true

/-- The frame objects on their way out under `ENV_REF`, oldest first: those in `TXF`, then those waiting in `txq_sw`, as they
will be encoded (R118). -/
def outbound (s : State) : List FrameObj :=
  (match s.bus.chip with
    | .ref e => e.txf.objs
    | .free _ => []) ++ ((s.txqSw.map Queue.items).getD []).map (encodeObj s.par.fl)

/-- The frames on their way in under `ENV_REF`, oldest first: those in `rxq_sw`, then those parked in `RXF`, as they will be
decoded (R118). -/
def inbound (s : State) : List Frame :=
  (s.rxqSw.map Queue.items).getD [] ++
    (match s.bus.chip with
      | .ref e => e.rxf.objs.map (decodeObj s.par)
      | .free _ => [])

/-- The work left for the dispatcher under `ENV_REF` (R129): parked frames, waiting frames, a full flag to clear, raised status
bits. -/
def backlog (s : State) : Nat :=
  (match s.bus.chip with
    | .ref e => e.rxf.objs.length + (if e.st = 0 then 0 else 1)
    | .free _ => 0) + ((s.txqSw.map Queue.items).getD []).length + (if s.txHwFull then 1 else 0)

/-- Up to `n` service passes in a row, as long as the interrupt input is active (R119, R126). -/
def drainPasses : Nat → State → State
  | 0, s => s
  | n + 1, s =>
    if isrEligible s then
      match exec .irq s with
      | .next t => drainPasses n t
      | .fault _ => s
      | .refused _ => s
    else s

/-- Enqueues frames one after another: which were accepted, and the queue after them (R100). -/
def enqAll (q : Queue) : List Frame → List Bool × Queue
  | [] => ([], q)
  | f :: rest =>
    let r := enq q f
    let t := enqAll r.2 rest
    (r.1 :: t.1, t.2)

/-- Dequeues up to `n` frames: those removed, oldest first, and the queue after them (R101). -/
def deqMany (q : Queue) : Nat → List Frame × Queue
  | 0 => ([], q)
  | n + 1 =>
    match deq q with
    | none => ([], q)
    | some (f, q') => (f :: (deqMany q' n).1, (deqMany q' n).2)

/-- The outcome with a change applied to its next state. -/
def mapNext (g : State → State) (o : Host.Outcome State Fault Refusal) : Host.Outcome State Fault Refusal :=
  match o with
  | .next t => .next (g t)
  | .fault f => .fault f
  | .refused r => .refused r

/-- The state with `ERRATUM_MASK` set to `b` (R8). -/
def setErratum (b : Bool) (s : State) : State := { s with par := { s.par with erratumMask := b } }

/-- What is fixed from `CONFIGURE` on (R8, R24, R95, R133): parameters, configuration, callback table, queue capacities. -/
structure FixedPart where
  par      : Params
  cfg      : Option Cfg
  bypassEn : Bool
  cbTable  : Vector (Option Handle) 32
  cbSize   : Nat
  txCap    : Option Nat
  rxCap    : Option Nat
deriving DecidableEq, Repr

/-- The fixed part of a state. -/
def fixedPart (s : State) : FixedPart :=
  ⟨s.par, s.cfg, s.bypassEn, s.cbTable, s.cbSize, s.txqSw.map Queue.cap, s.rxqSw.map Queue.cap⟩

end Sys2Proof.Machine
end

