-- ==== Sys2Proof/Certificates/Slice0/Obligations.lean ====
section
/-! DEFINITION. The statements for the provers. Each says the whole next state of an instruction where it says one, so that
whatever it does not name is unchanged. -/

open Sys2Proof Sys2Proof.Machine

/-! ### Encoding -/

/-- Every well-formed instruction but the service pass has a byte form, and the decoder reads it back (R60 to R68, R121). -/
def Obligations.DecodeEncodeAgree : Prop :=
  ∀ i : Instr, i.wellFormed = true →
    (i ≠ .irq → ∃ item, encode i = some item ∧ decode item = .ok i) ∧ (i = .irq → encode i = none)

/-- The decoder gives well-formed instructions only, and never the service pass. -/
def Obligations.DecodedInstrWellFormed : Prop :=
  ∀ (item : PortItem) (i : Instr), decode item = .ok i → i.wellFormed = true ∧ i ≠ .irq

/-- A host request has one byte form: what decodes to an instruction is that instruction's encoding (R66). -/
def Obligations.HostRequestFormUnique : Prop :=
  ∀ (bytes : List Byte) (i : Instr), decode (.host bytes) = .ok i → encode i = some (.host bytes)

/-- A request whose code is in no row of R65 is rejected as reserved, whatever follows the code, and a step that meets it sets
the refusal mark with the reason `ReservedCode` and issues no transaction (R69, R134). That the step takes the turn off the agenda
and the request off the port is the model's own design (log entries 4 and 5); no other field changes. -/
def Obligations.ReservedCodeRefused : Prop :=
  ∀ (c : Byte) (ops : List Byte), (∀ i, requestCode i ≠ some c) →
    decode (.host (c :: ops)) = .error .reservedCode ∧
    ∀ (s : State) (ag : List Turn) (rest : List PortItem),
      s.agenda = .fg :: ag → s.port = .host (c :: ops) :: rest →
        step s = .next { s with agenda := ag, port := rest, refused := true, resp := some (.refused .reservedCode) }

/-- Wire traffic the core never emits is rejected: other opcodes, a payload after the reset word, a payload of other than 4 or
1 bytes (R62, R64). The order of the two command bytes is presumed (log entry 13). -/
def Obligations.ForeignWireTrafficRejected : Prop :=
  ∀ (c : BitVec 16) (payload : List Byte),
    (c ≠ 0 → c.extractLsb' 12 4 ≠ 0b0010 → c.extractLsb' 12 4 ≠ 0b0011 →
      decode (.wire (cmdBytes c ++ payload)) = .error (.notEmitted c)) ∧
    (c = 0 → payload ≠ [] → decode (.wire (cmdBytes c ++ payload)) = .error .badBracket) ∧
    (c.extractLsb' 12 4 = 0b0010 ∨ c.extractLsb' 12 4 = 0b0011 → payload.length ≠ 4 → payload.length ≠ 1 →
      decode (.wire (cmdBytes c ++ payload)) = .error .badBracket)

/-- Words written out from the encoding decode to their instructions (R60, R63, R65 to R68; the order of the command bytes:
log entry 13). -/
def Obligations.SpecWordsDecode : Prop :=
  decode (.wire [0x24, 0x00, 0x01, 0x00, 0x00, 0x00]) = .ok (.write 0x400 (.word 0x00000001)) ∧
  decode (.wire [0x30, 0x6C, 0x00]) = .ok (.read 0x06C .one) ∧
  decode (.wire [0x00, 0x00]) = .ok .reset ∧
  decode (.host [0x01, 0x00, 0x14]) = .ok (.rd32 0x1400) ∧
  decode (.host [0x04, 0x05, 0x00, 0x5A]) = .ok (.wr8 0x005 0x5A) ∧
  decode (.host [0x20, 0xBB, 0x00, 0x00, 0x00, 0x02, 0x00, 0xFF, 0, 0, 0, 0, 0, 0, 0, 0]) =
    .ok (.trysend ⟨0xBB, 0x02, 0x00, 0xFF, ⟨0, 0, 0, 0, 0, 0, 0, 0⟩⟩) ∧
  decode (.host [0x10, 0x08, 0x00, 0x08, 0x00, 0x00, 0xFF]) = .ok (.configure ⟨8, 8, 0, 0xFF, []⟩)

/-- The bytes of every recorded transaction are one bracket the wire decoder reads as that access (R63, R64; the order of the
command bytes: log entry 13). -/
def Obligations.RecordedTransactionsDecode : Prop :=
  ∀ (b : Bus) (is : Issuer) (a : Nat) (v : Word) (w : Byte),
    decode (.wire (eventBytes (evRd32 b is a v))) = .ok (.read (addr12 a) .four) ∧
    decode (.wire (eventBytes (evRd8 b is a w))) = .ok (.read (addr12 a) .one) ∧
    decode (.wire (eventBytes (evWr32 b is a v))) = .ok (.write (addr12 a) (.word v)) ∧
    decode (.wire (eventBytes (evWr8 b is a w))) = .ok (.write (addr12 a) (.byte w)) ∧
    decode (.wire (eventBytes (evReset b is))) = .ok .reset

/-! ### The codec -/

/-- `RD32` (R86): one read transaction at the low 12 bits of the address; the response is the chip's answer. The order of the
command bytes is presumed, here and in the next three statements (log entry 13). -/
def Obligations.Rd32ReadsOneWord : Prop :=
  ∀ (addr : Half) (s : State),
    let r := chipRead s.par.cm s.bus.hist (addr.extractLsb' 0 12) .four s.bus.chip
    let ev := evRd32 s.bus .fg addr.toNat r.1
    exec (.rd32 addr) s = .next { s with bus := afterEvents s.bus r.2 [ev], resp := some (.word r.1) } ∧
      eventBytes ev = cmdBytes (cmdWord 0b0011 addr.toNat) ++ bytesLe4 r.1

/-- `WR32` (R87): one write transaction, payload least-significant byte first. -/
def Obligations.Wr32WritesOneWord : Prop :=
  ∀ (addr : Half) (v : Word) (s : State),
    let ev := evWr32 s.bus .fg addr.toNat v
    exec (.wr32 addr v) s =
        .next { s with
          bus := afterEvents s.bus (chipWrite s.par (addr.extractLsb' 0 12) (.word v) s.bus.chip) [ev]
          resp := some .done } ∧
      eventBytes ev = cmdBytes (cmdWord 0b0010 addr.toNat) ++ bytesLe4 v

/-- `RD8` (R88): one read transaction of one byte. -/
def Obligations.Rd8ReadsOneByte : Prop :=
  ∀ (addr : Half) (s : State),
    let r := chipRead s.par.cm s.bus.hist (addr.extractLsb' 0 12) .one s.bus.chip
    let ev := evRd8 s.bus .fg addr.toNat (r.1.setWidth 8)
    exec (.rd8 addr) s = .next { s with bus := afterEvents s.bus r.2 [ev], resp := some (.byte (r.1.setWidth 8)) } ∧
      eventBytes ev = cmdBytes (cmdWord 0b0011 addr.toNat) ++ [r.1.setWidth 8]

/-- `WR8` (R89): one write transaction of one byte. -/
def Obligations.Wr8WritesOneByte : Prop :=
  ∀ (addr : Half) (v : Byte) (s : State),
    let ev := evWr8 s.bus .fg addr.toNat v
    exec (.wr8 addr v) s =
        .next { s with
          bus := afterEvents s.bus (chipWrite s.par (addr.extractLsb' 0 12) (.byte v) s.bus.chip) [ev]
          resp := some .done } ∧
      eventBytes ev = cmdBytes (cmdWord 0b0010 addr.toNat) ++ [v]

/-- `DEVRESET` (R90): code 0x05, no operand; the bare word 0x0000 on the wire; the core keeps every other field. R47 and R90 say
that it resets the chip: that the environment is as before is inferred from R59, which lists no effect of it on `ENV_REF`, and
nothing is assumed of a free chip (log entry 12). -/
def Obligations.DevresetSendsBareWord : Prop :=
  decode (.host [0x05]) = .ok .devreset ∧ ∀ s : State,
    exec .devreset s =
        .next { s with bus := afterEvents s.bus s.bus.chip [evReset s.bus .fg], resp := some .done } ∧
      eventBytes (evReset s.bus .fg) = [0x00, 0x00]

/-- `SETRATE` (R91): the rate alone changes, without a transaction; any operand above 1 is refused with `BadRate`. -/
def Obligations.SetrateSetsRate : Prop :=
  ∀ s : State,
    exec (.setrate 0) s = .next { s with bus := { s.bus with rate := .slow }, resp := some .done } ∧
    exec (.setrate 1) s = .next { s with bus := { s.bus with rate := .fast }, resp := some .done } ∧
    ∀ rate : Byte, 2 ≤ rate.toNat →
      exec (.setrate rate) s = .next { s with refused := true, resp := some (.refused .badRate) }

/-- `READERR` (R92): code 0x07, no operand; one 32-bit read of `A_TREC`, returned raw, in every state. -/
def Obligations.ReaderrReturnsRawRegister : Prop :=
  decode (.host [0x07]) = .ok .readerr ∧ ∀ s : State,
    let r := chipRead s.par.cm s.bus.hist s.par.cm.aTrec .four s.bus.chip
    exec .readerr s =
      .next { s with
        bus := afterEvents s.bus r.2 [evRd32 s.bus .fg s.par.cm.aTrec.toNat r.1]
        resp := some (.word r.1) }

/-- The wire commands are one bare transaction each and nothing else (R83; that they run on behalf of `FG` and give no response
is the model's choice, log entry 7; that the reset leaves the environment as it was is inferred, log entry 12). -/
def Obligations.WireCommandIsOneTransaction : Prop :=
  ∀ (addr : Addr) (s : State),
    (∀ v : Word, exec (.write addr (.word v)) s =
      .next { s with
        bus := afterEvents s.bus (chipWrite s.par addr (.word v) s.bus.chip) [evWr32 s.bus .fg addr.toNat v] }) ∧
    (∀ v : Byte, exec (.write addr (.byte v)) s =
      .next { s with
        bus := afterEvents s.bus (chipWrite s.par addr (.byte v) s.bus.chip) [evWr8 s.bus .fg addr.toNat v] }) ∧
    (exec (.read addr .four) s =
      .next { s with
        bus := afterEvents s.bus (chipRead s.par.cm s.bus.hist addr .four s.bus.chip).2
          [evRd32 s.bus .fg addr.toNat (chipRead s.par.cm s.bus.hist addr .four s.bus.chip).1] }) ∧
    (exec (.read addr .one) s =
      .next { s with
        bus := afterEvents s.bus (chipRead s.par.cm s.bus.hist addr .one s.bus.chip).2
          [evRd8 s.bus .fg addr.toNat ((chipRead s.par.cm s.bus.hist addr .one s.bus.chip).1.setWidth 8)] }) ∧
    exec .reset s = .next { s with bus := afterEvents s.bus s.bus.chip [evReset s.bus .fg] }

/-! ### Configuration load -/

/-- `CONFIGURE` (R93, R95 to R99): when no refusal applies, the core's own state and exactly the transactions of R93, the
filters in list order. That the filter registers follow at stride 8 is an inference of R31 (log entry 11). -/
def Obligations.ConfigureLoadsTheCore : Prop :=
  ∀ (conf : ConfOperand) (s : State),
    s.ready = false → conf.rxCap ≠ 0 → conf.bypass.toNat < 2 → (conf.nflt = 0xFF ∨ conf.nflt.toNat ≤ 32) →
    let c := cfgOf conf
    let listed := c.filters.getD []
    let programmed := c.filters.getD [⟨0, 0, none⟩]
    ∃ (table : Vector (Option Handle) 32) (chip : Chip),
      (∀ k : Fin 32, table[k] = (listed[k.val]?).bind FilterEntry.cb) ∧
      exec (.configure conf) s =
        .next { s with
          ready := true
          cfg := some c
          txqSw := some ⟨conf.txCap.toNat, [], 0⟩
          rxqSw := some ⟨conf.rxCap.toNat, [], 0⟩
          txHwFull := false
          bypassEn := conf.bypass == 1
          cbTable := table
          cbSize := listed.length
          resp := some .done
          bus := afterEvents s.bus chip
            (((List.range programmed.length).zip programmed).flatMap (fun kf => filterEvents s.par.cm s.bus kf.2 kf.1) ++
              [evWr8 s.bus .fg s.par.cm.rxf.con.toNat s.par.cm.ieOnRxf,
                evWr8 s.bus .fg s.par.cm.txf.con.toNat s.par.cm.ieOffTxf,
                evWr8 s.bus .fg s.par.cm.aIntIe.toNat s.par.cm.vIntIe]) }

/-- `CONFIGURE` is refused, with the first reason that applies and no other effect (R94, R135). -/
def Obligations.ConfigureRefusals : Prop :=
  ∀ (conf : ConfOperand) (s : State),
    let refusedWith (r : Reason) := exec (.configure conf) s = .next { s with refused := true, resp := some (.refused r) }
    (s.ready = true → refusedWith .configTwice) ∧
    (s.ready = false → conf.rxCap = 0 → refusedWith .zeroRxCap) ∧
    (s.ready = false → conf.rxCap ≠ 0 → 2 ≤ conf.bypass.toNat → refusedWith .badBool) ∧
    (s.ready = false → conf.rxCap ≠ 0 → conf.bypass.toNat < 2 → conf.nflt ≠ 0xFF → 32 < conf.nflt.toNat →
      refusedWith .tooManyFilters)

/-! ### Flow control -/

/-- The direct branch of the ordinary path (R108, R111): six transactions write and advance, one reads the status; when it says
full, the flag is set and the not-full interrupt enabled. The result is `true`. -/
def Obligations.TrysendDirectPath : Prop :=
  ∀ (f : FrameOperand) (s : State),
    f.flags.toNat < 4 → s.ready = true → f.idx = 0 → s.txHwFull = false →
    ∃ (u : Word) (st : Byte) (chip : Chip),
      let evs := frameWriteEvents s.par.cm s.bus .fg .txf u (encodeObj s.par.fl (frameOf f)) ++
        [evRd8 s.bus .fg s.par.cm.txf.sta.toNat st]
      exec (.trysend f) s =
        if st.getLsbD s.par.cm.nfBit.val then
          .next { s with bus := afterEvents s.bus chip evs, resp := some (.bool true) }
        else
          .next { s with
            txHwFull := true
            resp := some (.bool true)
            bus := afterEvents s.bus chip (evs ++ [evWr8 s.bus .fg s.par.cm.txf.con.toNat s.par.cm.ieOnTxf]) }

/-- The buffered branch of the ordinary path (R100, R111): no transaction; the frame is appended, its length as given, or
rejected by a full queue that stays as it is. -/
def Obligations.TrysendBufferedPath : Prop :=
  ∀ (f : FrameOperand) (s : State) (q : Queue),
    f.flags.toNat < 4 → s.ready = true → f.idx = 0 → s.txHwFull = true → s.txqSw = some q →
    exec (.trysend f) s =
      if q.items.length < q.cap then
        .next { s with
          txqSw := some ⟨q.cap, q.items ++ [frameOf f], max q.peak (q.items.length + 1)⟩
          resp := some (.bool true) }
      else .next { s with resp := some (.bool false) }

/-- The bypass path (R112): rejected without a transaction where no bypass queue is configured; else the status is read first,
and the frame written only when it says not full. -/
def Obligations.TrysendBypassPath : Prop :=
  ∀ (f : FrameOperand) (s : State),
    f.flags.toNat < 4 → s.ready = true → f.idx = 255 →
    (s.bypassEn = false → exec (.trysend f) s = .next { s with resp := some (.bool false) }) ∧
    (s.bypassEn = true → ∃ (st : Byte) (u : Word) (chip : Chip),
      exec (.trysend f) s =
        if st.getLsbD s.par.cm.nfBit.val then
          .next { s with
            resp := some (.bool true)
            bus := afterEvents s.bus chip
              (evRd8 s.bus .fg s.par.cm.txq.sta.toNat st ::
                frameWriteEvents s.par.cm s.bus .fg .txq u (encodeObj s.par.fl (frameOf f))) }
        else
          .next { s with
            resp := some (.bool false)
            bus := afterEvents s.bus chip [evRd8 s.bus .fg s.par.cm.txq.sta.toNat st] })

/-- A path selector other than 0 and 255: `false`, no transaction, no state change (R77, R110). -/
def Obligations.TrysendUnknownSelector : Prop :=
  ∀ (f : FrameOperand) (s : State), f.flags.toNat < 4 → s.ready = true → f.idx ≠ 0 → f.idx ≠ 255 →
    exec (.trysend f) s = .next { s with resp := some (.bool false) }

/-- The refusals of `TRYSEND` and `DISPATCH`: the operand's format before the ready gate (R110, R131, R135). -/
def Obligations.OperandFormatRefusedFirst : Prop :=
  ∀ s : State,
    let refusedAs (r : Reason) : Host.Outcome State Fault Refusal :=
      .next { s with refused := true, resp := some (.refused r) }
    (∀ f : FrameOperand, 4 ≤ f.flags.toNat → exec (.trysend f) s = refusedAs .badFrame) ∧
    (∀ f : FrameOperand, f.flags.toNat < 4 → s.ready = false → exec (.trysend f) s = refusedAs .notReady) ∧
    (∀ obs : Byte, 2 ≤ obs.toNat → exec (.dispatch obs) s = refusedAs .badBool) ∧
    (∀ obs : Byte, obs.toNat < 2 → s.ready = false → exec (.dispatch obs) s = refusedAs .notReady)

/-- `AVAIL` (R113): code 0x30, no operand; whether the receive queue holds a frame; no transaction; refused before
`CONFIGURE`. -/
def Obligations.AvailAnswersCount : Prop :=
  decode (.host [0x30]) = .ok .avail ∧ ∀ (s : State),
    (s.ready = false → exec .avail s = .next { s with refused := true, resp := some (.refused .notReady) }) ∧
    (∀ q : Queue, s.ready = true → s.rxqSw = some q →
      exec .avail s = .next { s with resp := some (.bool (decide (q.items.length > 0))) })

/-- `RECV` (R101, R114): an empty queue answers `false`; else the head frame is removed and answered, and the not-empty interrupt
enabled again exactly when the queue was full before. -/
def Obligations.RecvRemovesHead : Prop :=
  ∀ (s : State) (q : Queue), s.ready = true → s.rxqSw = some q →
    (q.items = [] → exec .recv s = .next { s with resp := some (.bool false) }) ∧
    (∀ (f : Frame) (rest : List Frame), q.items = f :: rest → ∃ chip : Chip,
      exec .recv s =
        .next { s with
          rxqSw := some ⟨q.cap, rest, q.peak⟩
          resp := some (.frame f)
          bus := if q.items.length = q.cap then
              afterEvents s.bus chip [evWr8 s.bus .fg s.par.cm.rxf.con.toNat s.par.cm.ieOnRxf]
            else s.bus })

/-- The accessors (R115 to R117): capacity, count and peak of the transmit software queue, without a state change. -/
def Obligations.TxqAccessorsAnswer : Prop :=
  ∀ (s : State) (q : Queue), s.ready = true → s.txqSw = some q →
    exec .txqSize s = .next { s with resp := some (.nat q.cap) } ∧
    exec .txqCount s = .next { s with resp := some (.nat q.items.length) } ∧
    exec .txqPeak s = .next { s with resp := some (.nat q.peak) }

/-- The ready gate (R136): what needs the queues is refused before `CONFIGURE` and no service pass is eligible then; the raw
codec requests are admitted in every state; `CONFIGURE` is refused once the core is ready. -/
def Obligations.ReadyGateRefuses : Prop :=
  ∀ s : State,
    let refusedWith (i : Instr) (r : Reason) := exec i s = .next { s with refused := true, resp := some (.refused r) }
    (s.ready = false →
      (∀ i ∈ [Instr.avail, .recv, .txqSize, .txqCount, .txqPeak], refusedWith i .notReady) ∧
      (∀ f : FrameOperand, f.flags.toNat < 4 → refusedWith (.trysend f) .notReady) ∧
      (∀ obs : Byte, obs.toNat < 2 → refusedWith (.dispatch obs) .notReady) ∧
      isrEligible s = false) ∧
    (s.ready = true → ∀ conf : ConfOperand, refusedWith (.configure conf) .configTwice) ∧
    (∀ (addr : Half) (v : Word) (w : Byte),
      ∀ i ∈ [Instr.rd32 addr, .wr32 addr v, .rd8 addr, .wr8 addr w, .devreset, .setrate 0, .setrate 1, .readerr],
        ∃ t, exec i s = .next t ∧ t.refused = s.refused ∧ ∀ r, t.resp ≠ some (.refused r))

/-- The queue primitives (R100, R101), and what they give together: enqueuing up to the capacity and dequeuing as many gives the
frames in order, and an enqueue into the queue so filled is rejected and disturbs nothing. -/
def Obligations.QueueIsFifoUpToCapacity : Prop :=
  (∀ (q : Queue) (f : Frame),
    enq q f = (if q.items.length < q.cap then
        (true, { q with items := q.items ++ [f], peak := max q.peak (q.items ++ [f]).length })
      else (false, q)) ∧
    (q.cap = 0 → enq q f = (false, q)) ∧
    (q.items = [] → deq q = none) ∧
    (∀ head rest, q.items = head :: rest → deq q = some (head, { q with items := rest }))) ∧
  ∀ (q : Queue) (fs : List Frame) (extra : Frame), q.items = [] → fs.length ≤ q.cap →
    (enqAll q fs).1 = List.replicate fs.length true ∧
    (deqMany (enqAll q fs).2 fs.length).1 = fs ∧
    (fs.length = q.cap → enq (enqAll q fs).2 extra = (false, (enqAll q fs).2))

/-- The data words (R76): all eight bytes move in each direction, least-significant byte first, whatever the length and the
remote flag are. -/
def Obligations.DataWordsMoveAllBytes : Prop :=
  ∀ (P : Params) (f : Frame) (o : FrameObj) (i : Nat), i < 8 →
    (encodeObj P.fl f).w2.getLsbD i = f.data.b0.getLsbD i ∧ (encodeObj P.fl f).w2.getLsbD (8 + i) = f.data.b1.getLsbD i ∧
    (encodeObj P.fl f).w2.getLsbD (16 + i) = f.data.b2.getLsbD i ∧
    (encodeObj P.fl f).w2.getLsbD (24 + i) = f.data.b3.getLsbD i ∧
    (encodeObj P.fl f).w3.getLsbD i = f.data.b4.getLsbD i ∧ (encodeObj P.fl f).w3.getLsbD (8 + i) = f.data.b5.getLsbD i ∧
    (encodeObj P.fl f).w3.getLsbD (16 + i) = f.data.b6.getLsbD i ∧
    (encodeObj P.fl f).w3.getLsbD (24 + i) = f.data.b7.getLsbD i ∧
    (decodeObj P o).data.b0.getLsbD i = o.w2.getLsbD i ∧ (decodeObj P o).data.b1.getLsbD i = o.w2.getLsbD (8 + i) ∧
    (decodeObj P o).data.b2.getLsbD i = o.w2.getLsbD (16 + i) ∧
    (decodeObj P o).data.b3.getLsbD i = o.w2.getLsbD (24 + i) ∧
    (decodeObj P o).data.b4.getLsbD i = o.w3.getLsbD i ∧ (decodeObj P o).data.b5.getLsbD i = o.w3.getLsbD (8 + i) ∧
    (decodeObj P o).data.b6.getLsbD i = o.w3.getLsbD (16 + i) ∧
    (decodeObj P o).data.b7.getLsbD i = o.w3.getLsbD (24 + i)

/-- The frame object of a frame under `FL_REF`, as numbers (R73, R74, R76): identifier bits beyond 11 or 29 dropped, the length
clamped to 8, every other bit of the control word 0, data words little-endian. `FL_REF` is presumed (log entry 23). -/
def Obligations.EncodedFrameUnderFlRef : Prop :=
  ∀ f : Frame,
    let o := encodeObj flRef f
    o.w0.toNat = (if f.ext then f.id.toNat / 2 ^ 18 % 2 ^ 11 + f.id.toNat % 2 ^ 18 * 2 ^ 11 else f.id.toNat % 2 ^ 11) ∧
    o.w1.toNat = min f.len.toNat 8 + (if f.ext then 16 else 0) + (if f.rtr then 32 else 0) ∧
    o.w2.toNat = f.data.b0.toNat + 2 ^ 8 * f.data.b1.toNat + 2 ^ 16 * f.data.b2.toNat + 2 ^ 24 * f.data.b3.toNat ∧
    o.w3.toNat = f.data.b4.toNat + 2 ^ 8 * f.data.b5.toNat + 2 ^ 16 * f.data.b6.toNat + 2 ^ 24 * f.data.b7.toNat

/-- The frame of a received object under `FL_REF`, as numbers (R73, R75, R76, R103): bits 31:29 of word 0 ignored, the filter
index at 15:11 of word 1, the length code as it came or clamped. `FL_REF` is presumed (log entry 23). -/
def Obligations.DecodedFrameUnderFlRef : Prop :=
  ∀ (P : Params) (o : FrameObj), P.fl = flRef →
    let f := decodeObj P o
    let code := o.w1.toNat % 16
    f.ext = decide (o.w1.toNat / 16 % 2 = 1) ∧
    f.rtr = decide (o.w1.toNat / 32 % 2 = 1) ∧
    f.idx.toNat = o.w1.toNat / 2 ^ 11 % 32 ∧
    f.len.toNat = (match P.rxLenMode with
      | .raw => code
      | .clamp8 => min code 8) ∧
    f.id.toNat = (if f.ext then o.w0.toNat % 2 ^ 11 * 2 ^ 18 + o.w0.toNat / 2 ^ 11 % 2 ^ 18 else o.w0.toNat % 2 ^ 11) ∧
    f.data.b0.toNat = o.w2.toNat % 2 ^ 8 ∧ f.data.b1.toNat = o.w2.toNat / 2 ^ 8 % 2 ^ 8 ∧
    f.data.b2.toNat = o.w2.toNat / 2 ^ 16 % 2 ^ 8 ∧ f.data.b3.toNat = o.w2.toNat / 2 ^ 24 ∧
    f.data.b4.toNat = o.w3.toNat % 2 ^ 8 ∧ f.data.b5.toNat = o.w3.toNat / 2 ^ 8 % 2 ^ 8 ∧
    f.data.b6.toNat = o.w3.toNat / 2 ^ 16 % 2 ^ 8 ∧ f.data.b7.toNat = o.w3.toNat / 2 ^ 24

/-- A frame written and read back through a frame object under `FL_REF` keeps its flags, its data, the bits of its identifier
that the field holds and its length up to 8; the filter index of a transmitted object is 0 (R73 to R76). `FL_REF` is presumed
(log entry 23). -/
def Obligations.FrameObjectRoundTrip : Prop :=
  ∀ (P : Params) (f : Frame), P.fl = flRef →
    let g := decodeObj P (encodeObj P.fl f)
    g.ext = f.ext ∧ g.rtr = f.rtr ∧ g.data = f.data ∧ g.idx = 0 ∧ g.len.toNat = min f.len.toNat 8 ∧
      g.id.toNat = f.id.toNat % (if f.ext then 2 ^ 29 else 2 ^ 11)

/-! ### The interrupt dispatcher -/

/-- The service pass (R121 to R125): one read of the status word, then the receive drain, the transmit drain and the
acknowledgements, each as its bit says; nothing else of the state changes, and no pass is marked as running after it. -/
def Obligations.ServicePassRunsHandlers : Prop :=
  ∀ (s : State) (rq tq : Queue), s.rxqSw = some rq → s.txqSw = some tq →
    let st := (chipRead s.par.cm s.bus.hist s.par.cm.aInt .four s.bus.chip).1
    ∃ (rq' tq' : Queue) (full' : Bool) (rxEvs txEvs : List BusEvent) (chip : Chip),
      RxDrained s.par s.bus st rq rq' rxEvs ∧
      TxDrained s.par s.bus st tq tq' s.txHwFull full' txEvs ∧
      exec .irq s =
        .next { s with
          rxqSw := some rq'
          txqSw := some tq'
          txHwFull := full'
          isrBusy := false
          bus := afterEvents s.bus chip
            (evRd32 s.bus .isr s.par.cm.aInt.toNat st :: (rxEvs ++ txEvs ++ ackEvents s.par s.bus st)) }

/-- A pass takes between 1 and 18 transactions and moves at most one frame in each direction (R126; the bound 18 is an inference
the spec marks "derived: from rule R121"). -/
def Obligations.ServicePassIsBounded : Prop :=
  ∀ s t : State, exec .irq s = .next t →
    s.bus.txnCount + 1 ≤ t.bus.txnCount ∧ t.bus.txnCount ≤ s.bus.txnCount + 18 ∧
    ((t.rxqSw.map Queue.items).getD []).length ≤ ((s.rxqSw.map Queue.items).getD []).length + 1 ∧
    ((s.txqSw.map Queue.items).getD []).length ≤ ((t.txqSw.map Queue.items).getD []).length + 1

/-- The interrupt context's turn (R119): a pass runs exactly when the input is active, the core ready and no pass running; else
the turn passes and only the scheduler's choice is used up (the passing is the model's choice, log entry 4). -/
def Obligations.PassRunsWhenEligible : Prop :=
  ∀ (s : State) (ag : List Turn), s.agenda = .isr :: ag →
    (intIn s.par.cm s.bus.chip = true → s.ready = true → s.isrBusy = false →
      step s = exec .irq { s with agenda := ag }) ∧
    ((intIn s.par.cm s.bus.chip = false ∨ s.ready = false ∨ s.isrBusy = true) → step s = .next { s with agenda := ag })

/-! ### The router -/

/-- `DISPATCH` (R130 to R132): an empty queue answers `false` and emits nothing; else the head frame is removed as by `RECV`, the
observer event, if asked for, comes first, and the callback of the frame's own index, if one is registered, is the only one. -/
def Obligations.DispatchRoutesExactly : Prop :=
  ∀ (obs : Byte) (s : State) (q : Queue), obs.toNat < 2 → s.ready = true → s.rxqSw = some q →
    (q.items = [] → exec (.dispatch obs) s = .next { s with resp := some (.bool false) }) ∧
    (∀ (f : Frame) (rest : List Frame), q.items = f :: rest → ∃ chip : Chip,
      let entry : Option Handle := if f.idx.toNat < s.cbSize then (s.cbTable[f.idx.toNat]?).join else none
      exec (.dispatch obs) s =
        .next { s with
          rxqSw := some ⟨q.cap, rest, q.peak⟩
          resp := some (.bool true)
          out := s.out ++ (if obs = 1 then [OutEvent.matchObserved f.idx] else []) ++
            (entry.map fun h => OutEvent.callback h f).toList
          bus := if q.items.length = q.cap then
              afterEvents s.bus chip [evWr8 s.bus .fg s.par.cm.rxf.con.toNat s.par.cm.ieOnRxf]
            else s.bus })

/-! ### Refusals and failures -/

/-- The refusal mark is sticky, and a host request that is refused, whether the mark is already set or not, changes nothing but the
mark and the response; one that is not refused leaves the mark as it is; the interrupt context and the wire commands, which have
no request code, neither set the mark nor respond (R128, R134; for the wire commands log entry 7). -/
def Obligations.RefusalChangesNothingElse : Prop :=
  ∀ (i : Instr) (s t : State), exec i s = .next t →
    (s.refused = true → t.refused = true) ∧
    (s.refused = false → t.refused = true →
      i ≠ .irq ∧ ∃ r, t = { s with refused := true, resp := some (.refused r) }) ∧
    (requestCode i = none → t.refused = s.refused ∧ t.resp = s.resp) ∧
    (requestCode i ≠ none →
      (∀ r, t.resp = some (.refused r) → t = { s with refused := true, resp := some (.refused r) }) ∧
      ((∀ r, t.resp ≠ some (.refused r)) → t.refused = s.refused))

/-- A `false` result changes no state but the response; only the bypass status read issues a transaction for it (R137). The result
is the instruction's own: `false` was not the response before, or the instruction is one of the four that answer it. -/
def Obligations.FalseResultChangesNothing : Prop :=
  ∀ (i : Instr) (s t : State), exec i s = .next t → t.resp = some (.bool false) →
    (s.resp ≠ some (.bool false) ∨ (∃ f, i = .trysend f) ∨ i = .avail ∨ i = .recv ∨ ∃ obs, i = .dispatch obs) →
    t = { s with resp := some (.bool false) } ∨
    (∃ (f : FrameOperand) (st : Byte) (chip : Chip), i = .trysend f ∧ f.idx = 255 ∧
      t = { s with
        resp := some (.bool false)
        bus := afterEvents s.bus chip [evRd8 s.bus .fg s.par.cm.txq.sta.toNat st] })

/-! ### The machine as a whole -/

/-- A step runs the decoded instruction (R51, R52): when it is the foreground's turn and the request at the head of the port
decodes to an instruction, the step is that instruction on the state with the turn and the request taken. The port and the
agenda are the model's own (log entries 4 and 5). -/
def Obligations.StepRunsDecodedRequest : Prop :=
  ∀ (s : State) (ag : List Turn) (item : PortItem) (rest : List PortItem) (i : Instr),
    s.agenda = .fg :: ag → s.port = item :: rest → decode item = .ok i →
    step s = exec i { s with agenda := ag, port := rest }

/-- An open scheduling point is decided by the free choice, and a turn of an agent with nothing to do, or of the environment,
leaves the core's own state as it is (R52; that a turn may pass unused is the model's choice, log entry 4, and so is what is seen of
a chip between steps, log entry 20). -/
def Obligations.OtherTurnsLeaveTheCore : Prop :=
  ∀ (s : State) (ag : List Turn),
    (s.agenda = [] → step s = step { s with agenda := [Config.turn s.tick], tick := s.tick + 1 }) ∧
    (s.agenda = .fg :: ag → s.port = [] → step s = .next { s with agenda := ag }) ∧
    (∀ ev : DevEvent, s.agenda = .dev ev :: ag →
      step s = .next { s with
        agenda := ag
        bus := { s.bus with chip := devStep s.par.cm ev s.bus.chip } })

/-- What `CONFIGURE` fixes stays fixed (R24, R95, R133, R142): once ready, no instruction changes the parameters, the configuration,
the callback table, a queue's capacity or the ready flag. -/
def Obligations.ConfigurationIsFixed : Prop :=
  ∀ (i : Instr) (s t : State), s.ready = true → exec i s = .next t → t.ready = true ∧ fixedPart t = fixedPart s

/-- The core reaches the chip by recorded transactions only (R50, R58, R83): every instruction appends events of its own context at
the rate in force, and running just those events on the bus gives its bus and the values read. `SETRATE` alone changes the rate.
That the wire commands run in the foreground's context is the model's choice (log entry 7), and what an event does to the chip
rests on log entries 2, 3 and 12. -/
def Obligations.BusIsItsRecordedTransactions : Prop :=
  ∀ (i : Instr) (s t : State), exec i s = .next t →
    ∃ (evs : List BusEvent) (b : Bus), t.bus.hist = s.bus.hist ++ evs ∧ t.bus.txnCount = s.bus.txnCount + evs.length ∧
      (∀ ev ∈ evs, ev.issuer = (if i = .irq then .isr else .fg) ∧ ev.rate = s.bus.rate) ∧
      replay s.par s.bus evs = some b ∧ t.bus = { b with rate := t.bus.rate } ∧
      ((∀ r, i ≠ .setrate r) → t.bus.rate = s.bus.rate)

/-- `ERRATUM_MASK` changes no behaviour (R53; log entry 24): every instruction and every step does the same with it set or
clear. -/
def Obligations.ErratumMaskChangesNothing : Prop :=
  ∀ (b : Bool) (i : Instr) (s : State),
    exec i (setErratum b s) = mapNext (setErratum b) (exec i s) ∧ step (setErratum b s) = mapNext (setErratum b) (step s)

/-- Under `ENV_REF` a raw write reaches its one address of the plain memory of its width, and every other address of either
memory reads as before (R59, R87, R89; the memory keyed by address and width is inferred, log entry 3). -/
def Obligations.RawWriteMemoryFrame : Prop :=
  ∀ (s : State) (e : EnvRef), s.bus.chip = .ref e → e.mem32.wf = true → e.mem8.wf = true →
    (∀ (addr : Half) (v : Word), ∃ t e', exec (.wr32 addr v) s = .next t ∧ t.bus.chip = .ref e' ∧
      (∀ x, memGet e'.mem32 x = if x = addr.toNat % 4096 then v else memGet e.mem32 x) ∧
      (∀ x, memGet e'.mem8 x = memGet e.mem8 x)) ∧
    (∀ (addr : Half) (v : Byte), ∃ t e', exec (.wr8 addr v) s = .next t ∧ t.bus.chip = .ref e' ∧
      (∀ x, memGet e'.mem8 x = if x = addr.toNat % 4096 then v else memGet e.mem8 x) ∧
      (∀ x, memGet e'.mem32 x = memGet e.mem32 x))

/-- Under `ENV_REF` no read request has a side effect on the chip, of either width and whatever the FIFOs hold, and a word written
into the RAM window while no object is parked reads back, whatever the address bits above 11 (R40, R47, R59, R86, R87, R88, R92).
`CM_REF` is presumed (log entry 23), the order of the answers of `ENV_REF` inferred (log entry 3), and that the read on the wire is
the foreground's is the model's choice (log entry 7). -/
def Obligations.PlainWordReadsBack : Prop :=
  ∀ (s : State) (e : EnvRef), s.bus.chip = .ref e →
    (∀ (addr : Half) (a : Addr) (w : Width), ∀ i ∈ [Instr.rd32 addr, .rd8 addr, .readerr, .read a w],
      ∃ t, exec i s = .next t ∧ t.bus.chip = .ref e) ∧
    (s.par.cm = cmRef → e.mem32.wf = true → e.rxf.objs = [] →
      ∀ (a b : Half) (v : Word), 0x400 ≤ a.toNat % 4096 → a.toNat % 4096 < 0xC00 → b.toNat % 4096 = a.toNat % 4096 →
        ∃ t t', exec (.wr32 a v) s = .next t ∧ exec (.rd32 b) t = .next t' ∧ t'.resp = some (.word v))

/-! ### Invariants -/

/-- Core reset gives every field the value of R148 and R19, is a sound state, and its service pass is not eligible whatever the
interrupt input does (R148). The chip and the parameters are free (R149, R8); they and `resp`, `port`, `agenda`, `tick` are the
model's own fields (log entries 1, 2, 4, 5, 8). -/
def Obligations.ResetIsSound : Prop :=
  (∃ intLevel : Bool, State.reset =
    { par := Config.params, ready := false, cfg := none, txqSw := none, rxqSw := none, txHwFull := false,
      bypassEn := false, cbTable := Vector.replicate 32 none, cbSize := 0,
      bus := ⟨.slow, false, 0, [], .free ⟨[], 0, intLevel⟩⟩, isrBusy := false, refused := false, out := [],
      resp := none, port := [], agenda := [], tick := 0 }) ∧
  Sound State.reset ∧ isrEligible State.reset = false

/-- Every step keeps a sound state sound (R21, R26, R83, R127, R142): chip select released, no pass running, every transaction
counted and recorded, memories canonical, and the core either unconfigured or configured with queues within their bounds and the
table of its filters. R21, R26 and R127 mark these as derived. -/
def Obligations.StepKeepsSound : Prop :=
  ∀ s t : State, Sound s → step s = .next t → Sound t

/-- From a sound state no step faults, and it stops at all only at a request that is no encoding (R62, R66). That the step stops there,
in the refusal `undecodable`, is the model's choice (log entry 6), and what the statement says of faults is about the model's own
`queueAbsent` (log entry 9). -/
def Obligations.SoundStepNeverFaults : Prop :=
  ∀ s : State, Sound s →
    (∃ t, step s = .next t) ∨
    (∃ (item : PortItem) (rest : List PortItem) (why : Reject), s.port = item :: rest ∧ decode item = .error why ∧
      step s = .refused (.undecodable why))

/-- The invariants INV1 to INV4 of R37 are kept by every step, with the premise of R37 that no raw request has written the
enable registers and a chip map that tells the enable bytes apart. R37 marks them "derived: from rules"; the premises are the
model's (log entry 22). -/
def Obligations.StepKeepsFlowInvariants : Prop :=
  ∀ s t : State, FlowSound s → step s = .next t → FlowSound t

/-- The base case of `FlowSound`: core reset is flow-sound for every chip map that tells the enable bytes apart, and INV1 to INV3 of
R37, which `FlowSound` asks only of a configured core, hold there outright (R148). The premises are the model's (log entry 22). -/
def Obligations.ResetHasFlowInvariants : Prop :=
  ∀ P : Params, MapSeparate P.cm →
    FlowSound { State.reset with par := P } ∧ FlowInvariant { State.reset with par := P }

/-- Under `ENV_REF` no transmit FIFO is ever overrun, and the core's beliefs about it stay right (R118), step after step. R118 is
marked "derived" by the spec, `CM_REF` is presumed (log entry 23), and so for the statements on `NoLoss` below. -/
def Obligations.StepKeepsNoLoss : Prop :=
  ∀ s t : State, NoLoss s → step s = .next t → NoLoss t

/-- The premises of R118 hold right after core reset in a fresh `ENV_REF` whose transmit FIFO has a slot. -/
def Obligations.ResetHasNoLoss : Prop :=
  ∀ (P : Params) (rxf txf txq : Nat), P.cm = cmRef → 0 < txf →
    NoLoss { State.reset with par := P, bus := { State.reset.bus with chip := .ref (envFresh rxf txf txq) } }

/-- Under `ENV_REF` a pass loses no received frame and reorders none (R118): the frames in the receive queue followed by those
parked in the chip are the same before and after. -/
def Obligations.PassKeepsInboundFrames : Prop :=
  ∀ s t : State, NoLoss s → s.ready = true → exec .irq s = .next t → inbound t = inbound s

/-- Under `ENV_REF` a pass loses no frame to be sent and reorders none (R118): the objects in the transmit FIFO followed by the
encodings of the waiting frames are the same before and after. -/
def Obligations.PassKeepsOutboundFrames : Prop :=
  ∀ s t : State, NoLoss s → s.ready = true → exec .irq s = .next t → outbound t = outbound s

/-- Under `ENV_REF` an accepted ordinary frame goes to the end of the outbound frames, exactly once, and a rejected one nowhere
(R118): frames reach the transmit FIFO in the order they were sent. -/
def Obligations.AcceptedFrameGoesLast : Prop :=
  ∀ (f : FrameOperand) (s t : State), NoLoss s → s.ready = true → f.flags.toNat < 4 → f.idx = 0 →
    exec (.trysend f) s = .next t →
    (t.resp = some (.bool true) ∧ outbound t = outbound s ++ [encodeObj s.par.fl (frameOf f)]) ∨
    (t.resp = some (.bool false) ∧ outbound t = outbound s)

/-- Under `ENV_REF` every eligible pass leaves less work, and acknowledges every raised status bit (R129). -/
def Obligations.EligiblePassMakesProgress : Prop :=
  ∀ s : State, NoLoss s → isrEligible s = true →
    ∃ t e', exec .irq s = .next t ∧ backlog t < backlog s ∧ t.bus.chip = .ref e' ∧ e'.st = 0

/-- Under `ENV_REF` a finite backlog is cleared by finitely many passes (R129): after at most `backlog s` passes in a row the
interrupt input is inactive. -/
def Obligations.PassesClearBacklog : Prop :=
  ∀ s : State, NoLoss s → s.ready = true →
    intIn (drainPasses (backlog s) s).par.cm (drainPasses (backlog s) s).bus.chip = false

/-! ### Bring-up at its interface -/

/-- The error word of validation holds exactly the bits of the violated checks, and a violation writes nothing (R151). The reading
of `NBT_PACKING` and the form of the sequencer are the model's (log entry 18). -/
def Obligations.ValidationReportsViolations : Prop :=
  ∀ (bits : BeginError → Fin 32) (st : Settings), Function.Injective bits →
    (∀ e : BeginError, (validate bits st).getLsbD (bits e).val = violates st e) ∧
    (∀ (w : SeqWords) (n1 n2 n3 : Nat) (s : State), (∃ e, violates st e = true) →
      boot bits w n1 n2 n3 st s = (validate bits st, s))

/-- A passing self-test is the 64 transactions of R152, alternating write and read, and under `ENV_REF` with no object parked it
passes (R59, R152). The form of the sequencer is the model's (log entry 18) and `CM_REF` is presumed (log entry 23). -/
def Obligations.SelfTestWalksAllBits : Prop :=
  ∀ s : State,
    ((selfTest s).1 = true → ∃ chip, (selfTest s).2.bus = afterEvents s.bus chip
      ((List.range 32).flatMap fun b =>
        [evWr32 s.bus .fg s.par.cm.aScratch.toNat ((1 : Word) <<< b),
          evRd32 s.bus .fg s.par.cm.aScratch.toNat ((1 : Word) <<< b)])) ∧
    (∀ e : EnvRef, s.bus.chip = .ref e → s.par.cm = cmRef → e.mem32.wf = true → e.rxf.objs = [] → (selfTest s).1 = true)

/-! ### The chip map -/

/-- The constraints of R31 on a chip map hold of the parameters at core reset, of `CM_REF` (presumed, log entry 23), and of every
state after a step from one in which they hold, since no step changes the parameters (R8). That the parameters stand in the state is
the model's choice (log entry 1). -/
def Obligations.ChipMapConstraintsHold : Prop :=
  State.reset.par.cm.constraintsHold = true ∧ cmRef.constraintsHold = true ∧
    ∀ s t : State, step s = .next t → t.par = s.par ∧
      (s.par.cm.constraintsHold = true → t.par.cm.constraintsHold = true)

/-- What the distinct status bits of R31 are for (R32, R125): an acknowledgement leaves the two FIFO bits to the chip. Where a FIFO bit
lies in the byte written, its position holds 0 under `WRITE_BIT` and 1 under `WRITE_ZERO_IN_BIT`, and the position of the bit
acknowledged holds the opposite. -/
def Obligations.AcknowledgeSparesFifoBits : Prop :=
  ∀ (m : ChipMap) (b r : Fin 32), m.constraintsHold = true → isStatusBit m b = true → r = m.bRxne ∨ r = m.bTxnf →
    (ackByte .writeBit (b.val % 8)).getLsbD (b.val % 8) = true ∧
    (ackByte .writeZeroInBit (b.val % 8)).getLsbD (b.val % 8) = false ∧
    (ackAddr m r = ackAddr m b →
      (ackByte .writeBit (b.val % 8)).getLsbD (r.val % 8) = false ∧
      (ackByte .writeZeroInBit (b.val % 8)).getLsbD (r.val % 8) = true)
end

