-- ==== Sys2Proof/Laws/Bits.lean ====
section
/-! SUPPORT. Byte order: the bytes of a value give the value back, and a command word holds its opcode and address. -/

namespace Sys2Proof.Machine

theorem fromLe4_bytes (v : Word) :
    fromLe4 (v.extractLsb' 0 8) (v.extractLsb' 8 8) (v.extractLsb' 16 8) (v.extractLsb' 24 8) = v := by
  apply BitVec.eq_of_getLsbD_eq
  intro i hi
  simp only [fromLe4, BitVec.getLsbD_or, BitVec.getLsbD_shiftLeft, BitVec.getLsbD_setWidth, BitVec.getLsbD_extractLsb']
  interval_cases i <;> simp

theorem fromLe2_bytes (v : Half) : fromLe2 (v.extractLsb' 0 8) (v.extractLsb' 8 8) = v := by
  apply BitVec.eq_of_getLsbD_eq
  intro i hi
  simp only [fromLe2, BitVec.getLsbD_or, BitVec.getLsbD_shiftLeft, BitVec.getLsbD_setWidth, BitVec.getLsbD_extractLsb']
  interval_cases i <;> simp

theorem cmd_of_bytes (c : BitVec 16) :
    (c.extractLsb' 0 8).setWidth 16 ||| ((c.extractLsb' 8 8).setWidth 16 <<< 8) = c := fromLe2_bytes c

@[simp] theorem addr12_toNat (a : Addr) : addr12 a.toNat = a := by simp [addr12]

theorem cmdWord_addr (opc : BitVec 4) (a : Nat) : (cmdWord opc a).extractLsb' 0 12 = addr12 a := by
  apply BitVec.eq_of_getLsbD_eq
  intro i hi
  simp only [cmdWord, BitVec.getLsbD_extractLsb', BitVec.getLsbD_or, BitVec.getLsbD_shiftLeft, BitVec.getLsbD_setWidth]
  simp [hi, show i < 16 by omega]

theorem cmdWord_opcode (opc : BitVec 4) (a : Nat) : (cmdWord opc a).extractLsb' 12 4 = opc := by
  apply BitVec.eq_of_getLsbD_eq
  intro i hi
  simp only [cmdWord, BitVec.getLsbD_extractLsb', BitVec.getLsbD_or, BitVec.getLsbD_shiftLeft, BitVec.getLsbD_setWidth]
  interval_cases i <;> simp [addr12]

/-- The reset word is no read or write command (R61). -/
theorem cmdWord_ne_zero (opc : BitVec 4) (a : Nat) (h : opc ≠ 0) : cmdWord opc a ≠ 0 := by
  intro h0
  have h1 := cmdWord_opcode opc a
  rw [h0] at h1
  exact h (by rw [← h1]; decide)

end Sys2Proof.Machine
end

