-- ==== Sys2Proof/Laws/State.lean ====
section
/-! SUPPORT. One lemma per field per update of the state and of the bus, all true by rfl. -/

namespace Sys2Proof.Machine

@[simp] theorem respond_par (r : Response) (s : State) : (respond r s).par = s.par := rfl
@[simp] theorem respond_ready (r : Response) (s : State) : (respond r s).ready = s.ready := rfl
@[simp] theorem respond_cfg (r : Response) (s : State) : (respond r s).cfg = s.cfg := rfl
@[simp] theorem respond_txqSw (r : Response) (s : State) : (respond r s).txqSw = s.txqSw := rfl
@[simp] theorem respond_rxqSw (r : Response) (s : State) : (respond r s).rxqSw = s.rxqSw := rfl
@[simp] theorem respond_txHwFull (r : Response) (s : State) : (respond r s).txHwFull = s.txHwFull := rfl
@[simp] theorem respond_bypassEn (r : Response) (s : State) : (respond r s).bypassEn = s.bypassEn := rfl
@[simp] theorem respond_cbTable (r : Response) (s : State) : (respond r s).cbTable = s.cbTable := rfl
@[simp] theorem respond_cbSize (r : Response) (s : State) : (respond r s).cbSize = s.cbSize := rfl
@[simp] theorem respond_bus (r : Response) (s : State) : (respond r s).bus = s.bus := rfl
@[simp] theorem respond_isrBusy (r : Response) (s : State) : (respond r s).isrBusy = s.isrBusy := rfl
@[simp] theorem respond_refused (r : Response) (s : State) : (respond r s).refused = s.refused := rfl
@[simp] theorem respond_out (r : Response) (s : State) : (respond r s).out = s.out := rfl
@[simp] theorem respond_resp (r : Response) (s : State) : (respond r s).resp = some r := rfl
@[simp] theorem respond_port (r : Response) (s : State) : (respond r s).port = s.port := rfl
@[simp] theorem respond_agenda (r : Response) (s : State) : (respond r s).agenda = s.agenda := rfl
@[simp] theorem respond_tick (r : Response) (s : State) : (respond r s).tick = s.tick := rfl

@[simp] theorem emit_par (ev : OutEvent) (s : State) : (emit ev s).par = s.par := rfl
@[simp] theorem emit_ready (ev : OutEvent) (s : State) : (emit ev s).ready = s.ready := rfl
@[simp] theorem emit_cfg (ev : OutEvent) (s : State) : (emit ev s).cfg = s.cfg := rfl
@[simp] theorem emit_txqSw (ev : OutEvent) (s : State) : (emit ev s).txqSw = s.txqSw := rfl
@[simp] theorem emit_rxqSw (ev : OutEvent) (s : State) : (emit ev s).rxqSw = s.rxqSw := rfl
@[simp] theorem emit_txHwFull (ev : OutEvent) (s : State) : (emit ev s).txHwFull = s.txHwFull := rfl
@[simp] theorem emit_bypassEn (ev : OutEvent) (s : State) : (emit ev s).bypassEn = s.bypassEn := rfl
@[simp] theorem emit_cbTable (ev : OutEvent) (s : State) : (emit ev s).cbTable = s.cbTable := rfl
@[simp] theorem emit_cbSize (ev : OutEvent) (s : State) : (emit ev s).cbSize = s.cbSize := rfl
@[simp] theorem emit_bus (ev : OutEvent) (s : State) : (emit ev s).bus = s.bus := rfl
@[simp] theorem emit_isrBusy (ev : OutEvent) (s : State) : (emit ev s).isrBusy = s.isrBusy := rfl
@[simp] theorem emit_refused (ev : OutEvent) (s : State) : (emit ev s).refused = s.refused := rfl
@[simp] theorem emit_out (ev : OutEvent) (s : State) : (emit ev s).out = s.out ++ [ev] := rfl
@[simp] theorem emit_resp (ev : OutEvent) (s : State) : (emit ev s).resp = s.resp := rfl
@[simp] theorem emit_port (ev : OutEvent) (s : State) : (emit ev s).port = s.port := rfl
@[simp] theorem emit_agenda (ev : OutEvent) (s : State) : (emit ev s).agenda = s.agenda := rfl
@[simp] theorem emit_tick (ev : OutEvent) (s : State) : (emit ev s).tick = s.tick := rfl

@[simp] theorem raiseRefused_par (r : Reason) (s : State) : (raiseRefused r s).par = s.par := rfl
@[simp] theorem raiseRefused_ready (r : Reason) (s : State) : (raiseRefused r s).ready = s.ready := rfl
@[simp] theorem raiseRefused_cfg (r : Reason) (s : State) : (raiseRefused r s).cfg = s.cfg := rfl
@[simp] theorem raiseRefused_txqSw (r : Reason) (s : State) : (raiseRefused r s).txqSw = s.txqSw := rfl
@[simp] theorem raiseRefused_rxqSw (r : Reason) (s : State) : (raiseRefused r s).rxqSw = s.rxqSw := rfl
@[simp] theorem raiseRefused_txHwFull (r : Reason) (s : State) : (raiseRefused r s).txHwFull = s.txHwFull := rfl
@[simp] theorem raiseRefused_bypassEn (r : Reason) (s : State) : (raiseRefused r s).bypassEn = s.bypassEn := rfl
@[simp] theorem raiseRefused_cbTable (r : Reason) (s : State) : (raiseRefused r s).cbTable = s.cbTable := rfl
@[simp] theorem raiseRefused_cbSize (r : Reason) (s : State) : (raiseRefused r s).cbSize = s.cbSize := rfl
@[simp] theorem raiseRefused_bus (r : Reason) (s : State) : (raiseRefused r s).bus = s.bus := rfl
@[simp] theorem raiseRefused_isrBusy (r : Reason) (s : State) : (raiseRefused r s).isrBusy = s.isrBusy := rfl
@[simp] theorem raiseRefused_refused (r : Reason) (s : State) : (raiseRefused r s).refused = true := rfl
@[simp] theorem raiseRefused_out (r : Reason) (s : State) : (raiseRefused r s).out = s.out := rfl
@[simp] theorem raiseRefused_resp (r : Reason) (s : State) : (raiseRefused r s).resp = some (.refused r) := rfl
@[simp] theorem raiseRefused_port (r : Reason) (s : State) : (raiseRefused r s).port = s.port := rfl
@[simp] theorem raiseRefused_agenda (r : Reason) (s : State) : (raiseRefused r s).agenda = s.agenda := rfl
@[simp] theorem raiseRefused_tick (r : Reason) (s : State) : (raiseRefused r s).tick = s.tick := rfl

@[simp] theorem enterIsr_par (s : State) : (enterIsr s).par = s.par := rfl
@[simp] theorem enterIsr_ready (s : State) : (enterIsr s).ready = s.ready := rfl
@[simp] theorem enterIsr_cfg (s : State) : (enterIsr s).cfg = s.cfg := rfl
@[simp] theorem enterIsr_txqSw (s : State) : (enterIsr s).txqSw = s.txqSw := rfl
@[simp] theorem enterIsr_rxqSw (s : State) : (enterIsr s).rxqSw = s.rxqSw := rfl
@[simp] theorem enterIsr_txHwFull (s : State) : (enterIsr s).txHwFull = s.txHwFull := rfl
@[simp] theorem enterIsr_bypassEn (s : State) : (enterIsr s).bypassEn = s.bypassEn := rfl
@[simp] theorem enterIsr_cbTable (s : State) : (enterIsr s).cbTable = s.cbTable := rfl
@[simp] theorem enterIsr_cbSize (s : State) : (enterIsr s).cbSize = s.cbSize := rfl
@[simp] theorem enterIsr_bus (s : State) : (enterIsr s).bus = s.bus := rfl
@[simp] theorem enterIsr_isrBusy (s : State) : (enterIsr s).isrBusy = true := rfl
@[simp] theorem enterIsr_refused (s : State) : (enterIsr s).refused = s.refused := rfl
@[simp] theorem enterIsr_out (s : State) : (enterIsr s).out = s.out := rfl
@[simp] theorem enterIsr_resp (s : State) : (enterIsr s).resp = s.resp := rfl
@[simp] theorem enterIsr_port (s : State) : (enterIsr s).port = s.port := rfl
@[simp] theorem enterIsr_agenda (s : State) : (enterIsr s).agenda = s.agenda := rfl
@[simp] theorem enterIsr_tick (s : State) : (enterIsr s).tick = s.tick := rfl

@[simp] theorem leaveIsr_par (s : State) : (leaveIsr s).par = s.par := rfl
@[simp] theorem leaveIsr_ready (s : State) : (leaveIsr s).ready = s.ready := rfl
@[simp] theorem leaveIsr_cfg (s : State) : (leaveIsr s).cfg = s.cfg := rfl
@[simp] theorem leaveIsr_txqSw (s : State) : (leaveIsr s).txqSw = s.txqSw := rfl
@[simp] theorem leaveIsr_rxqSw (s : State) : (leaveIsr s).rxqSw = s.rxqSw := rfl
@[simp] theorem leaveIsr_txHwFull (s : State) : (leaveIsr s).txHwFull = s.txHwFull := rfl
@[simp] theorem leaveIsr_bypassEn (s : State) : (leaveIsr s).bypassEn = s.bypassEn := rfl
@[simp] theorem leaveIsr_cbTable (s : State) : (leaveIsr s).cbTable = s.cbTable := rfl
@[simp] theorem leaveIsr_cbSize (s : State) : (leaveIsr s).cbSize = s.cbSize := rfl
@[simp] theorem leaveIsr_bus (s : State) : (leaveIsr s).bus = s.bus := rfl
@[simp] theorem leaveIsr_isrBusy (s : State) : (leaveIsr s).isrBusy = false := rfl
@[simp] theorem leaveIsr_refused (s : State) : (leaveIsr s).refused = s.refused := rfl
@[simp] theorem leaveIsr_out (s : State) : (leaveIsr s).out = s.out := rfl
@[simp] theorem leaveIsr_resp (s : State) : (leaveIsr s).resp = s.resp := rfl
@[simp] theorem leaveIsr_port (s : State) : (leaveIsr s).port = s.port := rfl
@[simp] theorem leaveIsr_agenda (s : State) : (leaveIsr s).agenda = s.agenda := rfl
@[simp] theorem leaveIsr_tick (s : State) : (leaveIsr s).tick = s.tick := rfl

@[simp] theorem runDev_par (ev : DevEvent) (s : State) : (runDev ev s).par = s.par := rfl
@[simp] theorem runDev_ready (ev : DevEvent) (s : State) : (runDev ev s).ready = s.ready := rfl
@[simp] theorem runDev_cfg (ev : DevEvent) (s : State) : (runDev ev s).cfg = s.cfg := rfl
@[simp] theorem runDev_txqSw (ev : DevEvent) (s : State) : (runDev ev s).txqSw = s.txqSw := rfl
@[simp] theorem runDev_rxqSw (ev : DevEvent) (s : State) : (runDev ev s).rxqSw = s.rxqSw := rfl
@[simp] theorem runDev_txHwFull (ev : DevEvent) (s : State) : (runDev ev s).txHwFull = s.txHwFull := rfl
@[simp] theorem runDev_bypassEn (ev : DevEvent) (s : State) : (runDev ev s).bypassEn = s.bypassEn := rfl
@[simp] theorem runDev_cbTable (ev : DevEvent) (s : State) : (runDev ev s).cbTable = s.cbTable := rfl
@[simp] theorem runDev_cbSize (ev : DevEvent) (s : State) : (runDev ev s).cbSize = s.cbSize := rfl
@[simp] theorem runDev_bus (ev : DevEvent) (s : State) : (runDev ev s).bus = { s.bus with chip := devStep s.par.cm ev s.bus.chip } := rfl
@[simp] theorem runDev_isrBusy (ev : DevEvent) (s : State) : (runDev ev s).isrBusy = s.isrBusy := rfl
@[simp] theorem runDev_refused (ev : DevEvent) (s : State) : (runDev ev s).refused = s.refused := rfl
@[simp] theorem runDev_out (ev : DevEvent) (s : State) : (runDev ev s).out = s.out := rfl
@[simp] theorem runDev_resp (ev : DevEvent) (s : State) : (runDev ev s).resp = s.resp := rfl
@[simp] theorem runDev_port (ev : DevEvent) (s : State) : (runDev ev s).port = s.port := rfl
@[simp] theorem runDev_agenda (ev : DevEvent) (s : State) : (runDev ev s).agenda = s.agenda := rfl
@[simp] theorem runDev_tick (ev : DevEvent) (s : State) : (runDev ev s).tick = s.tick := rfl

@[simp] theorem portNext_par (item : PortItem) (s : State) : (portNext item s).par = s.par := rfl
@[simp] theorem portNext_ready (item : PortItem) (s : State) : (portNext item s).ready = s.ready := rfl
@[simp] theorem portNext_cfg (item : PortItem) (s : State) : (portNext item s).cfg = s.cfg := rfl
@[simp] theorem portNext_txqSw (item : PortItem) (s : State) : (portNext item s).txqSw = s.txqSw := rfl
@[simp] theorem portNext_rxqSw (item : PortItem) (s : State) : (portNext item s).rxqSw = s.rxqSw := rfl
@[simp] theorem portNext_txHwFull (item : PortItem) (s : State) : (portNext item s).txHwFull = s.txHwFull := rfl
@[simp] theorem portNext_bypassEn (item : PortItem) (s : State) : (portNext item s).bypassEn = s.bypassEn := rfl
@[simp] theorem portNext_cbTable (item : PortItem) (s : State) : (portNext item s).cbTable = s.cbTable := rfl
@[simp] theorem portNext_cbSize (item : PortItem) (s : State) : (portNext item s).cbSize = s.cbSize := rfl
@[simp] theorem portNext_bus (item : PortItem) (s : State) : (portNext item s).bus = s.bus := rfl
@[simp] theorem portNext_isrBusy (item : PortItem) (s : State) : (portNext item s).isrBusy = s.isrBusy := rfl
@[simp] theorem portNext_refused (item : PortItem) (s : State) : (portNext item s).refused = s.refused := rfl
@[simp] theorem portNext_out (item : PortItem) (s : State) : (portNext item s).out = s.out := rfl
@[simp] theorem portNext_resp (item : PortItem) (s : State) : (portNext item s).resp = s.resp := rfl
@[simp] theorem portNext_port (item : PortItem) (s : State) : (portNext item s).port = item :: s.port := rfl
@[simp] theorem portNext_agenda (item : PortItem) (s : State) : (portNext item s).agenda = .fg :: s.agenda := rfl
@[simp] theorem portNext_tick (item : PortItem) (s : State) : (portNext item s).tick = s.tick := rfl

@[simp] theorem assertCs_rate (b : Bus) : (assertCs b).rate = b.rate := rfl
@[simp] theorem assertCs_cs (b : Bus) : (assertCs b).cs = true := rfl
@[simp] theorem assertCs_txnCount (b : Bus) : (assertCs b).txnCount = b.txnCount := rfl
@[simp] theorem assertCs_hist (b : Bus) : (assertCs b).hist = b.hist := rfl
@[simp] theorem assertCs_chip (b : Bus) : (assertCs b).chip = b.chip := rfl

@[simp] theorem releaseCs_rate (b : Bus) (chip : Chip) (ev : BusEvent) : (releaseCs b chip ev).rate = b.rate := rfl
@[simp] theorem releaseCs_cs (b : Bus) (chip : Chip) (ev : BusEvent) : (releaseCs b chip ev).cs = false := rfl
@[simp] theorem releaseCs_txnCount (b : Bus) (chip : Chip) (ev : BusEvent) : (releaseCs b chip ev).txnCount = b.txnCount + 1 := rfl
@[simp] theorem releaseCs_hist (b : Bus) (chip : Chip) (ev : BusEvent) : (releaseCs b chip ev).hist = b.hist ++ [ev] := rfl
@[simp] theorem releaseCs_chip (b : Bus) (chip : Chip) (ev : BusEvent) : (releaseCs b chip ev).chip = chip := rfl

end Sys2Proof.Machine
end

