-- ==== Sys2Proof/Laws/Bus.lean ====
section
/-! SUPPORT. What each access to the bus does, said once: the event it records, the chip after it, and that nothing else
changes (R83 to R90, R104 to R109). -/

namespace Sys2Proof.Machine

theorem cmdAddr_cmdWord (opc : BitVec 4) (a : Nat) : cmdAddr (cmdWord opc a) = addr12 a := cmdWord_addr opc a

theorem txn_rd (P : Params) (is : Issuer) (a : Nat) (w : Width) (b : Bus) :
    txn P is (.rd a w) b =
      ((chipRead P.cm b.hist (addr12 a) w b.chip).1,
        releaseCs b (chipRead P.cm b.hist (addr12 a) w b.chip).2
          ⟨.rd, addr12 a, some (packPayload w (chipRead P.cm b.hist (addr12 a) w b.chip).1), b.rate, is⟩) := by
  simp only [txn, accessCmd, cmdAddr_cmdWord]
  rfl

theorem txn_wr (P : Params) (is : Issuer) (a : Nat) (p : Payload) (b : Bus) :
    txn P is (.wr a p) b =
      (0, releaseCs b (chipWrite P (addr12 a) p b.chip) ⟨.wr, addr12 a, some p, b.rate, is⟩) := by
  simp only [txn, accessCmd, cmdAddr_cmdWord]
  rfl

theorem txn_reset (P : Params) (is : Issuer) (b : Bus) :
    txn P is .reset b = (0, releaseCs b b.chip (evReset b is)) := rfl

theorem memRead32_eq (P : Params) (is : Issuer) (a : Nat) (b : Bus) :
    memRead32 P is a b =
      ((chipRead P.cm b.hist (addr12 a) .four b.chip).1,
        releaseCs b (chipRead P.cm b.hist (addr12 a) .four b.chip).2
          (evRd32 b is a (chipRead P.cm b.hist (addr12 a) .four b.chip).1)) := txn_rd P is a .four b

theorem memRead8_eq (P : Params) (is : Issuer) (a : Nat) (b : Bus) :
    memRead8 P is a b =
      ((chipRead P.cm b.hist (addr12 a) .one b.chip).1.setWidth 8,
        releaseCs b (chipRead P.cm b.hist (addr12 a) .one b.chip).2
          (evRd8 b is a ((chipRead P.cm b.hist (addr12 a) .one b.chip).1.setWidth 8))) := by
  simp only [memRead8, txn_rd]
  rfl

theorem memWrite32_eq (P : Params) (is : Issuer) (a : Nat) (v : Word) (b : Bus) :
    memWrite32 P is a v b = releaseCs b (chipWrite P (addr12 a) (.word v) b.chip) (evWr32 b is a v) := by
  simp only [memWrite32, txn_wr]
  rfl

theorem memWrite8_eq (P : Params) (is : Issuer) (a : Nat) (v : Byte) (b : Bus) :
    memWrite8 P is a v b = releaseCs b (chipWrite P (addr12 a) (.byte v) b.chip) (evWr8 b is a v) := by
  simp only [memWrite8, txn_wr]
  rfl

theorem devReset_eq (P : Params) (is : Issuer) (b : Bus) : devReset P is b = releaseCs b b.chip (evReset b is) := rfl

theorem releaseCs_ran (b : Bus) (chip : Chip) (ev : BusEvent) : RanEvents b (releaseCs b chip ev) [ev] :=
  ⟨rfl, rfl, rfl, rfl⟩

theorem RanEvents.trans {b b' b'' : Bus} {e e' : List BusEvent} (h : RanEvents b b' e) (h' : RanEvents b' b'' e') :
    RanEvents b b'' (e ++ e') := by
  obtain ⟨h1, -, h3, h4⟩ := h
  obtain ⟨g1, g2, g3, g4⟩ := h'
  refine ⟨g1.trans h1, g2, ?_, ?_⟩
  · rw [g3, h3, List.length_append]
    omega
  · rw [g4, h4, List.append_assoc]

theorem memRead32_ran (P : Params) (is : Issuer) (a : Nat) (b : Bus) :
    RanEvents b (memRead32 P is a b).2 [evRd32 b is a (memRead32 P is a b).1] := by
  rw [memRead32_eq]
  exact releaseCs_ran _ _ _

theorem memRead8_ran (P : Params) (is : Issuer) (a : Nat) (b : Bus) :
    RanEvents b (memRead8 P is a b).2 [evRd8 b is a (memRead8 P is a b).1] := by
  rw [memRead8_eq]
  exact releaseCs_ran _ _ _

theorem memWrite32_ran (P : Params) (is : Issuer) (a : Nat) (v : Word) (b : Bus) :
    RanEvents b (memWrite32 P is a v b) [evWr32 b is a v] := by
  rw [memWrite32_eq]
  exact releaseCs_ran _ _ _

theorem memWrite8_ran (P : Params) (is : Issuer) (a : Nat) (v : Byte) (b : Bus) :
    RanEvents b (memWrite8 P is a v b) [evWr8 b is a v] := by
  rw [memWrite8_eq]
  exact releaseCs_ran _ _ _

theorem devReset_ran (P : Params) (is : Issuer) (b : Bus) : RanEvents b (devReset P is b) [evReset b is] := by
  rw [devReset_eq]
  exact releaseCs_ran _ _ _

/-- An event recorded at a bus of the same rate is the same event. -/
theorem evRd32_rate {b b' : Bus} (h : b'.rate = b.rate) (is : Issuer) (a : Nat) (v : Word) :
    evRd32 b' is a v = evRd32 b is a v := by simp [evRd32, h]

theorem evRd8_rate {b b' : Bus} (h : b'.rate = b.rate) (is : Issuer) (a : Nat) (v : Byte) :
    evRd8 b' is a v = evRd8 b is a v := by simp [evRd8, h]

theorem evWr32_rate {b b' : Bus} (h : b'.rate = b.rate) (is : Issuer) (a : Nat) (v : Word) :
    evWr32 b' is a v = evWr32 b is a v := by simp [evWr32, h]

theorem evWr8_rate {b b' : Bus} (h : b'.rate = b.rate) (is : Issuer) (a : Nat) (v : Byte) :
    evWr8 b' is a v = evWr8 b is a v := by simp [evWr8, h]

theorem slot_ran (P : Params) (is : Issuer) (f : Fifo) (b : Bus) :
    RanEvents b (slot P is f b).2
      [evRd32 b is (fifoMap P.cm f).ua.toNat (memRead32 P is (fifoMap P.cm f).ua.toNat b).1] :=
  memRead32_ran _ _ _ _

theorem advance_ran (P : Params) (is : Issuer) (f : Fifo) (b : Bus) :
    RanEvents b (advance P is f b) [evWr8 b is ((fifoMap P.cm f).con.toNat + 1) (fifoMap P.cm f).adv] :=
  memWrite8_ran _ _ _ _ _

theorem setIE_ran (P : Params) (is : Issuer) (f : IeFifo) (on : Bool) (b : Bus) :
    RanEvents b (setIE P is f on b) [evWr8 b is (fifoMap P.cm (ieFifo f)).con.toNat (ieByte P.cm f on)] :=
  memWrite8_ran _ _ _ _ _

theorem notFull_ran (P : Params) (is : Issuer) (f : Fifo) (b : Bus) :
    ∃ st, RanEvents b (notFull P is f b).2 [evRd8 b is (fifoMap P.cm f).sta.toNat st] ∧
      (notFull P is f b).1 = notFullBit P.cm st :=
  ⟨_, memRead8_ran _ _ _ _, rfl⟩

/-- The events of a frame written into a slot (R108). -/
theorem writeObj_ran (P : Params) (is : Issuer) (p : Nat) (o : FrameObj) (b : Bus) :
    RanEvents b (writeObj P is p o b)
      [evWr32 b is p o.w0, evWr32 b is (p + 4) o.w1, evWr32 b is (p + 8) o.w2, evWr32 b is (p + 12) o.w3] := by
  have h0 := memWrite32_ran P is p o.w0 b
  have h1 := memWrite32_ran P is (p + 4) o.w1 (memWrite32 P is p o.w0 b)
  have h01 := h0.trans h1
  have h2 := memWrite32_ran P is (p + 8) o.w2 (memWrite32 P is (p + 4) o.w1 (memWrite32 P is p o.w0 b))
  have h012 := h01.trans h2
  have h3 := memWrite32_ran P is (p + 12) o.w3
    (memWrite32 P is (p + 8) o.w2 (memWrite32 P is (p + 4) o.w1 (memWrite32 P is p o.w0 b)))
  have h := h012.trans h3
  rw [evWr32_rate h0.1, evWr32_rate h01.1, evWr32_rate h012.1] at h
  exact h

/-- The events of a frame read from a slot (R109). -/
theorem readObj_ran (P : Params) (is : Issuer) (p : Nat) (b : Bus) :
    RanEvents b (readObj P is p b).2
      [evRd32 b is p (readObj P is p b).1.w0, evRd32 b is (p + 4) (readObj P is p b).1.w1,
        evRd32 b is (p + 8) (readObj P is p b).1.w2, evRd32 b is (p + 12) (readObj P is p b).1.w3] := by
  have h0 := memRead32_ran P is p b
  have h1 := memRead32_ran P is (p + 4) (memRead32 P is p b).2
  have h01 := h0.trans h1
  have h2 := memRead32_ran P is (p + 8) (memRead32 P is (p + 4) (memRead32 P is p b).2).2
  have h012 := h01.trans h2
  have h3 := memRead32_ran P is (p + 12) (memRead32 P is (p + 8) (memRead32 P is (p + 4) (memRead32 P is p b).2).2).2
  have h := h012.trans h3
  rw [evRd32_rate h0.1, evRd32_rate h01.1, evRd32_rate h012.1] at h
  exact h

/-- `HwWrite` (R108): six transactions, always in this order; `u` is the user-address reading. -/
theorem hwWrite_ran (P : Params) (is : Issuer) (f : Fifo) (fr : Frame) (b : Bus) :
    ∃ u : Word, RanEvents b (hwWrite P is f fr b)
      [evRd32 b is (fifoMap P.cm f).ua.toNat u,
        evWr32 b is (P.cm.uaBase.toNat + u.toNat) (encodeObj P.fl fr).w0,
        evWr32 b is (P.cm.uaBase.toNat + u.toNat + 4) (encodeObj P.fl fr).w1,
        evWr32 b is (P.cm.uaBase.toNat + u.toNat + 8) (encodeObj P.fl fr).w2,
        evWr32 b is (P.cm.uaBase.toNat + u.toNat + 12) (encodeObj P.fl fr).w3,
        evWr8 b is ((fifoMap P.cm f).con.toNat + 1) (fifoMap P.cm f).adv] := by
  refine ⟨(memRead32 P is (fifoMap P.cm f).ua.toNat b).1, ?_⟩
  have h0 := slot_ran P is f b
  have h1 := writeObj_ran P is (slot P is f b).1 (encodeObj P.fl fr) (slot P is f b).2
  have h01 := h0.trans h1
  have h2 := advance_ran P is f (writeObj P is (slot P is f b).1 (encodeObj P.fl fr) (slot P is f b).2)
  have h := h01.trans h2
  rw [evWr8_rate h01.1] at h
  simp only [evWr32_rate h0.1] at h
  exact h

/-- `HwRead` (R109): six transactions, always in this order; the frame is the one decoded from the words read. -/
theorem hwRead_ran (P : Params) (is : Issuer) (b : Bus) :
    ∃ (u : Word) (o : FrameObj), (hwRead P is b).1 = decodeObj P o ∧ RanEvents b (hwRead P is b).2
      [evRd32 b is P.cm.rxf.ua.toNat u,
        evRd32 b is (P.cm.uaBase.toNat + u.toNat) o.w0,
        evRd32 b is (P.cm.uaBase.toNat + u.toNat + 4) o.w1,
        evRd32 b is (P.cm.uaBase.toNat + u.toNat + 8) o.w2,
        evRd32 b is (P.cm.uaBase.toNat + u.toNat + 12) o.w3,
        evWr8 b is (P.cm.rxf.con.toNat + 1) P.cm.rxf.adv] := by
  refine ⟨(memRead32 P is P.cm.rxf.ua.toNat b).1, (readObj P is (slot P is .rxf b).1 (slot P is .rxf b).2).1, rfl, ?_⟩
  have h0 := slot_ran P is .rxf b
  have h1 := readObj_ran P is (slot P is .rxf b).1 (slot P is .rxf b).2
  have h01 := h0.trans h1
  have h2 := advance_ran P is .rxf (readObj P is (slot P is .rxf b).1 (slot P is .rxf b).2).2
  have h := h01.trans h2
  rw [evWr8_rate h01.1] at h
  simp only [evRd32_rate h0.1] at h
  exact h

end Sys2Proof.Machine
end

