-- ==== Sys2Proof/Laws/Queue.lean ====
section
/-! SUPPORT. The queue primitives (R100, R101): what each can do, and that both keep a queue within its bounds. -/

namespace Sys2Proof.Machine

theorem enq_space (q : Queue) (f : Frame) (h : q.items.length < q.cap) :
    enq q f = (true, { q with items := q.items ++ [f], peak := max q.peak (q.items.length + 1) }) := if_pos h

theorem enq_full (q : Queue) (f : Frame) (h : ¬q.items.length < q.cap) : enq q f = (false, q) := if_neg h

theorem enq_cases (q : Queue) (f : Frame) :
    (q.items.length < q.cap ∧
      enq q f = (true, { q with items := q.items ++ [f], peak := max q.peak (q.items.length + 1) })) ∨
    (q.cap ≤ q.items.length ∧ enq q f = (false, q)) := by
  by_cases h : q.items.length < q.cap
  · exact .inl ⟨h, enq_space q f h⟩
  · exact .inr ⟨by omega, enq_full q f h⟩

@[simp] theorem enq_cap (q : Queue) (f : Frame) : (enq q f).2.cap = q.cap := by
  rcases enq_cases q f with ⟨-, h⟩ | ⟨-, h⟩ <;> simp [h]

theorem queueOk_iff (q : Queue) : queueOk q = true ↔ q.items.length ≤ q.peak ∧ q.peak ≤ q.cap := by
  simp [queueOk]

theorem enq_keeps_bounds (q : Queue) (f : Frame) (h : queueOk q = true) : queueOk (enq q f).2 = true := by
  rw [queueOk_iff] at h
  rcases enq_cases q f with ⟨hl, he⟩ | ⟨-, he⟩
  · rw [he, queueOk_iff]
    simp
    omega
  · rw [he, queueOk_iff]
    exact h

theorem deq_cases (q : Queue) :
    (q.items = [] ∧ deq q = none) ∨
    ∃ f rest, q.items = f :: rest ∧ deq q = some (f, { q with items := rest }) := by
  unfold deq
  split
  · exact .inl ⟨by assumption, rfl⟩
  · exact .inr ⟨_, _, by assumption, rfl⟩

theorem deq_keeps_bounds (q q' : Queue) (f : Frame) (hd : deq q = some (f, q')) (h : queueOk q = true) :
    queueOk q' = true ∧ q'.cap = q.cap := by
  rcases deq_cases q with ⟨-, h0⟩ | ⟨g, rest, hi, h1⟩
  · simp [h0] at hd
  · rw [h1] at hd
    obtain ⟨rfl, rfl⟩ := by simpa using hd
    rw [queueOk_iff] at h ⊢
    simp [hi] at h ⊢
    omega

theorem emptyQueue_ok (cap : Nat) : queueOk (emptyQueue cap) = true := by simp [queueOk, emptyQueue]

end Sys2Proof.Machine
end

