-- ==== Sys2Proof/Laws/Meanings.lean ====
section
/-! SUPPORT. What the shared operations behind the meanings can do, said once each: refusals and queue guards (R134), removal
from the receive queue (R114), the programming of filters and enables (R96, R99), the handlers of a pass (R123 to R125), and one
inversion lemma for the step (R52). -/

namespace Sys2Proof.Machine

theorem RanEvents.eq {b b' : Bus} {evs : List BusEvent} (h : RanEvents b b' evs) : b' = afterEvents b b'.chip evs := by
  obtain ⟨h1, h2, h3, h4⟩ := h
  cases b'
  simp only at h1 h2 h3 h4
  simp [afterEvents, h1, h2, h3, h4]

theorem afterEvents_ran (b : Bus) (chip : Chip) (evs : List BusEvent) : RanEvents b (afterEvents b chip evs) evs :=
  ⟨rfl, rfl, rfl, rfl⟩

@[simp] theorem guarded_some (r : Reason) (s : State) (m : Host.Outcome State Fault Refusal) :
    guarded (some r) s m = .next (raiseRefused r s) := rfl

@[simp] theorem guarded_none (s : State) (m : Host.Outcome State Fault Refusal) : guarded none s m = m := rfl

@[simp] theorem withQueue_some (q : Queue) (m : Queue → Host.Outcome State Fault Refusal) : withQueue (some q) m = m q := rfl

@[simp] theorem withQueue_none (m : Queue → Host.Outcome State Fault Refusal) :
    withQueue none m = .fault .queueAbsent := rfl

/-- A guarded meaning either refuses or is the meaning. -/
theorem guarded_next {reason : Option Reason} {s t : State} {m : Host.Outcome State Fault Refusal}
    (h : guarded reason s m = .next t) : (∃ r, reason = some r ∧ t = raiseRefused r s) ∨ (reason = none ∧ m = .next t) := by
  cases reason with
  | none => exact .inr ⟨rfl, h⟩
  | some r => exact .inl ⟨r, rfl, (Host.Outcome.next.inj h).symm⟩

/-- A meaning on a queue answers a next state only where the queue exists. -/
theorem withQueue_next {q : Option Queue} {t : State} {m : Queue → Host.Outcome State Fault Refusal}
    (h : withQueue q m = .next t) : ∃ x, q = some x ∧ m x = .next t := by
  cases q with
  | none => cases h
  | some x => exact ⟨x, rfl, h⟩

theorem readyGate_ready {ready : Bool} (h : ready = true) : readyGate ready = none := by simp [readyGate, h]

theorem readyGate_notReady {ready : Bool} (h : ready = false) : readyGate ready = some .notReady := by simp [readyGate, h]

theorem queueFull_iff (q : Queue) : queueFull q = true ↔ q.items.length = q.cap := by simp [queueFull]

/-- What `RECV` and `DISPATCH` take (R114): nothing from an empty queue; else the head, with one write when it was full. -/
theorem takeRx_cases (q : Queue) (s : State) :
    (q.items = [] ∧ takeRx q s = none) ∨
    ∃ f rest, q.items = f :: rest ∧
      takeRx q s = some (f, { s with
        rxqSw := some { q with items := rest }
        bus := if q.items.length = q.cap then setIE s.par .fg .rxf true s.bus else s.bus }) := by
  rcases deq_cases q with ⟨hi, hd⟩ | ⟨f, rest, hi, hd⟩
  · exact .inl ⟨hi, by simp [takeRx, hd]⟩
  · exact .inr ⟨f, rest, hi, by simp only [takeRx, hd, queueFull, beq_iff_eq]⟩

theorem programFilter_ran (P : Params) (k : Nat) (f : FilterEntry) (b : Bus) :
    RanEvents b (programFilter P k f b) (filterEvents P.cm b f k) := by
  have h0 := memWrite32_ran P .fg (fltMaskAddr P.cm k) f.mask b
  have h1 := memWrite32_ran P .fg (fltObjAddr P.cm k) f.acc (memWrite32 P .fg (fltMaskAddr P.cm k) f.mask b)
  have h01 := h0.trans h1
  have h2 := memWrite8_ran P .fg (fltConAddr P.cm k) (filterControl P.cm)
    (memWrite32 P .fg (fltObjAddr P.cm k) f.acc (memWrite32 P .fg (fltMaskAddr P.cm k) f.mask b))
  have h := h01.trans h2
  rw [evWr32_rate h0.1, evWr8_rate h01.1] at h
  exact h

/-- The transactions of `programFilters` (R96), in list order from slot `k` on. -/
theorem programFilters_ran (P : Params) (fs : List FilterEntry) (k : Nat) (b b0 : Bus) (hr : b.rate = b0.rate)
    (hc : fs = [] → b.cs = false) :
    RanEvents b (programFilters P k fs b)
      (((List.range' k fs.length).zip fs).flatMap fun kf => filterEvents P.cm b0 kf.2 kf.1) := by
  induction fs generalizing k b with
  | nil => exact ⟨rfl, hc rfl, by simp [programFilters], by simp [programFilters]⟩
  | cons f rest ih =>
    have h0 := programFilter_ran P k f b
    have h1 := ih (k + 1) (programFilter P k f b) (h0.1.trans hr) (fun _ => h0.2.1)
    have h := h0.trans h1
    have he : filterEvents P.cm b f k = filterEvents P.cm b0 f k := by simp [filterEvents, evWr32, evWr8, hr]
    rw [he] at h
    simpa [programFilters, List.range'_succ] using h

/-- The transactions of `programEnables` (R99). -/
theorem programEnables_ran (P : Params) (b : Bus) :
    RanEvents b (programEnables P b)
      [evWr8 b .fg P.cm.rxf.con.toNat P.cm.ieOnRxf, evWr8 b .fg P.cm.txf.con.toNat P.cm.ieOffTxf,
        evWr8 b .fg P.cm.aIntIe.toNat P.cm.vIntIe] := by
  have h0 := setIE_ran P .fg .rxf true b
  have h1 := setIE_ran P .fg .txf false (setIE P .fg .rxf true b)
  have h01 := h0.trans h1
  have h2 := memWrite8_ran P .fg P.cm.aIntIe.toNat P.cm.vIntIe (setIE P .fg .txf false (setIE P .fg .rxf true b))
  have h := h01.trans h2
  rw [evWr8_rate h0.1, evWr8_rate h01.1] at h
  exact h

theorem frameWriteEvents_rate {b b' : Bus} (h : b'.rate = b.rate) (m : ChipMap) (is : Issuer) (f : Fifo) (u : Word)
    (o : FrameObj) : frameWriteEvents m b' is f u o = frameWriteEvents m b is f u o := by
  simp [frameWriteEvents, evRd32, evWr32, evWr8, h]

theorem frameReadEvents_rate {b b' : Bus} (h : b'.rate = b.rate) (m : ChipMap) (is : Issuer) (u : Word) (o : FrameObj) :
    frameReadEvents m b' is u o = frameReadEvents m b is u o := by
  simp [frameReadEvents, evRd32, evWr8, h]

/-- The receive handler does what R123 allows, in exactly its transactions. -/
theorem rxHandler_drained (P : Params) (st : Word) (q : Queue) (b b0 : Bus) (hr : b.rate = b0.rate) (hc : b.cs = false) :
    ∃ evs, RxDrained P b0 st q (rxHandler P st q b).1 evs ∧ RanEvents b (rxHandler P st q b).2 evs := by
  unfold rxHandler RxDrained
  cases hb : st.getLsbD P.cm.bRxne.val with
  | false => exact ⟨[], by simp, rfl, hc, rfl, by simp⟩
  | true =>
    simp only [if_true, Bool.true_eq_false, if_false]
    unfold rxDrain
    by_cases hf : q.items.length = q.cap
    · have hq : queueFull q = true := (queueFull_iff q).2 hf
      simp only [hq, if_true, hf]
      refine ⟨_, ⟨trivial, rfl⟩, ?_⟩
      have h := setIE_ran P .isr .rxf false b
      rw [evWr8_rate hr] at h
      exact h
    · have hq : queueFull q = false := by simpa [queueFull] using hf
      simp only [hq, Bool.false_eq_true, if_false, hf]
      obtain ⟨u, o, hdec, hran⟩ := hwRead_ran P .isr b
      rw [show ([evRd32 b .isr P.cm.rxf.ua.toNat u, _, _, _, _, _] : List BusEvent) = frameReadEvents P.cm b .isr u o
        from rfl, frameReadEvents_rate hr] at hran
      rw [hdec]
      by_cases hf' : queueFull (enq q (decodeObj P o)).2 = true
      · have hl := (queueFull_iff _).1 hf'
        have hs := setIE_ran P .isr .rxf false (hwRead P .isr b).2
        rw [evWr8_rate (hran.1.trans hr)] at hs
        simp only [hf', if_true]
        refine ⟨_, ⟨u, o, rfl, rfl⟩, ?_⟩
        simp only [hl, if_true]
        exact hran.trans hs
      · have hl : ¬(enq q (decodeObj P o)).2.items.length = (enq q (decodeObj P o)).2.cap :=
          fun h => hf' ((queueFull_iff _).2 h)
        simp only [hf', Bool.false_eq_true, if_false]
        exact ⟨_, ⟨u, o, rfl, rfl⟩, by simpa only [hl, if_false, List.append_nil] using hran⟩

/-- The transmit handler does what R124 allows, in exactly its transactions. -/
theorem txHandler_drained (P : Params) (st : Word) (q : Queue) (full : Bool) (b b0 : Bus) (hr : b.rate = b0.rate)
    (hc : b.cs = false) :
    ∃ evs, TxDrained P b0 st q (txHandler P st q full b).1 full (txHandler P st q full b).2.1 evs ∧
      RanEvents b (txHandler P st q full b).2.2 evs := by
  unfold txHandler TxDrained
  cases hb : st.getLsbD P.cm.bTxnf.val with
  | false => exact ⟨[], by simp, rfl, hc, rfl, by simp⟩
  | true =>
    simp only [if_true, Bool.true_eq_false, if_false]
    unfold txDrain
    rcases deq_cases q with ⟨hi, hd⟩ | ⟨f, rest, hi, hd⟩
    · simp only [hd, hi]
      refine ⟨_, ⟨trivial, trivial, rfl⟩, ?_⟩
      have h := setIE_ran P .isr .txf false b
      rw [evWr8_rate hr] at h
      exact h
    · simp only [hd, hi]
      obtain ⟨u, hran⟩ := hwWrite_ran P .isr .txf f b
      rw [show ([evRd32 b .isr (fifoMap P.cm .txf).ua.toNat u, _, _, _, _, _] : List BusEvent) =
        frameWriteEvents P.cm b .isr .txf u (encodeObj P.fl f) from rfl, frameWriteEvents_rate hr] at hran
      exact ⟨_, ⟨u, trivial, trivial, rfl⟩, hran⟩

/-- The acknowledgements, in order (R125). -/
theorem ackAll_ran (P : Params) (bits : List (Fin 32)) (b b0 : Bus) (hr : b.rate = b0.rate) (hc : b.cs = false) :
    RanEvents b (ackAll P bits b)
      (bits.map fun i => evWr8 b0 .isr (ackAddr P.cm i) (ackByte P.ackMode (i.val % 8))) := by
  induction bits generalizing b with
  | nil => exact ⟨rfl, hc, rfl, by simp [ackAll]⟩
  | cons i rest ih =>
    have h0 := memWrite8_ran P .isr (ackAddr P.cm i) (ackByte P.ackMode (i.val % 8)) b
    have h := h0.trans (ih (ack P i b) (h0.1.trans hr) h0.2.1)
    rw [evWr8_rate hr] at h
    exact h

/-- What one step can do (R52): a turn of the environment; a turn that passes; a pass; a request delivered; a reserved code
refused. -/
theorem step_next_cases {s t : State} (h : step s = .next t) :
    (∃ ev, (nextTurn s).1 = .dev ev ∧ t = runDev ev (nextTurn s).2) ∨
    (t = (nextTurn s).2) ∨
    ((nextTurn s).1 = .isr ∧ isrEligible (nextTurn s).2 = true ∧ exec .irq (nextTurn s).2 = .next t) ∨
    (∃ item rest i, s.port = item :: rest ∧ decode item = .ok i ∧ exec i { (nextTurn s).2 with port := rest } = .next t) ∨
    (∃ item rest, s.port = item :: rest ∧ decode item = .error .reservedCode ∧
      t = raiseRefused .reservedCode { (nextTurn s).2 with port := rest }) := by
  have hp : (nextTurn s).2.port = s.port := by
    unfold nextTurn
    split <;> rfl
  unfold step runTurn at h
  split at h
  · rename_i ht
    unfold stepFg fetch at h
    rw [hp] at h
    split at h
    · exact .inr (.inl (Host.Outcome.next.inj h).symm)
    · rename_i i s' hf
      cases hport : s.port with
      | nil => simp [hport] at hf
      | cons item rest =>
        simp only [hport, Option.some.injEq, Prod.mk.injEq] at hf
        obtain ⟨hd, rfl⟩ := hf
        exact .inr (.inr (.inr (.inl ⟨item, rest, i, rfl, hd, h⟩)))
    · rename_i why s' hf
      cases hport : s.port with
      | nil => simp [hport] at hf
      | cons item rest =>
        simp only [hport, Option.some.injEq, Prod.mk.injEq] at hf
        obtain ⟨hd, rfl⟩ := hf
        cases why with
        | reservedCode => exact .inr (.inr (.inr (.inr ⟨item, rest, rfl, hd, (Host.Outcome.next.inj h).symm⟩)))
        | emptyRequest => cases h
        | wrongLength m => cases h
        | notEmitted c => cases h
        | badBracket => cases h
  · rename_i ht
    unfold stepIsr at h
    split at h
    · rename_i he
      exact .inr (.inr (.inl ⟨ht, he, h⟩))
    · exact .inr (.inl (Host.Outcome.next.inj h).symm)
  · rename_i ev ht
    exact .inl ⟨ev, ht, (Host.Outcome.next.inj h).symm⟩

/-- Choosing who moves changes the scheduler's fields alone. -/
theorem nextTurn_frame (s : State) :
    ∃ ag tk, (nextTurn s).2 = { s with agenda := ag, tick := tk } := by
  unfold nextTurn
  split
  · exact ⟨_, _, rfl⟩
  · exact ⟨s.agenda, s.tick + 1, rfl⟩

end Sys2Proof.Machine
end

