-- ==== Sys2Proof/Laws/Memory.lean ====
section
/-! SUPPORT. The plain memory of `ENV_REF` (R59): a read after a write, and that writes keep the canonical form. -/

namespace Sys2Proof.Machine

theorem memWfAbove_mono {w : Nat} {lo lo' : Nat} (m : Memory w) (hlo : lo' ≤ lo) (h : memWfAbove lo m = true) :
    memWfAbove lo' m = true := by
  cases m with
  | nil => rfl
  | cons e rest =>
    obtain ⟨k, v⟩ := e
    simp only [memWfAbove, Bool.and_eq_true, decide_eq_true_eq, bne_iff_ne, ne_eq] at h ⊢
    exact ⟨⟨by omega, h.1.2⟩, h.2⟩

theorem memWfAbove_memSet {w : Nat} (m : Memory w) (lo a : Nat) (v : BitVec w) (ha : lo < a)
    (h : memWfAbove lo m = true) : memWfAbove lo (memSet m a v) = true := by
  induction m generalizing lo with
  | nil =>
    unfold memSet
    split <;> simp_all [memWfAbove]
  | cons e rest ih =>
    obtain ⟨k, x⟩ := e
    simp only [memWfAbove, Bool.and_eq_true, decide_eq_true_eq, bne_iff_ne, ne_eq] at h
    unfold memSet
    by_cases hak : a < k
    · by_cases hv : v = 0 <;> simp_all [memWfAbove]
    · by_cases he : a = k
      · by_cases hv : v = 0
        · simp only [he, hv, if_true, if_false, lt_irrefl]
          exact memWfAbove_mono rest (by omega) h.2
        · simp_all [memWfAbove]
      · simp only [hak, he, if_false]
        simp only [memWfAbove, Bool.and_eq_true, decide_eq_true_eq, bne_iff_ne, ne_eq]
        exact ⟨h.1, ih k (by omega) h.2⟩

theorem Memory.wf_eq {w : Nat} (m : Memory w) : m.wf = true ↔ m = [] ∨ ∃ k v rest, m = (k, v) :: rest ∧ v ≠ 0 ∧
    memWfAbove k rest = true := by
  cases m with
  | nil => simp [Memory.wf]
  | cons e rest =>
    obtain ⟨k, v⟩ := e
    simp [Memory.wf]

/-- Every memory write keeps the canonical form. -/
theorem memSet_keeps_wf {w : Nat} (m : Memory w) (a : Nat) (v : BitVec w) (h : m.wf = true) :
    (memSet m a v).wf = true := by
  cases m with
  | nil =>
    unfold memSet
    split <;> simp_all [Memory.wf, memWfAbove]
  | cons e rest =>
    obtain ⟨k, x⟩ := e
    simp only [Memory.wf, Bool.and_eq_true, bne_iff_ne, ne_eq] at h
    unfold memSet
    by_cases hak : a < k
    · by_cases hv : v = 0 <;> simp_all [Memory.wf, memWfAbove]
    · by_cases he : a = k
      · by_cases hv : v = 0
        · simp only [he, hv, if_true, if_false, lt_irrefl]
          cases rest with
          | nil => rfl
          | cons e' rest' =>
            obtain ⟨k', v'⟩ := e'
            simp_all [Memory.wf, memWfAbove]
        · simp_all [Memory.wf]
      · simp only [hak, he, if_false]
        simp only [Memory.wf, Bool.and_eq_true, bne_iff_ne, ne_eq]
        exact ⟨h.1, memWfAbove_memSet rest k a v (by omega) h.2⟩

theorem memGet_above {w : Nat} (m : Memory w) (lo a : Nat) (h : memWfAbove lo m = true) (ha : a ≤ lo) :
    memGet m a = 0 := by
  induction m generalizing lo with
  | nil => rfl
  | cons e rest ih =>
    obtain ⟨k, v⟩ := e
    simp only [memWfAbove, Bool.and_eq_true, decide_eq_true_eq, bne_iff_ne, ne_eq] at h
    unfold memGet
    rw [if_neg (by omega)]
    exact ih k h.2 (by omega)

/-- A read after a write to another address gives what it gave before. -/
theorem memGet_memSet_other {w : Nat} (m : Memory w) (a b : Nat) (v : BitVec w) (h : b ≠ a) :
    memGet (memSet m a v) b = memGet m b := by
  induction m with
  | nil =>
    unfold memSet
    split <;> simp [memGet, Ne.symm h]
  | cons e rest ih =>
    obtain ⟨k, x⟩ := e
    unfold memSet
    split
    · split
      · rfl
      · simp [memGet, Ne.symm h]
    · split
      · rename_i hk
        subst hk
        split <;> simp [memGet, Ne.symm h]
      · simp only [memGet, ih]

theorem memGet_memSet_same_above {w : Nat} (m : Memory w) (lo a : Nat) (v : BitVec w) (h : memWfAbove lo m = true) :
    memGet (memSet m a v) a = v := by
  induction m generalizing lo with
  | nil =>
    unfold memSet
    split <;> simp_all [memGet]
  | cons e rest ih =>
    obtain ⟨k, x⟩ := e
    simp only [memWfAbove, Bool.and_eq_true, decide_eq_true_eq, bne_iff_ne, ne_eq] at h
    unfold memSet
    split
    · split
      · rename_i hak hv
        rw [hv]
        unfold memGet
        rw [if_neg (by omega)]
        exact memGet_above rest k a h.2 (by omega)
      · simp [memGet]
    · split
      · rename_i hk
        subst hk
        split
        · rename_i hv
          rw [hv]
          exact memGet_above rest a a h.2 (by omega)
        · simp [memGet]
      · rename_i hne
        unfold memGet
        rw [if_neg (fun h' => hne h'.symm)]
        exact ih k h.2

/-- A read after a write to the same address gives the value written. -/
theorem memGet_memSet_same {w : Nat} (m : Memory w) (a : Nat) (v : BitVec w) (h : m.wf = true) :
    memGet (memSet m a v) a = v := by
  cases m with
  | nil => unfold memSet; split <;> simp_all [memGet]
  | cons e rest =>
    obtain ⟨k, x⟩ := e
    simp only [Memory.wf, Bool.and_eq_true, bne_iff_ne, ne_eq] at h
    by_cases hk : k = 0
    · subst hk
      unfold memSet
      split
      · omega
      · split
        · rename_i ha
          subst ha
          split
          · rename_i hv
            rw [hv]
            exact memGet_above rest 0 0 h.2 (le_refl _)
          · simp [memGet]
        · rename_i hne
          unfold memGet
          rw [if_neg (fun h' => hne h'.symm)]
          exact memGet_memSet_same_above rest 0 a v h.2
    · exact memGet_memSet_same_above _ (k - 1) a v (by
        simp only [memWfAbove, Bool.and_eq_true, decide_eq_true_eq, bne_iff_ne, ne_eq]
        exact ⟨⟨by omega, h.1⟩, h.2⟩)

/-- Every write of `ENV_REF` keeps its memories canonical. -/
theorem chipWrite_keeps_memories (P : Params) (a : Addr) (p : Payload) (c : Chip) (h : chipMemOk c = true) :
    chipMemOk (chipWrite P a p c) = true := by
  cases c with
  | free fc => exact h
  | ref e =>
    simp only [chipMemOk, Bool.and_eq_true] at h
    cases p with
    | word v =>
      simp only [chipWrite, chipMemOk, envWrite32, Bool.and_eq_true]
      exact ⟨memSet_keeps_wf _ _ _ h.1, h.2⟩
    | byte v =>
      simp only [chipWrite, chipMemOk, envWrite8, Bool.and_eq_true]
      exact ⟨h.1, memSet_keeps_wf _ _ _ h.2⟩

/-- A read changes no memory of the environment. -/
theorem chipRead_keeps_memories (m : ChipMap) (hist : List BusEvent) (a : Addr) (w : Width) (c : Chip)
    (h : chipMemOk c = true) : chipMemOk (chipRead m hist a w c).2 = true := by
  cases c with
  | free fc => rfl
  | ref e => cases w <;> exact h

/-- A step of the environment changes no memory. -/
theorem devStep_keeps_memories (m : ChipMap) (ev : DevEvent) (c : Chip) (h : chipMemOk c = true) :
    chipMemOk (devStep m ev c) = true := by
  cases c with
  | free fc => cases ev <;> rfl
  | ref e =>
    cases ev with
    | arrive o =>
      simp only [devStep, envArrive]
      split <;> exact h
    | transmit f => cases f <;> exact h
    | raiseStatus b =>
      simp only [devStep, envRaise]
      split <;> exact h
    | setInt b => exact h

/-- Core reset has its memories in canonical form. -/
theorem reset_memories_ok : chipMemOk State.reset.bus.chip = true := rfl

end Sys2Proof.Machine
end

