-- ==== Sys2Proof/Laws/Params.lean ====
section
/-! SUPPORT. What the constraints on a chip map say (R31). -/

namespace Sys2Proof.Machine

/-- The constraints of R31, one by one. -/
theorem constraintsHold_spec {m : ChipMap} (h : m.constraintsHold = true) :
    (0x400 ≤ m.aScratch.toNat ∧ m.aScratch.toNat < 0xC00) ∧
      (m.fltMask0.toNat = m.fltObj0.toNat + 4 ∨ m.fltObj0.toNat = m.fltMask0.toNat + 4) ∧
      [m.bTbc, m.bMod, m.bSerr, m.bBuserr].Nodup ∧
      ∀ b ∈ [m.bTbc, m.bMod, m.bSerr, m.bBuserr], b ≠ m.bRxne ∧ b ≠ m.bTxnf := by
  simpa only [ChipMap.constraintsHold, Bool.and_eq_true, decide_eq_true_eq, List.all_eq_true, bne_iff_ne, and_assoc] using h

/-- A status bit is none of the two FIFO bits (R31). -/
theorem statusBit_ne_fifoBits {m : ChipMap} {b : Fin 32} (h : m.constraintsHold = true) (hb : isStatusBit m b = true) :
    b ≠ m.bRxne ∧ b ≠ m.bTxnf := by
  refine (constraintsHold_spec h).2.2.2 b ?_
  simpa [isStatusBit, or_assoc] using hb

end Sys2Proof.Machine
end

