-- ==== Sys2Proof/Laws/PerInstr.lean ====
section
/-! SUPPORT. Per instruction: the decoder reads back what the encoder writes (R60 to R68). -/

namespace Sys2Proof

theorem decodeEntries_encode (es : List FilterOperand) : decodeEntries (encodeEntries es) = some es := by
  induction es with
  | nil => rfl
  | cons e es ih =>
    obtain ⟨acc, mask, cb⟩ := e
    simp only [encodeEntries, Machine.bytesLe4, Machine.bytesLe2, List.cons_append, List.nil_append, decodeEntries, ih,
      Option.map_some, Machine.fromLe4_bytes, Machine.fromLe2_bytes]

theorem decodeConf_encode (c : ConfOperand) (h : c.wellFormed = true) : decodeConf (encodeConf c) = some c := by
  have hc : c.entries.length = filterCount c.nflt := by simpa [ConfOperand.wellFormed] using h
  simp only [encodeConf, Machine.bytesLe2, List.cons_append, List.nil_append, decodeConf, decodeEntries_encode,
    Machine.fromLe2_bytes, hc, if_true]

theorem decodeFrame_encode (f : FrameOperand) : decodeFrame (encodeFrame f) = some f := by
  simp only [encodeFrame, encodeData, Machine.bytesLe4, List.cons_append, List.nil_append, decodeFrame,
    Machine.fromLe4_bytes]

theorem decodeWire_cmd (c : BitVec 16) (payload : List Byte) :
    decodeWire (Machine.cmdBytes c ++ payload) = decodeCommand c payload := by
  simp only [Machine.cmdBytes, List.cons_append, List.nil_append, decodeWire, Machine.cmd_of_bytes]

theorem decodeCommand_write (a : Nat) (p : Payload) :
    decodeCommand (Machine.cmdWord Machine.opcWrite a) (Machine.payloadBytes p) = .ok (.write (Machine.addr12 a) p) := by
  have hz : Machine.cmdWord Machine.opcWrite a ≠ 0 := Machine.cmdWord_ne_zero _ _ (by decide)
  cases p <;>
    simp only [decodeCommand, hz, if_false, Machine.cmdWord_opcode, if_true, Machine.payloadBytes, Machine.bytesLe4,
      Machine.cmdWord_addr, Machine.fromLe4_bytes]

theorem decodeCommand_read (a : Nat) (w : Width) (payload : List Byte) (h : payload.length = Machine.widthBytes w) :
    decodeCommand (Machine.cmdWord Machine.opcRead a) payload = .ok (.read (Machine.addr12 a) w) := by
  have hz : Machine.cmdWord Machine.opcRead a ≠ 0 := Machine.cmdWord_ne_zero _ _ (by decide)
  have hne : Machine.opcRead ≠ Machine.opcWrite := by decide
  cases w with
  | four =>
    match payload, h with
    | [_, _, _, _], _ =>
      simp only [decodeCommand, hz, if_false, Machine.cmdWord_opcode, hne, if_true, Machine.cmdWord_addr]
  | one =>
    match payload, h with
    | [_], _ =>
      simp only [decodeCommand, hz, if_false, Machine.cmdWord_opcode, hne, if_true, Machine.cmdWord_addr]

/-- Decoding the encoding of a well-formed instruction gives it back. -/
def Laws.RoundTrip.Statement (i : Instr) : Prop :=
  i.wellFormed = true → ∀ item, encode i = some item → decode item = .ok i

theorem Laws.RoundTrip.write (addr : Addr) (p : Payload) : Laws.RoundTrip.Statement (.write addr p) := by
  intro _ item h
  obtain rfl := Option.some.inj h
  simp only [decode, decodeWire_cmd, decodeCommand_write, Machine.addr12_toNat]

theorem Laws.RoundTrip.read (addr : Addr) (w : Width) : Laws.RoundTrip.Statement (.read addr w) := by
  intro _ item h
  obtain rfl := Option.some.inj h
  simp only [decode, decodeWire_cmd, decodeCommand_read _ w _ List.length_replicate, Machine.addr12_toNat]

theorem Laws.RoundTrip.reset : Laws.RoundTrip.Statement .reset := by
  rintro _ item h
  obtain rfl := Option.some.inj h
  rfl

theorem Laws.RoundTrip.rd32 (addr : Half) : Laws.RoundTrip.Statement (.rd32 addr) := by
  intro _ item h
  obtain rfl := Option.some.inj h
  exact congrArg (fun a => Except.ok (Instr.rd32 a)) (Machine.fromLe2_bytes addr)

theorem Laws.RoundTrip.wr32 (addr : Half) (v : Word) : Laws.RoundTrip.Statement (.wr32 addr v) := by
  intro _ item h
  obtain rfl := Option.some.inj h
  exact congrArg₂ (fun a v => Except.ok (Instr.wr32 a v)) (Machine.fromLe2_bytes addr) (Machine.fromLe4_bytes v)

theorem Laws.RoundTrip.rd8 (addr : Half) : Laws.RoundTrip.Statement (.rd8 addr) := by
  intro _ item h
  obtain rfl := Option.some.inj h
  exact congrArg (fun a => Except.ok (Instr.rd8 a)) (Machine.fromLe2_bytes addr)

theorem Laws.RoundTrip.wr8 (addr : Half) (v : Byte) : Laws.RoundTrip.Statement (.wr8 addr v) := by
  intro _ item h
  obtain rfl := Option.some.inj h
  exact congrArg (fun a => Except.ok (Instr.wr8 a v)) (Machine.fromLe2_bytes addr)

theorem Laws.RoundTrip.devreset : Laws.RoundTrip.Statement .devreset := by
  rintro _ item h
  obtain rfl := Option.some.inj h
  rfl

theorem Laws.RoundTrip.setrate (rate : Byte) : Laws.RoundTrip.Statement (.setrate rate) := by
  rintro _ item h
  obtain rfl := Option.some.inj h
  rfl

theorem Laws.RoundTrip.readerr : Laws.RoundTrip.Statement .readerr := by
  rintro _ item h
  obtain rfl := Option.some.inj h
  rfl

theorem Laws.RoundTrip.configure (conf : ConfOperand) : Laws.RoundTrip.Statement (.configure conf) := by
  intro hw item h
  obtain rfl := Option.some.inj h
  have hd := decodeConf_encode conf hw
  exact (by rw [hd] : (match decodeConf (encodeConf conf) with
    | some c => Except.ok (Instr.configure c)
    | none => (.error (.wrongLength "CONFIGURE") : Except Reject Instr)) = .ok (.configure conf))

theorem Laws.RoundTrip.trysend (f : FrameOperand) : Laws.RoundTrip.Statement (.trysend f) := by
  intro _ item h
  obtain rfl := Option.some.inj h
  have hd := decodeFrame_encode f
  exact (by rw [hd] : (match decodeFrame (encodeFrame f) with
    | some f => Except.ok (Instr.trysend f)
    | none => (.error (.wrongLength "TRYSEND") : Except Reject Instr)) = .ok (.trysend f))

theorem Laws.RoundTrip.avail : Laws.RoundTrip.Statement .avail := by
  rintro _ item h
  obtain rfl := Option.some.inj h
  rfl

theorem Laws.RoundTrip.recv : Laws.RoundTrip.Statement .recv := by
  rintro _ item h
  obtain rfl := Option.some.inj h
  rfl

theorem Laws.RoundTrip.dispatch (obs : Byte) : Laws.RoundTrip.Statement (.dispatch obs) := by
  rintro _ item h
  obtain rfl := Option.some.inj h
  rfl

theorem Laws.RoundTrip.txqSize : Laws.RoundTrip.Statement .txqSize := by
  rintro _ item h
  obtain rfl := Option.some.inj h
  rfl

theorem Laws.RoundTrip.txqCount : Laws.RoundTrip.Statement .txqCount := by
  rintro _ item h
  obtain rfl := Option.some.inj h
  rfl

theorem Laws.RoundTrip.txqPeak : Laws.RoundTrip.Statement .txqPeak := by
  rintro _ item h
  obtain rfl := Option.some.inj h
  rfl

/-- The service pass has no byte form (R121). -/
theorem Laws.RoundTrip.irq : Laws.RoundTrip.Statement .irq := by
  rintro _ item h
  cases h

end Sys2Proof
end

