-- ==== Sys2Proof/Machine/Assembly.lean ====
section
/-! DEFINITION. The program notation (R70): one request a line. No step reads it. -/

namespace Sys2Proof.Machine

/-- The opening curly bracket of the notation. -/
def openCurly : String := String.singleton (Char.ofNat 123)

/-- The closing curly bracket of the notation. -/
def closeCurly : String := String.singleton (Char.ofNat 125)

/-- A number operand, in decimal. -/
def asmNum {w : Nat} (v : BitVec w) : String := toString v.toNat

/-- A flag operand, `0` or `1`. -/
def asmFlag (b : Bool) : String := if b then "1" else "0"

/-- The data bytes of a frame. -/
def asmData (d : Bytes8) : String :=
  "[" ++ String.intercalate "," ([d.b0, d.b1, d.b2, d.b3, d.b4, d.b5, d.b6, d.b7].map asmNum) ++ "]"

/-- A filter entry of `configure`. -/
def asmFilter (e : FilterOperand) : String :=
  "(" ++ asmNum e.acc ++ ", " ++ asmNum e.mask ++ ", " ++ (if e.cb = 0xFFFF then "none" else asmNum e.cb) ++ ")"

/-- The filter list of `configure`. -/
def asmFilters (c : ConfOperand) : String :=
  if c.nflt = 0xFF then "default" else "[" ++ String.intercalate ", " (c.entries.map asmFilter) ++ "]"

/-- One line of a program (R70); `none` for the wire commands, which the notation has no line for. -/
def asmLine : Instr → Option String
  | .write _ _ => none
  | .read _ _ => none
  | .reset => none
  | .rd32 a => some ("rd32 " ++ asmNum a)
  | .wr32 a v => some ("wr32 " ++ asmNum a ++ ", " ++ asmNum v)
  | .rd8 a => some ("rd8 " ++ asmNum a)
  | .wr8 a v => some ("wr8 " ++ asmNum a ++ ", " ++ asmNum v)
  | .devreset => some "devreset"
  | .setrate r => some ("setrate " ++ if r = 0 then "slow" else if r = 1 then "fast" else asmNum r)
  | .readerr => some "readerr"
  | .configure c =>
    some ("configure " ++ openCurly ++ " txcap=" ++ asmNum c.txCap ++ ", rxcap=" ++ asmNum c.rxCap ++ ", bypass=" ++
      asmNum c.bypass ++ ", filters=" ++ asmFilters c ++ " " ++ closeCurly)
  | .trysend f =>
    some ("trysend " ++ openCurly ++ " id=" ++ asmNum f.id ++ ", ext=" ++ asmFlag (f.flags.getLsbD 0) ++ ", rtr=" ++
      asmFlag (f.flags.getLsbD 1) ++ ", len=" ++ asmNum f.len ++ ", data=" ++ asmData f.data ++ ", idx=" ++ asmNum f.idx ++
      " " ++ closeCurly)
  | .avail => some "avail"
  | .recv => some "recv"
  | .dispatch o => some ("dispatch " ++ asmNum o)
  | .txqSize => some "txqsize"
  | .txqCount => some "txqcount"
  | .txqPeak => some "txqpeak"
  | .irq => some "irq"

end Sys2Proof.Machine
end

