-- ==== Sys2Proof/Tests/Slice0.lean ====
section
/-! SUPPORT. Tests: ill-formed terms refused, words written out from the encoding (95 section 2.1), one-step vectors of 95
(the vector is named in each docstring), and for each statement with hypotheses a concrete case that meets them. -/

namespace Sys2Proof.Machine

/-! ### Helpers -/

/-- The core right after reset, as the instance of the vectors, with the given chip. -/
def tState (chip : Chip) : State :=
  { State.reset with par := paramsRef, bus := ⟨.slow, false, 0, [], chip⟩ }

/-- A free chip that gives these answers. -/
def tFree (answers : List Word) : Chip := .free ⟨answers, 0, true⟩

/-- `configure` with the default filter list: capacities and the bypass byte. -/
def tConf (t r : Half) (b : Byte) : ConfOperand := ⟨t, r, b, 0xFF, []⟩

/-- The two filters of V-CFG-2. -/
def tConf2 : ConfOperand := ⟨8, 4, 0, 2, [⟨0x123, 0x7FF, 0x0011⟩, ⟨0x456, 0x7FF, 0xFFFF⟩]⟩

/-- "After `CONFIGURE`" (95 section 0): configured, with the log cleared and the given chip. -/
def tReady (c : ConfOperand) (chip : Chip) : State :=
  { configured (cfgOf c) (tState chip) with bus := ⟨.slow, false, 0, [], chip⟩ }

/-- A fresh `ENV_REF` with sizes 4, 4, 1. -/
def tEnv : EnvRef := envFresh 4 4 1

/-- Configured under a fresh `ENV_REF`, with the log of `CONFIGURE` kept. -/
def tLive (c : ConfOperand) : State := configured (cfgOf c) (tState (.ref tEnv))

/-- The next state of an outcome. -/
def nextOf (o : Host.Outcome State Fault Refusal) : Option State :=
  match o with
  | .next t => some t
  | .fault _ => none
  | .refused _ => none

/-- The transactions after a step. -/
def histOf (o : Host.Outcome State Fault Refusal) : Option (List BusEvent) := (nextOf o).map fun t => t.bus.hist

/-- The response after a step. -/
def respOf (o : Host.Outcome State Fault Refusal) : Option (Option Response) := (nextOf o).map State.resp

/-- The standard frame with data 01..08. -/
def tFrame (id : Word) (idx : Byte) : Frame := ⟨id, false, false, 8, ⟨1, 2, 3, 4, 5, 6, 7, 8⟩, idx⟩

/-- `F0` of 95 section 0 as an operand, with a path selector. -/
def tF0 (idx : Byte) : FrameOperand := ⟨0x123, 0, 8, idx, ⟨1, 2, 3, 4, 5, 6, 7, 8⟩⟩

/-- The object of `F0`. -/
def tObj : FrameObj := ⟨0x123, 8, 0x04030201, 0x08070605⟩

/-- A 32-bit read at the slow rate. -/
def rd32At (i : Issuer) (a : Addr) (v : Word) : BusEvent := ⟨.rd, a, some (.word v), .slow, i⟩

/-- An 8-bit read at the slow rate. -/
def rd8At (i : Issuer) (a : Addr) (v : Byte) : BusEvent := ⟨.rd, a, some (.byte v), .slow, i⟩

/-- A 32-bit write at the slow rate. -/
def wr32At (i : Issuer) (a : Addr) (v : Word) : BusEvent := ⟨.wr, a, some (.word v), .slow, i⟩

/-- An 8-bit write at the slow rate. -/
def wr8At (i : Issuer) (a : Addr) (v : Byte) : BusEvent := ⟨.wr, a, some (.byte v), .slow, i⟩

/-! ### Well-formedness -/

/-- A count byte of 2 with one entry is refused. -/
theorem test_ill_formed_configure_refused :
    (Instr.configure ⟨8, 4, 0, 2, [⟨0x123, 0x7FF, 0x0011⟩]⟩).wellFormed = false := by decide

/-- An omitted list with an entry is refused. -/
theorem test_ill_formed_omitted_list_refused :
    (Instr.configure ⟨8, 4, 0, 0xFF, [⟨0, 0, 0⟩]⟩).wellFormed = false := by decide

theorem test_well_formed_configure_accepted : (Instr.configure tConf2).wellFormed = true := by decide

/-! ### Words written out from the encoding (V-ENC-6, V-ENC-11, R65) -/

theorem test_word_write32 : decode (.wire [0x22, 0x34, 0xEF, 0xBE, 0xAD, 0xDE]) = .ok (.write 0x234 (.word 0xDEADBEEF)) := by
  rfl

theorem test_word_write8 : decode (.wire [0x20, 0x69, 0x03]) = .ok (.write 0x069 (.byte 0x03)) := by rfl

theorem test_word_read32 : decode (.wire [0x34, 0x00, 0, 0, 0, 0]) = .ok (.read 0x400 .four) := by rfl

theorem test_word_reset : decode (.wire [0x00, 0x00]) = .ok .reset := by rfl

theorem test_word_rd32 : decode (.host [0x01, 0x00, 0x14]) = .ok (.rd32 0x1400) := by rfl

theorem test_word_wr32 : decode (.host [0x02, 0x00, 0x04, 0xA5, 0xB6, 0xC7, 0xD8]) = .ok (.wr32 0x400 0xD8C7B6A5) := by rfl

theorem test_word_rd8 : decode (.host [0x03, 0x05, 0x00]) = .ok (.rd8 0x005) := by rfl

theorem test_word_wr8 : decode (.host [0x04, 0x05, 0x00, 0x5A]) = .ok (.wr8 0x005 0x5A) := by rfl

theorem test_word_devreset : decode (.host [0x05]) = .ok .devreset := by rfl

theorem test_word_setrate : decode (.host [0x06, 0x01]) = .ok (.setrate 1) := by rfl

theorem test_word_readerr : decode (.host [0x07]) = .ok .readerr := by rfl

theorem test_word_configure_default :
    decode (.host [0x10, 0x08, 0x00, 0x08, 0x00, 0x00, 0xFF]) = .ok (.configure (tConf 8 8 0)) := by rfl

theorem test_word_configure_two_filters :
    decode (.host [0x10, 0x04, 0x00, 0x02, 0x00, 0x00, 0x02, 0x23, 0x01, 0x00, 0x00, 0xFF, 0x07, 0x00, 0x00, 0x11, 0x00, 0x56,
        0x04, 0x00, 0x00, 0xFF, 0x07, 0x00, 0x00, 0xFF, 0xFF]) =
      .ok (.configure ⟨4, 2, 0, 2, [⟨0x123, 0x7FF, 0x0011⟩, ⟨0x456, 0x7FF, 0xFFFF⟩]⟩) := by rfl

theorem test_word_trysend :
    decode (.host [0x20, 0x23, 0x01, 0x00, 0x00, 0x00, 0x08, 0x00, 0x01, 0x02, 0x03, 0x04, 0x05, 0x06, 0x07, 0x08]) =
      .ok (.trysend (tF0 0)) := by rfl

theorem test_word_avail : decode (.host [0x30]) = .ok .avail := by rfl

theorem test_word_recv : decode (.host [0x31]) = .ok .recv := by rfl

theorem test_word_dispatch : decode (.host [0x32, 0x01]) = .ok (.dispatch 1) := by rfl

theorem test_word_txq_size : decode (.host [0x40]) = .ok .txqSize := by rfl

theorem test_word_txq_count : decode (.host [0x41]) = .ok .txqCount := by rfl

theorem test_word_txq_peak : decode (.host [0x42]) = .ok .txqPeak := by rfl

/-- V-ENC-12: words and payloads the core does not emit. -/
theorem test_foreign_words_rejected :
    decode (.wire [0x14, 0x00, 0, 0, 0, 0]) = .error (.notEmitted 0x1400) ∧
      decode (.wire [0x40, 0x00, 0]) = .error (.notEmitted 0x4000) ∧ decode (.wire [0xF1, 0x23]) = .error (.notEmitted 0xF123) ∧
      decode (.wire [0x00, 0x01]) = .error (.notEmitted 0x0001) ∧ decode (.wire [0x24, 0x00, 1, 2]) = .error .badBracket := by
  exact ⟨rfl, rfl, rfl, rfl, rfl⟩

/-- V-EXC-1, V-EXC-2: unassigned codes; and a request of a wrong length (R66). -/
theorem test_bad_requests_rejected :
    decode (.host [0x08]) = .error .reservedCode ∧ decode (.host [0xFF]) = .error .reservedCode ∧
      decode (.host [0x06]) = .error (.wrongLength "SETRATE") := by exact ⟨rfl, rfl, rfl⟩

/-- The table words of three rows, as the opcode table gives them. -/
theorem test_table_words :
    decodeTableWord 16 0x2000 = some (.write 0 (.word 0)) ∧ decodeTableWord 8 0x31 = some .recv ∧
      decodeTableWord 0 0 = some .irq := by exact ⟨rfl, rfl, rfl⟩

/-! ### Frame objects and configuration words -/

/-- V-ENC-7, V-ENC-8: an extended frame with a length above 8. -/
theorem test_encode_extended_frame :
    encodeObj flRef ⟨0x12345678, true, false, 12, ⟨0x0A, 0x0B, 0x0C, 0x0D, 0x0E, 0x0F, 0x10, 0x11⟩, 0⟩ =
      ⟨0x02B3C48D, 0x00000018, 0x0D0C0B0A, 0x11100F0E⟩ := by decide

/-- V-ENC-7, V-ENC-8: bit 11 of a standard identifier is dropped; the remote flag. -/
theorem test_encode_standard_remote_frame :
    encodeObj flRef ⟨0xFFF, false, true, 0, ⟨0, 0, 0, 0, 0, 0, 0, 0⟩, 0⟩ = ⟨0x7FF, 0x20, 0, 0⟩ := by decide

/-- V-ENC-10: bits 31:29 of word 0 ignored, FILHIT 31. -/
theorem test_decode_masks_identifier :
    decodeObj paramsRef ⟨0xE0000123, 0x0000F838, 0xDDCCBBAA, 0⟩ =
      ⟨0x048C0000, true, true, 8, ⟨0xAA, 0xBB, 0xCC, 0xDD, 0, 0, 0, 0⟩, 31⟩ := by decide

/-- V-ENC-10: a length code of 12 under both modes. -/
theorem test_decode_length_modes :
    (decodeObj paramsRef ⟨0x02B3C48D, 0x0000283C, 0, 0⟩).len = 12 ∧
      (decodeObj { paramsRef with rxLenMode := .clamp8 } ⟨0x02B3C48D, 0x0000283C, 0, 0⟩).len = 8 := by decide

/-- V-IRQ-3: the acknowledge bytes under both modes. -/
theorem test_ack_bytes :
    [2, 3, 4, 5].map (ackByte .writeBit) = [0x04, 0x08, 0x10, 0x20] ∧
      [2, 3, 4, 5].map (ackByte .writeZeroInBit) = [0xFB, 0xF7, 0xEF, 0xDF] := by decide

/-! ### One step of each instruction -/

/-- V-ENC-6 on the wire: a write transaction on behalf of `FG`. -/
theorem test_write_records_event :
    histOf (exec (.write 0x069 (.byte 3)) (tState (tFree []))) = some [wr8At .fg 0x069 3] := by decide

theorem test_read_records_answer :
    histOf (exec (.read 0x400 .four) (tState (tFree [0xA5A5A5A5]))) = some [rd32At .fg 0x400 0xA5A5A5A5] := by decide

theorem test_reset_records_event :
    histOf (exec .reset (tState (tFree []))) = some [⟨.reset, 0, none, .slow, .fg⟩] := by decide

/-- V-CODEC-1, second request: bits 15:12 of the address are dropped. -/
theorem test_rd32_drops_high_address_bits :
    let o := exec (.rd32 0x1400) (tState (.ref { tEnv with mem32 := [(0x400, 0xA5A5A5A5)] }))
    histOf o = some [rd32At .fg 0x400 0xA5A5A5A5] ∧ respOf o = some (some (.word 0xA5A5A5A5)) := by decide

/-- V-CODEC-1, first request. -/
theorem test_wr32_fills_plain_memory :
    let o := exec (.wr32 0x1400 0xA5A5A5A5) (tState (.ref tEnv))
    histOf o = some [wr32At .fg 0x400 0xA5A5A5A5] ∧
      (nextOf o).map (fun t => t.bus.chip) = some (.ref { tEnv with mem32 := [(0x400, 0xA5A5A5A5)] }) := by decide

/-- V-CODEC-2, second request. -/
theorem test_rd8_reads_plain_byte :
    respOf (exec (.rd8 0x005) (tState (.ref { tEnv with mem8 := [(0x005, 0x5A)] }))) = some (some (.byte 0x5A)) := by decide

/-- V-CODEC-2, first request. -/
theorem test_wr8_records_event :
    histOf (exec (.wr8 0x005 0x5A) (tState (.ref tEnv))) = some [wr8At .fg 0x005 0x5A] := by decide

/-- V-CODEC-4. -/
theorem test_devreset_records_event :
    histOf (exec .devreset (tState (.ref tEnv))) = some [⟨.reset, 0, none, .slow, .fg⟩] := by decide

/-- V-CODEC-5, first request: no transaction. -/
theorem test_setrate_fast :
    (nextOf (exec (.setrate 1) (tState (tFree [])))).map (fun t => (t.bus.rate, t.bus.txnCount)) = some (.fast, 0) := by
  decide

/-- V-CODEC-6. -/
theorem test_setrate_two_refused :
    (nextOf (exec (.setrate 2) (tState (tFree [])))).map (fun t => (t.resp, t.refused, t.bus.rate)) =
      some (some (.refused .badRate), true, .slow) := by decide

/-- V-CODEC-3. -/
theorem test_readerr_reads_trec :
    histOf (exec .readerr (tState (.ref tEnv))) = some [rd32At .fg 0x034 0] := by decide

/-- V-CFG-2: mask, acceptance, control of each filter in order, then the enables. -/
theorem test_configure_two_filters :
    let o := exec (.configure tConf2) (tState (tFree []))
    histOf o = some [wr32At .fg 0x1F4 0x7FF, wr32At .fg 0x1F0 0x123, wr8At .fg 0x1D0 0x81, wr32At .fg 0x1FC 0x7FF,
        wr32At .fg 0x1F8 0x456, wr8At .fg 0x1D1 0x81, wr8At .fg 0x05C 0x01, wr8At .fg 0x068 0x80, wr8At .fg 0x01E 0x03] ∧
      (nextOf o).map (fun t => (t.ready, t.cbSize, t.cbTable[0], t.cbTable[1])) = some (true, 2, some 0x0011, none) := by
  decide

/-- V-CFG-6: the receive capacity comes before the bypass byte. -/
theorem test_configure_refusal_order :
    respOf (exec (.configure (tConf 4 0 2)) (tState (tFree []))) = some (some (.refused .zeroRxCap)) := by decide

/-- V-FC-2: the write that fills the FIFO. -/
theorem test_trysend_fills_fifo :
    let e : EnvRef := { tEnv with txf := { tEnv.txf with objs := [tObj, tObj, tObj] } }
    let o := exec (.trysend (tF0 0)) (tReady (tConf 8 8 0) (.ref e))
    histOf o = some [rd32At .fg 0x070 0x100, wr32At .fg 0x500 0x123, wr32At .fg 0x504 8, wr32At .fg 0x508 0x04030201,
        wr32At .fg 0x50C 0x08070605, wr8At .fg 0x069 3, rd8At .fg 0x06C 0, wr8At .fg 0x068 0x81] ∧
      (nextOf o).map (fun t => (t.resp, t.txHwFull)) = some (some (.bool true), true) := by decide

/-- V-FC-7, second case: the bypass path. -/
theorem test_trysend_bypass :
    histOf (exec (.trysend (tF0 255)) (tReady (tConf 8 8 1) (.ref tEnv))) =
      some [rd8At .fg 0x054 1, rd32At .fg 0x058 0x200, wr32At .fg 0x600 0x123, wr32At .fg 0x604 8, wr32At .fg 0x608 0x04030201,
        wr32At .fg 0x60C 0x08070605, wr8At .fg 0x051 3] := by decide

/-- S8-5, step 3. -/
theorem test_avail_with_frames :
    respOf (exec .avail { tReady (tConf 8 2 0) (tFree []) with rxqSw := some ⟨2, [tFrame 0x123 0], 1⟩ }) =
      some (some (.bool true)) := by decide

/-- V-FC-10: with capacity 1 a receive enables the interrupt again. -/
theorem test_recv_from_full_queue :
    let o := exec .recv { tReady (tConf 8 1 0) (tFree []) with rxqSw := some ⟨1, [tFrame 0x123 0], 1⟩ }
    histOf o = some [wr8At .fg 0x05C 0x01] ∧
      (nextOf o).map (fun t => (t.resp, t.rxqSw)) = some (some (.frame (tFrame 0x123 0)), some ⟨1, [], 1⟩) := by decide

/-- V-RT-1: the observer first, then the callback. -/
theorem test_dispatch_observer_and_callback :
    (nextOf (exec (.dispatch 1) { tReady tConf2 (tFree []) with rxqSw := some ⟨4, [tFrame 0x100 0], 1⟩ })).map
        (fun t => (t.out, t.resp)) =
      some ([.matchObserved 0, .callback 0x0011 (tFrame 0x100 0)], some (.bool true)) := by decide

/-- V-RT-3: an index without a callback. -/
theorem test_dispatch_unregistered_index :
    (nextOf (exec (.dispatch 0) { tReady tConf2 (tFree []) with rxqSw := some ⟨4, [tFrame 0x100 5], 1⟩ })).map
        (fun t => (t.out, t.resp, t.bus.hist)) = some ([], some (.bool true), []) := by decide

/-- V-FC-11 and V-FC-3: the accessors. -/
theorem test_txq_size : respOf (exec .txqSize (tReady (tConf 8 8 0) (tFree []))) = some (some (.nat 8)) := by decide

theorem test_txq_count :
    respOf (exec .txqCount { tReady (tConf 8 8 0) (tFree []) with txqSw := some ⟨8, [tFrame 0x123 0], 2⟩ }) =
      some (some (.nat 1)) := by decide

theorem test_txq_peak :
    respOf (exec .txqPeak { tReady (tConf 8 8 0) (tFree []) with txqSw := some ⟨8, [tFrame 0x123 0], 2⟩ }) =
      some (some (.nat 2)) := by decide

/-- V-IRQ-1: nine transactions, the status bit cleared, the line inactive. -/
theorem test_irq_receive_and_acknowledge :
    let e : EnvRef := { tEnv with rxf := { tEnv.rxf with objs := [tObj], ie := some 1 }, st := 8 }
    let o := exec .irq (tReady (tConf 8 1 0) (.ref e))
    histOf o = some [rd32At .isr 0x01C 0xA, rd32At .isr 0x064 0, rd32At .isr 0x400 0x123, rd32At .isr 0x404 8,
        rd32At .isr 0x408 0x04030201, rd32At .isr 0x40C 0x08070605, wr8At .isr 0x05D 1, wr8At .isr 0x05C 0,
        wr8At .isr 0x01C 8] ∧
      (nextOf o).map (fun t => (t.rxqSw, intIn cmRef t.bus.chip)) = some (some ⟨1, [tFrame 0x123 0], 1⟩, false) := by decide

/-- V-IRQ-6: the longest pass, 18 transactions. -/
theorem test_irq_longest_pass :
    histOf (exec .irq { tReady (tConf 8 1 0)
        (tFree [0xFFFFFFFF, 0, 0x7FF, 0xF80C, 0x11223344, 0x55667788, 0x100]) with
          txHwFull := true, txqSw := some ⟨8, [tFrame 3 0], 1⟩ }) =
      some [rd32At .isr 0x01C 0xFFFFFFFF, rd32At .isr 0x064 0, rd32At .isr 0x400 0x7FF, rd32At .isr 0x404 0xF80C,
        rd32At .isr 0x408 0x11223344, rd32At .isr 0x40C 0x55667788, wr8At .isr 0x05D 1, wr8At .isr 0x05C 0,
        rd32At .isr 0x070 0x100, wr32At .isr 0x500 3, wr32At .isr 0x504 8, wr32At .isr 0x508 0x04030201,
        wr32At .isr 0x50C 0x08070605, wr8At .isr 0x069 3, wr8At .isr 0x01C 4, wr8At .isr 0x01C 8, wr8At .isr 0x01D 0x10,
        wr8At .isr 0x01D 0x20] := by decide

/-- V-EXC-1: a step that meets an unassigned code. -/
theorem test_step_reserved_code :
    (nextOf (step (portNext (.host [0x08]) (tState (tFree []))))).map (fun t => (t.refused, t.resp, t.port, t.bus.hist)) =
      some (true, some (.refused .reservedCode), [], []) := by decide

/-- V-IRQ-8: before `CONFIGURE` an active input starts no pass. -/
theorem test_no_pass_before_configure :
    isrEligible (tState (tFree [])) = false ∧ isrEligible (tReady (tConf 8 8 0) (tFree [])) = true := by decide

/-- The host's fetch of a table word runs the instruction as the next step. -/
theorem test_fetch_word_runs :
    respOf (step ((tState (tFree [])).withFetchWord 8 0x30)) = some (some (.refused .notReady)) ∧
      (nextOf (step ((tState (tFree [0])).withFetchWord 0 0))).map (fun t => t.bus.txnCount) = some 1 := by decide

/-! ### The sequencer at its interface -/

/-- Settings with no violated check. -/
def tSettings : Settings :=
  ⟨true, 4, 13, 2, 1, true, true, 0, 0, 4, 4, 0, 512, none, true, 8, 8, false⟩

/-- Some choice of distinct bits for the error word. -/
def tBits : BeginError → Fin 32
  | .bitrateClose => 0
  | .nbtPacking => 1
  | .intLine => 2
  | .nullHandler => 3
  | .txqSize => 4
  | .txqPrio => 5
  | .rxfSize => 6
  | .txfSize => 7
  | .txfPrio => 8
  | .ramUsage => 9
  | .filterCount => 10
  | .filterList => 11
  | .cfgTimeout => 12
  | .selftestSlow => 13
  | .pllTimeout => 14
  | .selftestFast => 15
  | .modeTimeout => 31

/-- V-ENC-9. -/
theorem test_nbt_word : nbtWord tSettings = 0x030C0100 := by decide

/-- V-BOOT-1: exactly the two violated checks. -/
theorem test_validate_two_violations :
    validate tBits { tSettings with rxfSize := 0, txfPrio := 40 } = 0x140 ∧ validate tBits tSettings = 0 := by decide

/-! ### Witnesses: each statement's hypotheses, met together -/

theorem witness_decode_encode_agree : (Instr.configure tConf2).wellFormed = true ∧ Instr.configure tConf2 ≠ .irq := by decide

theorem witness_decoded_instr_well_formed :
    decode (.host [0x10, 0, 0, 1, 0, 0, 0]) = .ok (.configure ⟨0, 1, 0, 0, []⟩) := by rfl

theorem witness_host_request_form_unique : decode (.host [0x06, 0xFF]) = .ok (.setrate 0xFF) := by rfl

theorem witness_reserved_code_refused :
    (∀ i, requestCode i ≠ some 0x08) ∧ (∀ i, requestCode i ≠ some 0x00) ∧ (∀ i, requestCode i ≠ some 0xFF) ∧
      (portNext (.host [0x08]) (tState (tFree []))).agenda = [.fg] ∧
      (portNext (.host [0x08]) (tState (tFree []))).port = [.host [0x08]] := by
  refine ⟨?_, ?_, ?_, rfl, rfl⟩ <;> intro i <;> cases i <;> simp [requestCode]

theorem witness_foreign_wire_traffic :
    ((0x0001 : BitVec 16) ≠ 0 ∧ (0x0001 : BitVec 16).extractLsb' 12 4 ≠ 0b0010 ∧
        (0x0001 : BitVec 16).extractLsb' 12 4 ≠ 0b0011) ∧
      ((0 : BitVec 16) = 0 ∧ ([0] : List Byte) ≠ []) ∧
      ((0x2FFF : BitVec 16).extractLsb' 12 4 = 0b0010 ∧ ([] : List Byte).length ≠ 4 ∧ ([] : List Byte).length ≠ 1) ∧
      ((0x3000 : BitVec 16).extractLsb' 12 4 = 0b0011 ∧ ([1, 2, 3, 4, 5] : List Byte).length ≠ 4) := by decide

theorem witness_setrate_sets_rate : 2 ≤ (2 : Byte).toNat ∧ 2 ≤ (255 : Byte).toNat := by decide

theorem witness_configure_loads_the_core :
    (tState (tFree [])).ready = false ∧ (tConf 0 1 1).rxCap ≠ 0 ∧ (tConf 0 1 1).bypass.toNat < 2 ∧ (tConf 0 1 1).nflt = 0xFF ∧
      (⟨0, 0xFFFF, 0, 32, []⟩ : ConfOperand).nflt.toNat ≤ 32 ∧ tConf2.nflt.toNat ≤ 32 := by decide

theorem witness_configure_refusals :
    (tReady (tConf 8 8 0) (tFree [])).ready = true ∧ (tState (tFree [])).ready = false ∧ (tConf 4 0 2).rxCap = 0 ∧
      ((tConf 4 1 2).rxCap ≠ 0 ∧ 2 ≤ (tConf 4 1 2).bypass.toNat) ∧
      ((⟨4, 1, 1, 33, []⟩ : ConfOperand).bypass.toNat < 2 ∧ (33 : Byte) ≠ 0xFF ∧ 32 < (33 : Byte).toNat) ∧
      ((254 : Byte) ≠ 0xFF ∧ 32 < (254 : Byte).toNat) := by decide

theorem witness_trysend_direct_path :
    (⟨0x123, 3, 8, 0, default⟩ : FrameOperand).flags.toNat < 4 ∧ (tReady (tConf 8 8 0) (tFree [])).ready = true ∧
      (tF0 0).idx = 0 ∧ (tReady (tConf 8 8 0) (tFree [])).txHwFull = false := by decide

/-- A state that believes the transmit FIFO full, with one frame waiting. -/
def tFull (cap : Nat) : State :=
  { tReady (tConf 8 8 0) (tFree []) with txHwFull := true, txqSw := some ⟨cap, [tFrame 1 0], 1⟩ }

theorem witness_trysend_buffered_path :
    (tF0 0).flags.toNat < 4 ∧ (tF0 0).idx = 0 ∧
      ((tFull 2).ready = true ∧ (tFull 2).txHwFull = true ∧ (tFull 2).txqSw = some ⟨2, [tFrame 1 0], 1⟩) ∧
      ((tFull 1).ready = true ∧ (tFull 1).txHwFull = true ∧ (tFull 1).txqSw = some ⟨1, [tFrame 1 0], 1⟩) := by decide

theorem witness_trysend_bypass_path :
    (tF0 255).flags.toNat < 4 ∧ (tF0 255).idx = 255 ∧
      ((tReady (tConf 8 8 0) (tFree [])).ready = true ∧ (tReady (tConf 8 8 0) (tFree [])).bypassEn = false) ∧
      ((tReady (tConf 8 8 1) (tFree [1])).ready = true ∧ (tReady (tConf 8 8 1) (tFree [1])).bypassEn = true) := by decide

theorem witness_trysend_unknown_selector :
    (tF0 1).flags.toNat < 4 ∧ (tReady (tConf 8 8 1) (tFree [])).ready = true ∧ (tF0 1).idx ≠ 0 ∧ (tF0 1).idx ≠ 255 ∧
      (tF0 254).idx ≠ 0 ∧ (tF0 254).idx ≠ 255 := by decide

theorem witness_operand_format_refused_first :
    4 ≤ (⟨0, 4, 0, 0, default⟩ : FrameOperand).flags.toNat ∧ (⟨0, 3, 0, 0, default⟩ : FrameOperand).flags.toNat < 4 ∧
      (tState (tFree [])).ready = false ∧ 2 ≤ (2 : Byte).toNat ∧ (1 : Byte).toNat < 2 := by decide

/-- A configured state, `CONFIGURE` answered, whose receive queue has capacity 2 and holds these frames. -/
def tRx (items : List Frame) : State :=
  respond .done { tReady tConf2 (tFree []) with rxqSw := some ⟨2, items, 2⟩ }

theorem witness_avail_answers_count :
    (tState (tFree [])).ready = false ∧ (tRx []).ready = true ∧ (tRx []).rxqSw = some ⟨2, [], 2⟩ ∧
      (tRx [tFrame 1 0]).ready = true ∧ (tRx [tFrame 1 0]).rxqSw = some ⟨2, [tFrame 1 0], 2⟩ := by decide

theorem witness_recv_and_dispatch :
    (1 : Byte).toNat < 2 ∧ (0 : Byte).toNat < 2 ∧
      ((tRx []).ready = true ∧ (tRx []).rxqSw = some ⟨2, [], 2⟩) ∧
      ((tRx [tFrame 1 0]).ready = true ∧ (tRx [tFrame 1 0]).rxqSw = some ⟨2, tFrame 1 0 :: [], 2⟩) ∧
      (tRx [tFrame 1 1, tFrame 2 31]).rxqSw = some ⟨2, tFrame 1 1 :: [tFrame 2 31], 2⟩ := by decide

theorem witness_txq_accessors_answer :
    (tFull 2).ready = true ∧ (tFull 2).txqSw = some ⟨2, [tFrame 1 0], 1⟩ := by decide

theorem witness_ready_gate_refuses :
    (tState (tFree [])).ready = false ∧ (tReady tConf2 (tFree [])).ready = true ∧ (tF0 7).flags.toNat < 4 ∧
      (1 : Byte).toNat < 2 := by decide

theorem witness_queue_is_fifo :
    (⟨0, [], 0⟩ : Queue).cap = 0 ∧ (emptyQueue 2).items = [] ∧ [tFrame 1 0].length ≤ (emptyQueue 2).cap ∧
      [tFrame 1 0, tFrame 2 0].length = (emptyQueue 2).cap := by decide

theorem witness_data_words : 0 < 8 ∧ 7 < 8 := by decide

theorem witness_frame_layout : paramsRef.fl = flRef ∧ { paramsRef with rxLenMode := .clamp8 }.fl = flRef := ⟨rfl, rfl⟩

/-- The state of V-IRQ-6 with the first answer given. -/
def tIrq (st : Word) (full : Bool) : State :=
  { tReady (tConf 8 1 0) (tFree [st, 0, 0x7FF, 0xF80C, 0x11223344, 0x55667788, 0x100]) with
    txHwFull := full, txqSw := some ⟨8, if full then [tFrame 3 0] else [], 1⟩ }

theorem witness_service_pass_runs_handlers :
    ((tIrq 0xFFFFFFFF true).rxqSw = some ⟨1, [], 0⟩ ∧ (tIrq 0xFFFFFFFF true).txqSw = some ⟨8, [tFrame 3 0], 1⟩) ∧
      ((tIrq 0x80000000 false).rxqSw = some ⟨1, [], 0⟩ ∧ (tIrq 0x80000000 false).txqSw = some ⟨8, [], 1⟩) := by decide

/-- Both bounds are met: 1 transaction and 18. -/
theorem witness_service_pass_is_bounded :
    (nextOf (exec .irq (tIrq 0x80000000 false))).map (fun t => t.bus.txnCount) = some 1 ∧
      (nextOf (exec .irq (tIrq 0xFFFFFFFF true))).map (fun t => t.bus.txnCount) = some 18 := by decide

theorem witness_pass_runs_when_eligible :
    let s := { tIrq 1 true with agenda := [.isr] }
    (s.agenda = .isr :: [] ∧ intIn s.par.cm s.bus.chip = true ∧ s.ready = true ∧ s.isrBusy = false) ∧
      { tState (tFree []) with agenda := [.isr] }.ready = false ∧ { s with isrBusy := true }.isrBusy = true ∧
      intIn cmRef (.free ⟨[], 0, false⟩) = false := by decide

theorem witness_refusal_changes_nothing_else :
    ((tState (tFree [])).refused = false ∧ (nextOf (exec .avail (tState (tFree [])))).map State.refused = some true) ∧
      (respOf (exec .avail { tState (tFree []) with refused := true }) = some (some (.refused .notReady)) ∧
        requestCode .avail ≠ none) ∧
      ((nextOf (exec .readerr { tState (tFree [7]) with refused := true })).map State.refused = some true ∧
        requestCode .readerr ≠ none) ∧
      ((nextOf (exec .irq (tIrq 0 true))).isSome = true ∧ requestCode .irq = none) := by decide

/-- The state right after `CONFIGURE`, which answers `done`, and a state in which `false` was already the response. -/
theorem witness_false_result_changes_nothing :
    let s := respond .done (tReady (tConf 8 8 1) (tFree [0]))
    nextOf (exec (.configure (tConf 8 8 0)) (tState (tFree []))) =
        some (respond .done (configured (cfgOf (tConf 8 8 0)) (tState (tFree [])))) ∧
      ((tRx []).resp ≠ some (.bool false) ∧ respOf (exec .avail (tRx [])) = some (some (.bool false))) ∧
      (s.resp ≠ some (.bool false) ∧ respOf (exec (.trysend (tF0 255)) s) = some (some (.bool false))) ∧
      respOf (exec .recv (respond (.bool false) (tRx []))) = some (some (.bool false)) := by decide

theorem witness_step_runs_decoded_request :
    let s := portNext (.host [0x31]) (tRx [tFrame 1 0])
    s.agenda = .fg :: [] ∧ s.port = .host [0x31] :: [] ∧ decode (.host [0x31]) = .ok .recv := ⟨rfl, rfl, rfl⟩

theorem witness_other_turns_leave_the_core :
    (tState (tFree [])).agenda = [] ∧
      ({ tState (tFree []) with agenda := [.fg] }.agenda = .fg :: [] ∧ { tState (tFree []) with agenda := [.fg] }.port = []) ∧
      { tState (tFree []) with agenda := [.dev (.setInt false)] }.agenda = .dev (.setInt false) :: [] := by decide

theorem witness_configuration_is_fixed :
    (tFull 2).ready = true ∧ (nextOf (exec (.trysend (tF0 0)) (tFull 2))).isSome = true ∧
      (nextOf (exec (.configure (tConf 1 1 1)) (tFull 2))).isSome = true := by decide

theorem witness_bus_is_its_recorded_transactions :
    (nextOf (exec .irq (tIrq 0xFFFFFFFF true))).isSome = true ∧ (nextOf (exec (.setrate 1) (tIrq 0 true))).isSome = true := by
  decide

theorem witness_raw_write_memory_frame :
    let e : EnvRef := { tEnv with mem32 := [(0x400, 1)], mem8 := [(0x005, 1), (0xFFF, 2)] }
    (tState (.ref e)).bus.chip = .ref e ∧ e.mem32.wf = true ∧ e.mem8.wf = true := by
  refine ⟨rfl, ?_, ?_⟩ <;> decide

theorem witness_plain_word_reads_back :
    let e : EnvRef := { tEnv with mem32 := [(0x400, 1)] }
    let parked : EnvRef := { tEnv with rxf := { tEnv.rxf with objs := [tObj] } }
    (tState (.ref parked)).bus.chip = .ref parked ∧
      ((tState (.ref e)).bus.chip = .ref e ∧ (tState (.ref e)).par.cm = cmRef ∧ e.mem32.wf = true ∧ e.rxf.objs = []) ∧
      (0x400 ≤ (0x1400 : Half).toNat % 4096 ∧ (0x0400 : Half).toNat % 4096 = (0x1400 : Half).toNat % 4096) ∧
      (0x400 ≤ (0x0BFC : Half).toNat % 4096 ∧ (0x0BFC : Half).toNat % 4096 < 0xC00) := by
  refine ⟨rfl, ⟨rfl, rfl, ?_, rfl⟩, ?_, ?_⟩ <;> decide

/-- A configured core under `ENV_REF` with a frame parked, and the pass next. -/
def tParked : State :=
  let s := tLive (tConf 8 2 0)
  { s with
    agenda := [.isr]
    bus := { s.bus with chip := devStep cmRef (.raiseStatus 3) (devStep cmRef (.arrive tObj) s.bus.chip) } }

theorem witness_step_keeps_sound_unconfigured :
    Sound (tState (.ref tEnv)) ∧
      (nextOf (step (portNext (.host [0x10, 8, 0, 8, 0, 0, 0xFF]) (tState (.ref tEnv))))).isSome = true ∧
      Sound (portNext (.host [0x10, 8, 0, 8, 0, 0, 0xFF]) (tState (.ref tEnv))) := by decide

theorem witness_step_keeps_sound_configured :
    Sound tParked ∧ (nextOf (step tParked)).map (fun t => t.rxqSw) = some (some ⟨2, [tFrame 0x123 0], 1⟩) := by decide

theorem witness_sound_step_refused :
    Sound (portNext (.host []) (tState (.ref tEnv))) ∧
      step (portNext (.host []) (tState (.ref tEnv))) = .refused (.undecodable .emptyRequest) := ⟨by decide, rfl⟩

theorem witness_step_keeps_flow_invariants : FlowSound tParked ∧ (nextOf (step tParked)).isSome = true := by decide

theorem witness_reset_has_flow_invariants : MapSeparate paramsRef.cm := by decide

/-- R31: `CM_REF` meets the constraints, and each one refuses a map that breaks it. -/
theorem test_chip_map_constraints :
    cmRef.constraintsHold = true ∧ { cmRef with aScratch := 0xC00 }.constraintsHold = false ∧
      { cmRef with aScratch := 0x3FF }.constraintsHold = false ∧ { cmRef with fltMask0 := 0x1F8 }.constraintsHold = false ∧
      { cmRef with bSerr := 13 }.constraintsHold = false ∧ { cmRef with bMod := 0 }.constraintsHold = false ∧
      { cmRef with fltMask0 := 0x1EC }.constraintsHold = true := by decide

theorem witness_chip_map_constraints_hold :
    tParked.par.cm.constraintsHold = true ∧ (nextOf (step tParked)).isSome = true := by decide

/-- Status bit 2 shares its byte with both FIFO bits of `CM_REF`. -/
theorem witness_acknowledge_spares_fifo_bits :
    cmRef.constraintsHold = true ∧ isStatusBit cmRef 2 = true ∧ cmRef.bRxne = 1 ∧ cmRef.bTxnf = 0 ∧
      ackAddr cmRef 1 = ackAddr cmRef 2 ∧ ackAddr cmRef 0 = ackAddr cmRef 2 := by decide

theorem witness_step_keeps_no_loss : NoLoss tParked ∧ (nextOf (step tParked)).isSome = true := by decide

theorem witness_reset_has_no_loss : paramsRef.cm = cmRef ∧ 0 < 1 := ⟨rfl, by decide⟩

theorem witness_pass_keeps_frames :
    NoLoss tParked ∧ tParked.ready = true ∧ inbound tParked = [tFrame 0x123 0] ∧
      (nextOf (exec .irq tParked)).map inbound = some [tFrame 0x123 0] := by decide

/-- A core that has filled a transmit FIFO of one slot and then buffered a frame, the slot since emptied. -/
def tWaiting : State :=
  let s := configured (cfgOf (tConf 8 8 0)) (tState (.ref (envFresh 4 1 0)))
  let s := issue (.trysend (tF0 0)) (issue (.trysend (tF0 0)) s)
  { s with bus := { s.bus with chip := devStep cmRef (.transmit .txf) s.bus.chip } }

theorem witness_pass_keeps_outbound_frames :
    NoLoss tWaiting ∧ tWaiting.ready = true ∧ outbound tWaiting = [tObj] ∧
      (nextOf (exec .irq tWaiting)).map outbound = some [tObj] := by decide

theorem witness_accepted_frame_goes_last :
    NoLoss tWaiting ∧ tWaiting.ready = true ∧ (tF0 0).flags.toNat < 4 ∧ (tF0 0).idx = 0 ∧
      respOf (exec (.trysend (tF0 0)) tWaiting) = some (some (.bool true)) := by decide

theorem witness_eligible_pass_makes_progress : NoLoss tWaiting ∧ isrEligible tWaiting = true ∧ backlog tWaiting = 2 := by decide

theorem witness_passes_clear_backlog : NoLoss tWaiting ∧ tWaiting.ready = true ∧ intIn cmRef tWaiting.bus.chip = true := by decide

theorem witness_validation_reports_violations :
    Function.Injective tBits ∧ violates { tSettings with rxfSize := 0 } .rxfSize = true ∧ violates tSettings .rxfSize = false := by
  refine ⟨?_, by decide, by decide⟩
  intro a b h
  cases a <;> cases b <;> first | rfl | exact absurd h (by decide)

theorem witness_self_test_walks_all_bits :
    (tState (.ref tEnv)).bus.chip = .ref tEnv ∧ (tState (.ref tEnv)).par.cm = cmRef ∧ tEnv.mem32.wf = true ∧
      tEnv.rxf.objs = [] ∧ (selfTest (tState (.ref tEnv))).1 = true := by
  refine ⟨rfl, rfl, rfl, rfl, ?_⟩
  decide

end Sys2Proof.Machine
end

section
/-! What an instruction can do, said once: ten kinds of effect. Every invariant below is a case split over them. -/

namespace Sys2Proof.Machine

/-- The one transaction of a raw request or a wire command (R83, R86 to R90, R92). -/
def rawAccess (m : ChipMap) : Instr → Option Access
  | .write a p => some (.wr a.toNat p)
  | .read a w => some (.rd a.toNat w)
  | .reset => some .reset
  | .rd32 a => some (.rd a.toNat .four)
  | .wr32 a v => some (.wr a.toNat (.word v))
  | .rd8 a => some (.rd a.toNat .one)
  | .wr8 a v => some (.wr a.toNat (.byte v))
  | .devreset => some .reset
  | .setrate _ => none
  | .readerr => some (.rd m.aTrec.toNat .four)
  | .configure _ => none
  | .trysend _ => none
  | .avail => none
  | .recv => none
  | .dispatch _ => none
  | .txqSize => none
  | .txqCount => none
  | .txqPeak => none
  | .irq => none

/-- `Effect s i t`: the ways instruction `i` can take `s` to `t`. -/
inductive Effect (s : State) : Instr → State → Prop
  /-- A refusal (R134). -/
  | refused {i : Instr} (r : Reason) : Effect s i (raiseRefused r s)
  /-- A response and nothing else: the accessors, an empty queue, a selector of no path. -/
  | answered {i : Instr} (r : Response) : Effect s i (respond r s)
  /-- One bare transaction of the foreground. -/
  | accessed {i : Instr} (acc : Access) (resp : Option Response) (raw : rawAccess s.par.cm i = some acc) :
      Effect s i { s with bus := (txn s.par .fg acc s.bus).2, resp := resp }
  /-- The bus rate changes (R91). -/
  | rated {i : Instr} (r : Rate) : Effect s i (respond .done { s with bus := { s.bus with rate := r } })
  /-- `CONFIGURE` is admitted (R93). -/
  | loaded (conf : ConfOperand) (admitted : configureRefusal s.ready conf = none) :
      Effect s (.configure conf) (respond .done (configured (cfgOf conf) s))
  /-- An ordinary frame goes to the software queue (R111). -/
  | buffered {i : Instr} (f : Frame) (q : Queue) (queue : s.txqSw = some q) (full : s.txHwFull = true) :
      Effect s i (sendBuffered f q s)
  /-- An ordinary frame goes to the chip (R111). -/
  | sent {i : Instr} (f : Frame) (ready : s.ready = true) (space : s.txHwFull = false) : Effect s i (sendDirect f s)
  /-- A frame on the bypass path (R112). -/
  | bypassed {i : Instr} (f : Frame) : Effect s i (sendBypass f s)
  /-- The head of the receive queue is removed (R114, R131). -/
  | taken {i : Instr} (q : Queue) (f : Frame) (rest : List Frame) (out : List OutEvent) (r : Response)
      (queue : s.rxqSw = some q) (head : q.items = f :: rest) :
      Effect s i { s with
        rxqSw := some { q with items := rest }
        bus := if q.items.length = q.cap then setIE s.par .fg .rxf true s.bus else s.bus
        out := out
        resp := some r }
  /-- A service pass (R121). -/
  | served (rq tq : Queue) (rx : s.rxqSw = some rq) (tx : s.txqSw = some tq) :
      Effect s .irq (leaveIsr (servicePass rq tq (enterIsr s)))

/-- The events of a dispatch are appended to the output. -/
theorem foldl_emit (evs : List OutEvent) (s : State) :
    evs.foldl (fun t ev => emit ev t) s = { s with out := s.out ++ evs } := by
  induction evs generalizing s with
  | nil => simp
  | cons ev rest ih => rw [List.foldl_cons, ih]; simp [emit]

theorem trysendRefusal_none {ready : Bool} {f : FrameOperand} (h : trysendRefusal ready f = none) : ready = true := by
  cases ready with
  | true => rfl
  | false => cases hb : badFlags f.flags <;> simp [trysendRefusal, readyGate, hb] at h

/-- What lets `CONFIGURE` through (R94). -/
theorem configureRefusal_none {ready : Bool} {c : ConfOperand} (h : configureRefusal ready c = none) :
    ready = false ∧ c.rxCap ≠ 0 ∧ tooManyFilters c.nflt = false := by
  unfold configureRefusal at h
  split_ifs at h with h1 h2 h3 h4
  exact ⟨by simpa using h1, h2, by simpa using h4⟩

theorem execSetrate_effect {r : Byte} {s t : State} (h : execSetrate r s = .next t) : Effect s (.setrate r) t := by
  unfold execSetrate at h
  split at h
  · obtain rfl := Host.Outcome.next.inj h
    exact .rated _
  · obtain rfl := Host.Outcome.next.inj h
    exact .refused _

theorem execConfigure_effect {conf : ConfOperand} {s t : State} (h : execConfigure conf s = .next t) :
    Effect s (.configure conf) t := by
  obtain ⟨r, -, rfl⟩ | ⟨hnone, h⟩ := guarded_next h
  · exact .refused _
  · obtain rfl := Host.Outcome.next.inj h
    exact .loaded conf hnone

theorem execTrysend_effect {f : FrameOperand} {s t : State} (h : execTrysend f s = .next t) : Effect s (.trysend f) t := by
  obtain ⟨r, -, rfl⟩ | ⟨hnone, h⟩ := guarded_next h
  · exact .refused _
  · unfold trySend sendOrdinary at h
    split_ifs at h with hord hfull hbyp
    · obtain ⟨q, hq, h⟩ := withQueue_next h
      obtain rfl := Host.Outcome.next.inj h
      exact .buffered _ q hq hfull
    · obtain rfl := Host.Outcome.next.inj h
      exact .sent _ (trysendRefusal_none hnone) (by simpa using hfull)
    · obtain rfl := Host.Outcome.next.inj h
      exact .bypassed _
    · obtain rfl := Host.Outcome.next.inj h
      exact .answered _

/-- A request that only reads a software queue answers, or is refused (R113, R115 to R117). -/
theorem accessor_effect {reason : Option Reason} {q : Option Queue} {answer : Queue → Response} {i : Instr} {s t : State}
    (h : guarded reason s (withQueue q fun x => .next (respond (answer x) s)) = .next t) : Effect s i t := by
  obtain ⟨r, -, rfl⟩ | ⟨-, h⟩ := guarded_next h
  · exact .refused _
  · obtain ⟨x, -, h⟩ := withQueue_next h
    obtain rfl := Host.Outcome.next.inj h
    exact .answered _

theorem execRecv_effect {s t : State} (h : execRecv s = .next t) : Effect s .recv t := by
  obtain ⟨r, -, rfl⟩ | ⟨-, h⟩ := guarded_next h
  · exact .refused _
  · obtain ⟨q, hq, h⟩ := withQueue_next h
    obtain rfl := Host.Outcome.next.inj h
    obtain ⟨-, htake⟩ | ⟨f, rest, hi, htake⟩ := takeRx_cases q s
    · simp only [receive, htake]
      exact .answered _
    · simp only [receive, htake]
      exact .taken q f rest s.out (.frame f) hq hi

theorem execDispatch_effect {obs : Byte} {s t : State} (h : execDispatch obs s = .next t) : Effect s (.dispatch obs) t := by
  obtain ⟨r, -, rfl⟩ | ⟨-, h⟩ := guarded_next h
  · exact .refused _
  · obtain ⟨q, hq, h⟩ := withQueue_next h
    obtain rfl := Host.Outcome.next.inj h
    obtain ⟨-, htake⟩ | ⟨f, rest, hi, htake⟩ := takeRx_cases q s
    · simp only [dispatchFrame, htake]
      exact .answered _
    · simp only [dispatchFrame, htake, foldl_emit]
      exact .taken q f rest _ (.bool true) hq hi

theorem execIrq_effect {s t : State} (h : execIrq s = .next t) : Effect s .irq t := by
  obtain ⟨rq, hr, h⟩ := withQueue_next h
  obtain ⟨tq, ht, h⟩ := withQueue_next h
  obtain rfl := Host.Outcome.next.inj h
  exact .served rq tq hr ht

/-- Whatever an instruction answers is one of the ten effects. -/
theorem exec_effect {i : Instr} {s t : State} (h : exec i s = .next t) : Effect s i t := by
  cases i with
  | write a p =>
    obtain rfl := Host.Outcome.next.inj h
    exact .accessed (.wr a.toNat p) s.resp rfl
  | read a w =>
    obtain rfl := Host.Outcome.next.inj h
    exact .accessed (.rd a.toNat w) s.resp rfl
  | reset =>
    obtain rfl := Host.Outcome.next.inj h
    exact .accessed .reset s.resp rfl
  | rd32 a =>
    obtain rfl := Host.Outcome.next.inj h
    exact .accessed (.rd a.toNat .four) _ rfl
  | wr32 a v =>
    obtain rfl := Host.Outcome.next.inj h
    exact .accessed (.wr a.toNat (.word v)) _ rfl
  | rd8 a =>
    obtain rfl := Host.Outcome.next.inj h
    exact .accessed (.rd a.toNat .one) _ rfl
  | wr8 a v =>
    obtain rfl := Host.Outcome.next.inj h
    exact .accessed (.wr a.toNat (.byte v)) _ rfl
  | devreset =>
    obtain rfl := Host.Outcome.next.inj h
    exact .accessed .reset _ rfl
  | setrate r => exact execSetrate_effect h
  | readerr =>
    obtain rfl := Host.Outcome.next.inj h
    exact .accessed (.rd s.par.cm.aTrec.toNat .four) _ rfl
  | configure conf => exact execConfigure_effect h
  | trysend f => exact execTrysend_effect h
  | avail => exact accessor_effect h
  | recv => exact execRecv_effect h
  | dispatch obs => exact execDispatch_effect h
  | txqSize => exact accessor_effect h
  | txqCount => exact accessor_effect h
  | txqPeak => exact accessor_effect h
  | irq => exact execIrq_effect h

end Sys2Proof.Machine
end

section
/-! The branches of the operations that decide on what they read (R111, R112, R123, R124), each with its whole result. -/

namespace Sys2Proof.Machine

theorem sendDirect_cases (f : Frame) (s : State) :
    let st := notFull s.par .fg .txf (hwWrite s.par .fg .txf f s.bus)
    sendDirect f s = { s with bus := st.2, resp := some (.bool true) } ∨
    sendDirect f s =
      { s with txHwFull := true, bus := setIE s.par .fg .txf true st.2, resp := some (.bool true) } := by
  intro st
  by_cases hspace : st.1 = true
  · exact .inl (if_pos hspace)
  · exact .inr (if_neg hspace)

theorem sendBypass_cases (f : Frame) (s : State) :
    let st := notFull s.par .fg .txq s.bus
    sendBypass f s = { s with bus := hwWrite s.par .fg .txq f st.2, resp := some (.bool true) } ∨
    sendBypass f s = { s with bus := st.2, resp := some (.bool false) } ∨
    sendBypass f s = { s with resp := some (.bool false) } := by
  intro st
  by_cases hen : s.bypassEn = true
  · by_cases hspace : st.1 = true
    · exact .inl ((if_pos hen).trans (if_pos hspace))
    · exact .inr (.inl ((if_pos hen).trans (if_neg hspace)))
  · exact .inr (.inr (if_neg hen))

/-- The receive handler (R122, R123): off; the queue full before; the queue full after one frame; or with space left. -/
theorem rxHandler_cases (P : Params) (st : Word) (q : Queue) (b : Bus) :
    let r := hwRead P .isr b
    let q' := (enq q r.1).2
    rxHandler P st q b = (q, b) ∨
    (queueFull q = true ∧ rxHandler P st q b = (q, setIE P .isr .rxf false b)) ∨
    (queueFull q' = true ∧ rxHandler P st q b = (q', setIE P .isr .rxf false r.2)) ∨
    (queueFull q = false ∧ queueFull q' = false ∧ rxHandler P st q b = (q', r.2)) := by
  intro r q'
  by_cases hbit : st.getLsbD P.cm.bRxne.val = true
  · have hon : rxHandler P st q b = rxDrain P q b := if_pos hbit
    rw [hon]
    by_cases hfull : queueFull q = true
    · exact .inr (.inl ⟨hfull, if_pos hfull⟩)
    · by_cases hfull' : queueFull q' = true
      · exact .inr (.inr (.inl ⟨hfull', (if_neg hfull).trans (if_pos hfull')⟩))
      · exact .inr (.inr (.inr ⟨by simpa using hfull, by simpa using hfull', (if_neg hfull).trans (if_neg hfull')⟩))
  · exact .inl (if_neg hbit)

/-- The transmit handler (R122, R124): off; nothing waiting; or the head frame goes to the chip. -/
theorem txHandler_cases (P : Params) (st : Word) (q : Queue) (full : Bool) (b : Bus) :
    txHandler P st q full b = (q, full, b) ∨
    (q.items = [] ∧ txHandler P st q full b = (q, false, setIE P .isr .txf false b)) ∨
    ∃ f rest, q.items = f :: rest ∧
      txHandler P st q full b = ({ q with items := rest }, full, hwWrite P .isr .txf f b) := by
  by_cases hbit : st.getLsbD P.cm.bTxnf.val = true
  · have hon : txHandler P st q full b = txDrain P q full b := if_pos hbit
    rw [hon]
    obtain ⟨hi, hd⟩ | ⟨f, rest, hi, hd⟩ := deq_cases q
    · exact .inr (.inl ⟨hi, by simp only [txDrain, hd]⟩)
    · exact .inr (.inr ⟨f, rest, hi, by simp only [txDrain, hd]⟩)
  · exact .inl (if_neg hbit)

end Sys2Proof.Machine
end

section
/-! What every transaction keeps of the bus, every operation and every instruction keeps: the core reaches the chip by
transactions only (R50, R83). -/

namespace Sys2Proof.Machine

/-- A property of the bus that one transaction, whatever its access, keeps. -/
def KeptByTxn (P : Params) (I : Bus → Prop) : Prop := ∀ (is : Issuer) (acc : Access) (b : Bus), I b → I (txn P is acc b).2

namespace KeptByTxn

variable {P : Params} {I : Bus → Prop} {b : Bus}

theorem writeObj (hI : KeptByTxn P I) (is : Issuer) (p : Nat) (o : FrameObj) (h : I b) : I (writeObj P is p o b) :=
  hI _ _ _ (hI _ _ _ (hI _ _ _ (hI _ _ _ h)))

theorem readObj (hI : KeptByTxn P I) (is : Issuer) (p : Nat) (h : I b) : I (readObj P is p b).2 :=
  hI _ _ _ (hI _ _ _ (hI _ _ _ (hI _ _ _ h)))

theorem setIE (hI : KeptByTxn P I) (is : Issuer) (f : IeFifo) (on : Bool) (h : I b) : I (setIE P is f on b) := hI _ _ _ h

theorem notFull (hI : KeptByTxn P I) (is : Issuer) (f : Fifo) (h : I b) : I (notFull P is f b).2 := hI _ _ _ h

theorem hwWrite (hI : KeptByTxn P I) (is : Issuer) (f : Fifo) (fr : Frame) (h : I b) : I (hwWrite P is f fr b) :=
  hI _ _ _ (hI.writeObj is _ _ (hI _ _ _ h))

theorem hwRead (hI : KeptByTxn P I) (is : Issuer) (h : I b) : I (hwRead P is b).2 :=
  hI _ _ _ (hI.readObj is _ (hI _ _ _ h))

theorem programFilters (hI : KeptByTxn P I) (fs : List FilterEntry) (k : Nat) (h : I b) : I (programFilters P k fs b) := by
  induction fs generalizing k b with
  | nil => exact h
  | cons f rest ih => exact ih (k + 1) (hI _ _ _ (hI _ _ _ (hI _ _ _ h)))

theorem programEnables (hI : KeptByTxn P I) (h : I b) : I (programEnables P b) := hI _ _ _ (hI _ _ _ (hI _ _ _ h))

theorem rxHandler (hI : KeptByTxn P I) (st : Word) (q : Queue) (h : I b) : I (rxHandler P st q b).2 := by
  obtain hr | ⟨-, hr⟩ | ⟨-, hr⟩ | ⟨-, -, hr⟩ := rxHandler_cases P st q b <;> rw [hr]
  · exact h
  · exact hI.setIE _ _ _ h
  · exact hI.setIE _ _ _ (hI.hwRead _ h)
  · exact hI.hwRead _ h

theorem txHandler (hI : KeptByTxn P I) (st : Word) (q : Queue) (full : Bool) (h : I b) :
    I (txHandler P st q full b).2.2 := by
  obtain hr | ⟨-, hr⟩ | ⟨f, rest, -, hr⟩ := txHandler_cases P st q full b <;> rw [hr]
  · exact h
  · exact hI.setIE _ _ _ h
  · exact hI.hwWrite _ _ _ h

theorem ackAll (hI : KeptByTxn P I) (bits : List (Fin 32)) (h : I b) : I (ackAll P bits b) := by
  induction bits generalizing b with
  | nil => exact h
  | cons i rest ih => exact ih (hI _ _ _ h)

end KeptByTxn

/-- A bus property that transactions and rate changes keep holds after an instruction if it held before. -/
theorem Effect.keeps_bus {i : Instr} {s t : State} {I : Bus → Prop} (h : Effect s i t) (hI : KeptByTxn s.par I)
    (hrate : ∀ b r, I b → I { b with rate := r }) (hs : I s.bus) : I t.bus := by
  cases h with
  | refused r => exact hs
  | answered r => exact hs
  | accessed acc resp raw => exact hI _ _ _ hs
  | rated r => exact hrate _ _ hs
  | loaded conf admitted => exact hI.programEnables (hI.programFilters _ _ hs)
  | buffered f q queue full => exact hs
  | sent f ready space =>
    obtain hr | hr := sendDirect_cases f s <;> rw [hr]
    · exact hI.notFull _ _ (hI.hwWrite _ _ _ hs)
    · exact hI.setIE _ _ _ (hI.notFull _ _ (hI.hwWrite _ _ _ hs))
  | bypassed f =>
    obtain hr | hr | hr := sendBypass_cases f s <;> rw [hr]
    · exact hI.hwWrite _ _ _ (hI.notFull _ _ hs)
    · exact hI.notFull _ _ hs
    · exact hs
  | taken q f rest out r queue head =>
    show I (if _ then _ else _)
    split_ifs
    · exact hI.setIE _ _ _ hs
    · exact hs
  | served rq tq rx tx => exact hI.ackAll _ (hI.txHandler _ _ _ (hI.rxHandler _ _ (hI _ _ _ hs)))

end Sys2Proof.Machine
end

section
/-! What an instruction that is no admitted `CONFIGURE` leaves of the core (R24, R95, R133, R142). -/

namespace Sys2Proof.Machine

/-- The queue, where there is one, is within its bounds (R21). -/
def QueueBounded (o : Option Queue) : Prop := ∀ q, o = some q → queueOk q = true

/-- From `s` to `t` the fixed part, the phase and the port stay; queues stay within their bounds, no pass is left running, and
an unconfigured core's full flag stays. -/
structure CoreKept (s t : State) : Prop where
  fixed : fixedPart t = fixedPart s
  ready : t.ready = s.ready
  port  : t.port = s.port
  idle  : s.isrBusy = false → t.isrBusy = false
  full  : s.ready = false → s.txqSw = none → t.txHwFull = s.txHwFull
  txq   : QueueBounded s.txqSw → QueueBounded t.txqSw
  rxq   : QueueBounded s.rxqSw → QueueBounded t.rxqSw

theorem queueBounded_some {q : Queue} : QueueBounded (some q) ↔ queueOk q = true := by simp [QueueBounded]

/-- Everything outside the core may change: bus, refusal mark, output, response. -/
theorem CoreKept.of_outside (s : State) (b : Bus) (refused : Bool) (out : List OutEvent) (resp : Option Response) :
    CoreKept s { s with bus := b, refused := refused, out := out, resp := resp } :=
  ⟨rfl, rfl, rfl, id, fun _ _ => rfl, id, id⟩

theorem removeHead_keeps_bounds {q : Queue} {f : Frame} {rest : List Frame} (head : q.items = f :: rest)
    (h : queueOk q = true) : queueOk { q with items := rest } = true :=
  (deq_keeps_bounds q _ f (by simp [deq, head]) h).1

theorem rxHandler_queue (P : Params) (st : Word) (q : Queue) (b : Bus) :
    (rxHandler P st q b).1.cap = q.cap ∧ (queueOk q = true → queueOk (rxHandler P st q b).1 = true) := by
  have henq := fun f => And.intro (enq_cap q f) (enq_keeps_bounds q f)
  obtain hr | ⟨-, hr⟩ | ⟨-, hr⟩ | ⟨-, -, hr⟩ := rxHandler_cases P st q b <;> rw [hr]
  · exact ⟨rfl, id⟩
  · exact ⟨rfl, id⟩
  · exact henq _
  · exact henq _

theorem txHandler_queue (P : Params) (st : Word) (q : Queue) (full : Bool) (b : Bus) :
    (txHandler P st q full b).1.cap = q.cap ∧ (queueOk q = true → queueOk (txHandler P st q full b).1 = true) := by
  obtain hr | ⟨-, hr⟩ | ⟨f, rest, head, hr⟩ := txHandler_cases P st q full b <;> rw [hr]
  · exact ⟨rfl, id⟩
  · exact ⟨rfl, id⟩
  · exact ⟨rfl, removeHead_keeps_bounds head⟩

theorem servicePass_coreKept {s : State} {rq tq : Queue} (rx : s.rxqSw = some rq) (tx : s.txqSw = some tq) :
    CoreKept s (leaveIsr (servicePass rq tq (enterIsr s))) := by
  let st := memRead32 s.par .isr s.par.cm.aInt.toNat s.bus
  have hrx := rxHandler_queue s.par st.1 rq st.2
  have htx := txHandler_queue s.par st.1 tq s.txHwFull (rxHandler s.par st.1 rq st.2).2
  refine ⟨?_, rfl, rfl, fun _ => rfl, fun _ hnone => by simp [tx] at hnone, fun hb => ?_, fun hb => ?_⟩
  · simp only [fixedPart, rx, tx, Option.map_some, ← hrx.1, ← htx.1]
    rfl
  · exact queueBounded_some.2 (htx.2 (hb tq tx))
  · exact queueBounded_some.2 (hrx.2 (hb rq rx))

/-- Every effect but an admitted `CONFIGURE` keeps the core. -/
theorem Effect.coreKept_or_loaded {i : Instr} {s t : State} (h : Effect s i t) :
    CoreKept s t ∨ ∃ conf, i = .configure conf ∧ configureRefusal s.ready conf = none ∧
      t = respond .done (configured (cfgOf conf) s) := by
  cases h with
  | refused r => exact .inl (.of_outside s _ _ _ _)
  | answered r => exact .inl (.of_outside s _ _ _ _)
  | accessed acc resp raw => exact .inl (.of_outside s _ _ _ _)
  | rated r => exact .inl (.of_outside s _ _ _ _)
  | loaded conf admitted => exact .inr ⟨conf, rfl, admitted, rfl⟩
  | buffered f q queue full =>
    refine .inl ⟨?_, rfl, rfl, id, fun _ _ => rfl, fun hb => ?_, id⟩
    · simp [sendBuffered, fixedPart, queue]
    · exact queueBounded_some.2 (enq_keeps_bounds q f (hb q queue))
  | sent f ready space =>
    obtain hr | hr := sendDirect_cases f s <;> rw [hr]
    · exact .inl (.of_outside s _ _ _ _)
    · exact .inl ⟨rfl, rfl, rfl, id, fun hnr => by simp [ready] at hnr, id, id⟩
  | bypassed f =>
    obtain hr | hr | hr := sendBypass_cases f s <;> rw [hr]
    · exact .inl (.of_outside s _ _ _ _)
    · exact .inl (.of_outside s _ _ _ _)
    · exact .inl (.of_outside s _ _ _ _)
  | taken q f rest out r queue head =>
    refine .inl ⟨?_, rfl, rfl, id, fun _ _ => rfl, id, fun hb => ?_⟩
    · simp [fixedPart, queue]
    · exact queueBounded_some.2 (removeHead_keeps_bounds head (hb q queue))
  | served rq tq rx tx => exact .inl (servicePass_coreKept rx tx)

theorem exec_keeps_par {i : Instr} {s t : State} (h : exec i s = .next t) : t.par = s.par := by
  obtain hk | ⟨conf, -, -, rfl⟩ := (exec_effect h).coreKept_or_loaded
  · exact congrArg FixedPart.par hk.fixed
  · rfl

theorem exec_keeps_port {i : Instr} {s t : State} (h : exec i s = .next t) : t.port = s.port := by
  obtain hk | ⟨conf, -, -, rfl⟩ := (exec_effect h).coreKept_or_loaded
  · exact hk.port
  · rfl

/-- Settles O40: of the effects only an admitted `CONFIGURE` writes the fixed part, and a ready core refuses it. -/
theorem configurationIsFixed : Obligations.ConfigurationIsFixed := by
  intro i s t hready h
  obtain hk | ⟨conf, -, admitted, -⟩ := (exec_effect h).coreKept_or_loaded
  · exact ⟨hk.ready.trans hready, hk.fixed⟩
  · simp [(configureRefusal_none admitted).1] at hready

end Sys2Proof.Machine
end

section
/-! The step as an induction principle: what the scheduler, the environment, a pass and the requests keep, a step keeps
(R51, R52). -/

namespace Sys2Proof.Machine

/-- A property of states that every part of a step keeps. -/
structure StepInvariant (I : State → Prop) : Prop where
  sched   : ∀ s ag tk, I s → I { s with agenda := ag, tick := tk }
  dev     : ∀ s ev, I s → I (runDev ev s)
  pass    : ∀ s t, I s → exec .irq s = .next t → I t
  request : ∀ s t item rest i, I s → s.port = item :: rest → decode item = .ok i →
    exec i { s with port := rest } = .next t → I t
  reserved : ∀ s item rest, I s → s.port = item :: rest → I (raiseRefused .reservedCode { s with port := rest })

theorem StepInvariant.step {I : State → Prop} (hI : StepInvariant I) {s t : State} (hs : I s) (h : step s = .next t) :
    I t := by
  obtain ⟨ag, tk, hturn⟩ := nextTurn_frame s
  have hs' : I (nextTurn s).2 := hturn ▸ hI.sched s ag tk hs
  have hport : (nextTurn s).2.port = s.port := by rw [hturn]
  obtain ⟨ev, -, rfl⟩ | rfl | ⟨-, -, h⟩ | ⟨item, rest, i, hp, hd, h⟩ | ⟨item, rest, hp, -, rfl⟩ := step_next_cases h
  · exact hI.dev _ ev hs'
  · exact hs'
  · exact hI.pass _ _ hs' h
  · exact hI.request _ _ item rest i hs' (hport.trans hp) hd h
  · exact hI.reserved _ item rest hs' (hport.trans hp)

/-- No step changes the parameters (R8). -/
theorem step_keeps_par {s t : State} (h : step s = .next t) : t.par = s.par :=
  StepInvariant.step (I := fun x => x.par = s.par)
    { sched := fun _ _ _ hs => hs
      dev := fun _ _ hs => hs
      pass := fun _ _ hs h => (exec_keeps_par h).trans hs
      request := fun _ _ _ _ _ hs _ _ h => (exec_keeps_par h).trans hs
      reserved := fun _ _ _ hs _ => hs } rfl h

/-- Settles O59: the parameters at reset are allowed ones, `CM_REF` is evaluated, and no step writes `par`. -/
theorem chipMapConstraintsHold : Obligations.ChipMapConstraintsHold := by
  refine ⟨(@Config.anyAllowed ⟨someAllowedParams⟩).allowed, by decide, fun s t h => ?_⟩
  have hpar := step_keeps_par h
  exact ⟨hpar, fun hc => hpar ▸ hc⟩

end Sys2Proof.Machine
end

section
/-! Sound states (R21, R26, R83, R127, R142). -/

namespace Sys2Proof.Machine

/-- The part of `Sound` that is about the bus (R26, R83). -/
def BusSound (b : Bus) : Prop := b.cs = false ∧ b.txnCount = b.hist.length ∧ chipMemOk b.chip = true

theorem busSound_releaseCs {b : Bus} {chip : Chip} {ev : BusEvent} (hcount : b.txnCount = b.hist.length)
    (hmem : chipMemOk chip = true) : BusSound (releaseCs b chip ev) :=
  ⟨rfl, by simp [hcount], hmem⟩

theorem busSound_keptByTxn (P : Params) : KeptByTxn P BusSound := by
  rintro is acc b ⟨-, hcount, hmem⟩
  cases acc with
  | rd a w =>
    rw [txn_rd]
    exact busSound_releaseCs hcount (chipRead_keeps_memories _ _ _ _ _ hmem)
  | wr a p =>
    rw [txn_wr]
    exact busSound_releaseCs hcount (chipWrite_keeps_memories _ _ _ _ hmem)
  | reset => exact busSound_releaseCs hcount hmem

theorem sound_iff (s : State) : Sound s ↔ BusSound s.bus ∧ s.isrBusy = false ∧ phaseOk s = true := by
  simp only [BusSound]
  tauto

/-- The two phases of a core (R142). -/
theorem phaseOk_iff (s : State) : phaseOk s = true ↔ Unconfigured s ∨
    ∃ c tq rq, s.cfg = some c ∧ s.txqSw = some tq ∧ s.rxqSw = some rq ∧ ConfiguredAs s c tq rq := by
  unfold phaseOk
  split
  · rename_i hc ht hr
    simp [hc]
  · rename_i c tq rq hc ht hr
    simp [hc, ht, hr]
  · rename_i hnone hsome
    constructor
    · simp
    · rintro (⟨-, hc, ht, hr, -⟩ | ⟨c, tq, rq, hc, ht, hr, -⟩)
      · exact absurd hr (hnone hc ht)
      · exact absurd hr (hsome c tq rq hc ht)

theorem CoreKept.unconfigured {s t : State} (hk : CoreKept s t) (h : Unconfigured s) : Unconfigured t := by
  obtain ⟨hready, hcfg, htx, hrx, hfull, hbyp, hsize, htab⟩ := h
  have hfix := hk.fixed
  simp only [fixedPart, FixedPart.mk.injEq, htx, hrx, Option.map_none, Option.map_eq_none_iff] at hfix
  obtain ⟨-, hcfg', hbyp', htab', hsize', htx', hrx'⟩ := hfix
  exact ⟨hk.ready.trans hready, hcfg'.trans hcfg, htx', hrx', (hk.full hready htx).trans hfull, hbyp'.trans hbyp,
    hsize'.trans hsize, htab'.trans htab⟩

theorem CoreKept.configuredAs {s t : State} {c : Cfg} {tq rq : Queue} (hk : CoreKept s t) (hc : s.cfg = some c)
    (ht : s.txqSw = some tq) (hr : s.rxqSw = some rq) (h : ConfiguredAs s c tq rq) :
    ∃ tq' rq', t.cfg = some c ∧ t.txqSw = some tq' ∧ t.rxqSw = some rq' ∧ ConfiguredAs t c tq' rq' := by
  obtain ⟨hready, htcap, hrcap, hone, hbyp, hsize, hle, htab, htok, hrok⟩ := h
  have hfix := hk.fixed
  simp only [fixedPart, FixedPart.mk.injEq, ht, hr, Option.map_some, Option.map_eq_some_iff] at hfix
  obtain ⟨-, hcfg', hbyp', htab', hsize', ⟨tq', ht', htcap'⟩, rq', hr', hrcap'⟩ := hfix
  have htok' := hk.txq (ht ▸ queueBounded_some.2 htok) tq' ht'
  have hrok' := hk.rxq (hr ▸ queueBounded_some.2 hrok) rq' hr'
  exact ⟨tq', rq', hcfg'.trans hc, ht', hr', hk.ready.trans hready, htcap'.trans htcap, hrcap'.trans hrcap, hone,
    hbyp'.trans hbyp, hsize'.trans hsize, hsize'.trans_le hle, htab'.trans htab, htok', hrok'⟩

theorem CoreKept.phaseOk {s t : State} (hk : CoreKept s t) (h : phaseOk s = true) : phaseOk t = true := by
  rw [phaseOk_iff] at h ⊢
  obtain h | ⟨c, tq, rq, hc, ht, hr, h⟩ := h
  · exact .inl (hk.unconfigured h)
  · obtain ⟨tq', rq', h'⟩ := hk.configuredAs hc ht hr h
    exact .inr ⟨c, tq', rq', h'⟩

/-- An admitted configuration operand with an encoding installs at most 32 callbacks (R94, R98). -/
theorem installedFilters_le {conf : ConfOperand} (hwf : conf.wellFormed = true) (hn : tooManyFilters conf.nflt = false) :
    (installedFilters (cfgOf conf)).length ≤ 32 := by
  have hlen : conf.entries.length = filterCount conf.nflt := by simpa [ConfOperand.wellFormed] using hwf
  by_cases hff : conf.nflt = 0xFF
  · simp [installedFilters, cfgOf, hff]
  · have hle : conf.nflt.toNat ≤ 32 := (by simpa [tooManyFilters] using hn : conf.nflt ≠ 0xFF → _) hff
    simp only [installedFilters, cfgOf, if_neg hff, Option.getD_some, List.length_map, hlen, filterCount]
    exact hle

theorem configured_phaseOk {s : State} {conf : ConfOperand} (hwf : conf.wellFormed = true)
    (admitted : configureRefusal s.ready conf = none) : phaseOk (configured (cfgOf conf) s) = true := by
  obtain ⟨-, hcap, hn⟩ := configureRefusal_none admitted
  have hone : 1 ≤ conf.rxCap.toNat := by
    have : conf.rxCap.toNat ≠ 0 := fun h => hcap (BitVec.eq_of_toNat_eq (by simpa using h))
    omega
  exact (phaseOk_iff _).2 (.inr ⟨_, _, _, rfl, rfl, rfl, rfl, rfl, rfl, hone, rfl, rfl, installedFilters_le hwf hn, rfl,
    emptyQueue_ok _, emptyQueue_ok _⟩)

/-- A configuration operand the decoder gives lists the entries its count announces (R68). -/
theorem decodeConf_wellFormed {ops : List Byte} {c : ConfOperand} (h : decodeConf ops = some c) : c.wellFormed = true := by
  unfold decodeConf at h
  split at h
  · split at h
    · split_ifs at h with hlen
      obtain rfl := Option.some.inj h
      simpa [ConfOperand.wellFormed] using hlen
    · cases h
  · cases h

end Sys2Proof.Machine
end

section
/-! Sound states: the decoder hands on only well-formed configurations, so every instruction a step runs keeps a state
sound. -/

namespace Sys2Proof.Machine

theorem decodeAddrOp_ok {mk : Half → Instr} {m : String} {ops : List Byte} {i : Instr} (h : decodeAddrOp mk m ops = .ok i) :
    ∃ a, i = mk a := by
  unfold decodeAddrOp at h
  split at h
  · exact ⟨_, (Except.ok.inj h).symm⟩
  · cases h

theorem decodeByteOp_ok {mk : Byte → Instr} {m : String} {ops : List Byte} {i : Instr} (h : decodeByteOp mk m ops = .ok i) :
    ∃ b, i = mk b := by
  unfold decodeByteOp at h
  split at h
  · exact ⟨_, (Except.ok.inj h).symm⟩
  · cases h

theorem decodeBare_ok {j : Instr} {m : String} {ops : List Byte} {i : Instr} (h : decodeBare j m ops = .ok i) : i = j := by
  unfold decodeBare at h
  split at h
  · exact (Except.ok.inj h).symm
  · cases h

/-- A decoded `CONFIGURE` comes from its own operand bytes (R65, R68). -/
theorem decodeOperands_configure {code : Byte} {ops : List Byte} {c : ConfOperand}
    (h : decodeOperands code ops = .ok (.configure c)) : decodeConf ops = some c := by
  unfold decodeOperands at h
  split at h
  -- the codes in the order of R65: 0x10 is the eighth, the sixteenth case is every reserved code
  case h_8 =>
    split at h
    · rename_i c' hc
      cases h
      exact hc
    · cases h
  case h_1 | h_3 => obtain ⟨a, ha⟩ := decodeAddrOp_ok h; cases ha
  case h_6 | h_12 => obtain ⟨b, hb⟩ := decodeByteOp_ok h; cases hb
  case h_2 | h_4 | h_9 => split at h <;> cases h
  case h_16 => cases h
  all_goals cases decodeBare_ok h

theorem decodeCommand_ne_configure (w : BitVec 16) (payload : List Byte) (c : ConfOperand) :
    decodeCommand w payload ≠ .ok (.configure c) := by
  intro h
  unfold decodeCommand at h
  simp only at h
  split_ifs at h <;> split at h <;> cases h

theorem decode_configure_wellFormed {item : PortItem} {c : ConfOperand} (h : decode item = .ok (.configure c)) :
    c.wellFormed = true := by
  cases item with
  | host bytes =>
    cases bytes with
    | nil => cases h
    | cons code ops => exact decodeConf_wellFormed (decodeOperands_configure h)
  | wire bytes =>
    have h : decodeWire bytes = .ok (.configure c) := h
    unfold decodeWire at h
    split at h
    · exact absurd h (decodeCommand_ne_configure _ _ c)
    · cases h

theorem Effect.keeps_sound {i : Instr} {s t : State} (h : Effect s i t)
    (hwf : ∀ conf, i = .configure conf → conf.wellFormed = true) (hs : Sound s) : Sound t := by
  rw [sound_iff] at hs ⊢
  obtain ⟨hbus, hidle, hphase⟩ := hs
  refine ⟨h.keeps_bus (busSound_keptByTxn _) (fun _ _ hb => hb) hbus, ?_⟩
  obtain hk | ⟨conf, hi, admitted, rfl⟩ := h.coreKept_or_loaded
  · exact ⟨hk.idle hidle, hk.phaseOk hphase⟩
  · exact ⟨hidle, configured_phaseOk (hwf conf hi) admitted⟩

theorem runDev_sound {s : State} (ev : DevEvent) (hs : Sound s) : Sound (runDev ev s) := by
  obtain ⟨hcs, hidle, hcount, hmem, hphase⟩ := hs
  exact ⟨hcs, hidle, hcount, devStep_keeps_memories _ ev _ hmem, hphase⟩

theorem sound_stepInvariant : StepInvariant Sound where
  sched _ _ _ hs := hs
  dev _ ev hs := runDev_sound ev hs
  pass _ _ hs h := (exec_effect h).keeps_sound (by simp) hs
  request _ _ _ _ _ hs _ hd h :=
    (exec_effect h).keeps_sound (by rintro conf rfl; exact decode_configure_wellFormed hd) hs
  reserved _ _ _ hs _ := hs

/-- Settles O46: the bus part is kept by every transaction, the phase by every effect, and an admitted `CONFIGURE` opens the
second phase. -/
theorem stepKeepsSound : Obligations.StepKeepsSound := fun _ _ hs h => sound_stepInvariant.step hs h

end Sys2Proof.Machine
end

section
/-! The last byte the core wrote at an interrupt-enable register (R37): who writes there and who does not. -/

namespace Sys2Proof.Machine

section LastByte

variable (a : Addr) (P : Params) (is : Issuer) (x : Nat) (b : Bus)

theorem lastByte_txn_byte (v : Byte) :
    lastByte a (txn P is (.wr x (.byte v)) b).2.hist = if addr12 x = a then some v else lastByte a b.hist := by
  simp [txn_wr, lastByte]

/-- Only a byte write to the address itself changes the last byte there. -/
theorem lastByte_txn_other {acc : Access} (h : ∀ y v, acc = .wr y (.byte v) → addr12 y ≠ a) :
    lastByte a (txn P is acc b).2.hist = lastByte a b.hist := by
  cases acc with
  | rd y w => simp [txn_rd, lastByte]
  | wr y p =>
    cases p with
    | word v => simp [txn_wr, lastByte]
    | byte v => rw [lastByte_txn_byte, if_neg (h y v rfl)]
  | reset => simp [txn_reset, lastByte, evReset]

@[simp] theorem lastByte_memRead32 : lastByte a (memRead32 P is x b).2.hist = lastByte a b.hist :=
  lastByte_txn_other a P is b (by simp)

@[simp] theorem lastByte_memRead8 : lastByte a (memRead8 P is x b).2.hist = lastByte a b.hist :=
  lastByte_txn_other a P is b (by simp)

@[simp] theorem lastByte_memWrite32 (v : Word) : lastByte a (memWrite32 P is x v b).hist = lastByte a b.hist :=
  lastByte_txn_other a P is b (by simp)

theorem lastByte_memWrite8 (v : Byte) :
    lastByte a (memWrite8 P is x v b).hist = if addr12 x = a then some v else lastByte a b.hist :=
  lastByte_txn_byte a P is x b v

@[simp] theorem lastByte_writeObj (o : FrameObj) : lastByte a (writeObj P is x o b).hist = lastByte a b.hist := by
  simp [writeObj]

@[simp] theorem lastByte_readObj : lastByte a (readObj P is x b).2.hist = lastByte a b.hist := by simp [readObj]

end LastByte

/-- The register that holds the interrupt enable of a FIFO (R106). -/
abbrev ieCon (m : ChipMap) (f : IeFifo) : Addr := (fifoMap m (ieFifo f)).con

/-- No byte was written to either enable register between `b` and `b'`, as far as the last bytes tell. -/
def SameIe (m : ChipMap) (b b' : Bus) : Prop := ∀ f, lastByte (ieCon m f) b'.hist = lastByte (ieCon m f) b.hist

theorem SameIe.trans {m : ChipMap} {b b' b'' : Bus} (h : SameIe m b b') (h' : SameIe m b' b'') : SameIe m b b'' :=
  fun f => (h' f).trans (h f)

section Separate

variable {P : Params} (hm : MapSeparate P.cm) (is : Issuer) (b : Bus)
include hm

theorem ieCon_notMem_otherBytes (f : IeFifo) : ieCon P.cm f ∉ otherBytes P.cm := by
  obtain ⟨-, hrxf, htxf, -⟩ := hm
  cases f with
  | rxf => exact hrxf
  | txf => exact htxf

/-- A byte write to an address the engine uses for something else leaves both enables. -/
theorem memWrite8_sameIe {x : Nat} (hx : addr12 x ∈ otherBytes P.cm) (v : Byte) : SameIe P.cm b (memWrite8 P is x v b) := by
  intro f
  have hne : addr12 x ≠ ieCon P.cm f := fun h => ieCon_notMem_otherBytes hm f (h ▸ hx)
  rw [lastByte_memWrite8, if_neg hne]

theorem advance_sameIe (f : Fifo) : SameIe P.cm b (advance P is f b) :=
  memWrite8_sameIe hm is b (by cases f <;> simp [otherBytes, fifoMap]) _

theorem hwWrite_sameIe (f : Fifo) (fr : Frame) : SameIe P.cm b (hwWrite P is f fr b) := fun g => by
  rw [hwWrite, advance_sameIe hm]
  simp [slot]

theorem hwRead_sameIe : SameIe P.cm b (hwRead P is b).2 := fun g => by
  rw [hwRead, advance_sameIe hm]
  simp [slot]

theorem ackAll_sameIe (bits : List (Fin 32)) (hbits : ∀ i ∈ bits, i ∈ statusBits P.cm) :
    SameIe P.cm b (ackAll P bits b) := by
  induction bits generalizing b with
  | nil => exact fun _ => rfl
  | cons i rest ih =>
    have hi : addr12 (ackAddr P.cm i) ∈ otherBytes P.cm :=
      List.mem_append_right _ (List.mem_map_of_mem (f := fun b => addr12 (ackAddr P.cm b)) (hbits i List.mem_cons_self))
    exact (memWrite8_sameIe hm .isr b hi _).trans (ih _ fun j hj => hbits j (List.mem_cons_of_mem _ hj))

omit hm in
theorem lastByte_setIE_same (f : IeFifo) (on : Bool) :
    lastByte (ieCon P.cm f) (setIE P is f on b).hist = some (ieByte P.cm f on) := by
  rw [setIE, lastByte_memWrite8, addr12_toNat, if_pos rfl]

theorem lastByte_setIE_other {f g : IeFifo} (hne : f ≠ g) (on : Bool) :
    lastByte (ieCon P.cm g) (setIE P is f on b).hist = lastByte (ieCon P.cm g) b.hist := by
  have hcon : ieCon P.cm f ≠ ieCon P.cm g := by
    match f, g with
    | .rxf, .txf => exact hm.1
    | .txf, .rxf => exact hm.1.symm
    | .rxf, .rxf | .txf, .txf => exact absurd rfl hne
  rw [setIE, lastByte_memWrite8, addr12_toNat, if_neg hcon]

end Separate

theorem notFull_sameIe (P : Params) (is : Issuer) (f : Fifo) (b : Bus) : SameIe P.cm b (notFull P is f b).2 :=
  fun _ => lastByte_memRead8 _ _ _ _ _

theorem ieCon_owned (m : ChipMap) (f : IeFifo) : ownedAddr m (ieCon m f) = true := by
  cases f <;> simp [ownedAddr, ieCon, ieFifo, fifoMap]

/-- A clean raw request writes no byte to an owned register (R85). -/
theorem rawAccess_byte_not_owned {m : ChipMap} {i : Instr} {x : Nat} {v : Byte} (clean : disturbs m i = false)
    (raw : rawAccess m i = some (.wr x (.byte v))) : ownedAddr m (addr12 x) = false := by
  cases i with
  | write a p =>
    cases raw
    rw [addr12_toNat]
    exact clean
  | wr8 a w =>
    cases raw
    exact clean
  | _ => cases raw

theorem rawAccess_sameIe {P : Params} {i : Instr} {acc : Access} (clean : disturbs P.cm i = false)
    (raw : rawAccess P.cm i = some acc) (is : Issuer) (b : Bus) : SameIe P.cm b (txn P is acc b).2 := by
  intro f
  refine lastByte_txn_other _ P is b ?_
  rintro y v rfl hy
  have hown := rawAccess_byte_not_owned clean raw
  rw [hy, ieCon_owned] at hown
  cases hown

end Sys2Proof.Machine
end

section
/-! The invariants INV1 to INV3 of the flow-control engine (R37). -/

namespace Sys2Proof.Machine

/-- INV1 and INV2: a waiting frame means a full flag, and the full flag is the transmit enable. -/
def TxAgrees (m : ChipMap) (q : Queue) (full : Bool) (b : Bus) : Prop :=
  (q.items ≠ [] → full = true) ∧ (full = true ↔ lastByte m.txf.con b.hist = some m.ieOnTxf)

/-- INV3: the receive enable is off exactly while the receive queue is full. -/
def RxAgrees (m : ChipMap) (q : Queue) (b : Bus) : Prop :=
  queueFull q = true ↔ lastByte m.rxf.con b.hist = some m.ieOffRxf

theorem flowInvariant_iff {s : State} {tq rq : Queue} (tx : s.txqSw = some tq) (rx : s.rxqSw = some rq) :
    FlowInvariant s ↔ TxAgrees s.par.cm tq s.txHwFull s.bus ∧ RxAgrees s.par.cm rq s.bus := by
  simp [FlowInvariant, txqWaiting, rxqIsFull, tx, rx, TxAgrees, RxAgrees, and_assoc]

theorem flowInvariant_of_agrees {s : State} {tq rq : Queue} (tx : s.txqSw = some tq) (rx : s.rxqSw = some rq)
    (htx : TxAgrees s.par.cm tq s.txHwFull s.bus) (hrx : RxAgrees s.par.cm rq s.bus) : FlowInvariant s :=
  (flowInvariant_iff tx rx).2 ⟨htx, hrx⟩

section Agrees

variable {P : Params} {q : Queue} {full : Bool} {b b' : Bus}

theorem TxAgrees.of_last (h : TxAgrees P.cm q full b)
    (hl : lastByte P.cm.txf.con b'.hist = lastByte P.cm.txf.con b.hist) : TxAgrees P.cm q full b' :=
  ⟨h.1, by rw [hl]; exact h.2⟩

theorem TxAgrees.of_sameIe (h : TxAgrees P.cm q full b) (hb : SameIe P.cm b b') : TxAgrees P.cm q full b' :=
  h.of_last (hb .txf)

theorem RxAgrees.of_last (h : RxAgrees P.cm q b)
    (hl : lastByte P.cm.rxf.con b'.hist = lastByte P.cm.rxf.con b.hist) : RxAgrees P.cm q b' := by
  rw [RxAgrees, hl]
  exact h

theorem RxAgrees.of_sameIe (h : RxAgrees P.cm q b) (hb : SameIe P.cm b b') : RxAgrees P.cm q b' := h.of_last (hb .rxf)

theorem txAgrees_enabled (is : Issuer) : TxAgrees P.cm q true (setIE P is .txf true b) := by
  have hl : lastByte P.cm.txf.con (setIE P is .txf true b).hist = some P.cm.ieOnTxf := lastByte_setIE_same is b .txf true
  exact ⟨fun _ => rfl, by simp [hl]⟩

theorem txAgrees_disabled (hm : MapSeparate P.cm) (is : Issuer) (empty : q.items = []) :
    TxAgrees P.cm q false (setIE P is .txf false b) := by
  have hl : lastByte P.cm.txf.con (setIE P is .txf false b).hist = some P.cm.ieOffTxf := lastByte_setIE_same is b .txf false
  obtain ⟨-, -, -, -, hbytes⟩ := hm
  exact ⟨fun h => absurd empty h, by simp [hl, hbytes.symm]⟩

theorem rxAgrees_enabled (hm : MapSeparate P.cm) (is : Issuer) (space : queueFull q = false) :
    RxAgrees P.cm q (setIE P is .rxf true b) := by
  have hl : lastByte P.cm.rxf.con (setIE P is .rxf true b).hist = some P.cm.ieOnRxf := lastByte_setIE_same is b .rxf true
  obtain ⟨-, -, -, hbytes, -⟩ := hm
  simp [RxAgrees, hl, hbytes, space]

theorem rxAgrees_disabled (is : Issuer) (full : queueFull q = true) : RxAgrees P.cm q (setIE P is .rxf false b) := by
  have hl : lastByte P.cm.rxf.con (setIE P is .rxf false b).hist = some P.cm.ieOffRxf :=
    lastByte_setIE_same is b .rxf false
  simp [RxAgrees, hl, full]

/-- The receive handler keeps INV3 (R123) and touches no transmit enable. -/
theorem rxHandler_agrees (hm : MapSeparate P.cm) (st : Word) (h : RxAgrees P.cm q b) :
    RxAgrees P.cm (rxHandler P st q b).1 (rxHandler P st q b).2 ∧
      lastByte P.cm.txf.con (rxHandler P st q b).2.hist = lastByte P.cm.txf.con b.hist := by
  have hread := hwRead_sameIe hm .isr b
  have hoff := fun b' => lastByte_setIE_other hm .isr b' (f := .rxf) (g := .txf) (by decide) false
  obtain hr | ⟨hfull, hr⟩ | ⟨hfull, hr⟩ | ⟨hspace, hspace', hr⟩ := rxHandler_cases P st q b <;> rw [hr]
  · exact ⟨h, rfl⟩
  · exact ⟨rxAgrees_disabled .isr hfull, hoff b⟩
  · exact ⟨rxAgrees_disabled .isr hfull, (hoff _).trans (hread .txf)⟩
  · refine ⟨RxAgrees.of_sameIe ?_ hread, hread .txf⟩
    rw [RxAgrees, hspace, Bool.false_eq_true, false_iff] at h
    simpa [RxAgrees, hspace'] using h

/-- The transmit handler keeps INV1 and INV2 (R124) and touches no receive enable. -/
theorem txHandler_agrees (hm : MapSeparate P.cm) (st : Word) (h : TxAgrees P.cm q full b) :
    TxAgrees P.cm (txHandler P st q full b).1 (txHandler P st q full b).2.1 (txHandler P st q full b).2.2 ∧
      lastByte P.cm.rxf.con (txHandler P st q full b).2.2.hist = lastByte P.cm.rxf.con b.hist := by
  obtain hr | ⟨hempty, hr⟩ | ⟨f, rest, hi, hr⟩ := txHandler_cases P st q full b <;> rw [hr]
  · exact ⟨h, rfl⟩
  · exact ⟨txAgrees_disabled hm .isr hempty, lastByte_setIE_other hm .isr b (f := .txf) (g := .rxf) (by decide) false⟩
  · have hwrite := hwWrite_sameIe hm .isr b .txf f
    have hfull : full = true := h.1 (by simp [hi])
    exact ⟨TxAgrees.of_sameIe ⟨fun _ => hfull, h.2⟩ hwrite, hwrite .rxf⟩

end Agrees

/-- INV1 to INV3 see only the enable registers of the bus. -/
theorem FlowInvariant.of_sameIe {s : State} {b : Bus} (h : FlowInvariant s) (hb : SameIe s.par.cm s.bus b)
    (resp : Option Response) : FlowInvariant { s with bus := b, resp := resp } := by
  obtain ⟨hwait, hfull, hrx⟩ := h
  have hsame : lastByte s.par.cm.txf.con b.hist = lastByte s.par.cm.txf.con s.bus.hist := hb .txf
  have hsame' : lastByte s.par.cm.rxf.con b.hist = lastByte s.par.cm.rxf.con s.bus.hist := hb .rxf
  exact ⟨hwait, hsame ▸ hfull, hsame' ▸ hrx⟩

theorem pendingStatus_subset (m : ChipMap) (st : Word) : ∀ i ∈ pendingStatus m st, i ∈ statusBits m :=
  fun _ hi => (List.mem_filter.1 hi).1

theorem servicePass_flow {s : State} {rq tq : Queue} (hm : MapSeparate s.par.cm) (rx : s.rxqSw = some rq)
    (tx : s.txqSw = some tq) (hf : FlowInvariant s) : FlowInvariant (leaveIsr (servicePass rq tq (enterIsr s))) := by
  obtain ⟨htx, hrx⟩ := (flowInvariant_iff tx rx).1 hf
  let st := memRead32 s.par .isr s.par.cm.aInt.toNat s.bus
  have hst : SameIe s.par.cm s.bus st.2 := fun _ => lastByte_memRead32 _ _ _ _ _
  obtain ⟨hrx', hkeepTx⟩ := rxHandler_agrees hm st.1 (hrx.of_sameIe hst)
  obtain ⟨htx', hkeepRx⟩ := txHandler_agrees hm st.1 ((htx.of_sameIe hst).of_last hkeepTx)
  have hack := fun b => ackAll_sameIe hm b _ (pendingStatus_subset s.par.cm st.1)
  exact flowInvariant_of_agrees rfl rfl (htx'.of_sameIe (hack _)) ((hrx'.of_last hkeepRx).of_sameIe (hack _))

theorem taken_rxAgrees {P : Params} {q : Queue} {f : Frame} {rest : List Frame} {b : Bus} (hm : MapSeparate P.cm)
    (head : q.items = f :: rest) (bound : q.items.length ≤ q.cap) (h : RxAgrees P.cm q b) :
    RxAgrees P.cm { q with items := rest } (if q.items.length = q.cap then setIE P .fg .rxf true b else b) := by
  have hspace : queueFull { q with items := rest } = false := by
    simp only [head, List.length_cons] at bound
    simp [queueFull]
    omega
  split_ifs with hfull
  · exact rxAgrees_enabled hm .fg hspace
  · rw [RxAgrees, queueFull_iff, iff_false_left hfull] at h
    simpa [RxAgrees, hspace] using h

/-- On a ready core every effect of a clean instruction keeps INV1 to INV3. -/
theorem Effect.keeps_flow {i : Instr} {s t : State} {tq rq : Queue} (h : Effect s i t) (hm : MapSeparate s.par.cm)
    (clean : disturbs s.par.cm i = false) (hready : s.ready = true) (tx : s.txqSw = some tq) (rx : s.rxqSw = some rq)
    (bound : rq.items.length ≤ rq.cap) (hf : FlowInvariant s) : FlowInvariant t := by
  obtain ⟨htx, hrx⟩ := (flowInvariant_iff tx rx).1 hf
  cases h with
  | refused r => exact hf
  | answered r => exact hf
  | accessed acc resp raw => exact hf.of_sameIe (rawAccess_sameIe clean raw _ _) _
  | rated r => exact hf
  | loaded conf admitted => simp [(configureRefusal_none admitted).1] at hready
  | buffered f q queue full => exact flowInvariant_of_agrees rfl rx ⟨fun _ => full, htx.2⟩ hrx
  | sent f ready space =>
    have hwrite := (hwWrite_sameIe hm .fg s.bus .txf f).trans (notFull_sameIe s.par .fg .txf _)
    obtain hr | hr := sendDirect_cases f s <;> rw [hr]
    · exact hf.of_sameIe hwrite _
    · have hother := lastByte_setIE_other hm .fg (notFull s.par .fg .txf (hwWrite s.par .fg .txf f s.bus)).2
        (f := .txf) (g := .rxf) (by decide) true
      exact flowInvariant_of_agrees tx rx (txAgrees_enabled .fg) ((hrx.of_sameIe hwrite).of_last hother)
  | bypassed f =>
    have hstatus := notFull_sameIe s.par .fg .txq s.bus
    obtain hr | hr | hr := sendBypass_cases f s <;> rw [hr]
    · exact hf.of_sameIe (hstatus.trans (hwWrite_sameIe hm _ _ _ _)) _
    · exact hf.of_sameIe hstatus _
    · exact hf
  | taken q f rest out r queue head =>
    obtain rfl : rq = q := Option.some.inj (rx.symm.trans queue)
    refine flowInvariant_of_agrees tx rfl (htx.of_last ?_) (taken_rxAgrees hm head bound hrx)
    show lastByte _ (if _ then _ else _ : Bus).hist = _
    split_ifs
    · exact lastByte_setIE_other hm .fg s.bus (f := .rxf) (g := .txf) (by decide) true
    · rfl
  | served rq' tq' rx' tx' => exact servicePass_flow hm rx' tx' hf

/-- `CONFIGURE` sets the enables the way INV1 to INV3 ask (R99), whatever was written before. -/
theorem configured_flow {s : State} {conf : ConfOperand} (hm : MapSeparate s.par.cm)
    (admitted : configureRefusal s.ready conf = none) : FlowInvariant (configured (cfgOf conf) s) := by
  obtain ⟨-, hcap, -⟩ := configureRefusal_none admitted
  have hspace : queueFull (emptyQueue conf.rxCap.toNat) = false := by
    have : conf.rxCap.toNat ≠ 0 := fun h => hcap (BitVec.eq_of_toNat_eq (by simpa using h))
    simpa [queueFull, emptyQueue] using this.symm
  have hlast := fun b v => memWrite8_sameIe hm .fg b (x := s.par.cm.aIntIe.toNat) (by simp [otherBytes]) v
  have hother := fun b => lastByte_setIE_other hm .fg b (f := .txf) (g := .rxf) (by decide) false
  refine flowInvariant_of_agrees rfl rfl ?_ ?_
  · exact (txAgrees_disabled hm .fg rfl).of_sameIe (hlast _ _)
  · exact ((rxAgrees_enabled hm .fg hspace).of_last (hother _)).of_sameIe (hlast _ _)

/-- What a clean instruction that a step runs keeps of a flow-sound state. -/
theorem exec_keeps_flowSound {i : Instr} {s t : State} (hwf : ∀ conf, i = .configure conf → conf.wellFormed = true)
    (clean : disturbs s.par.cm i = false) (hs : FlowSound s) (h : exec i s = .next t) : FlowSound t := by
  obtain ⟨hm, hport, hsound, hflow⟩ := hs
  have hpar := exec_keeps_par h
  have hport' : PortClean t := by rw [PortClean, exec_keeps_port h, hpar]; exact hport
  refine ⟨hpar ▸ hm, hport', (exec_effect h).keeps_sound hwf hsound, fun hready => ?_⟩
  obtain hk | ⟨conf, -, admitted, rfl⟩ := (exec_effect h).coreKept_or_loaded
  · have hready' : s.ready = true := hk.ready.symm.trans hready
    obtain ⟨-, -, hphase⟩ := (sound_iff s).1 hsound
    obtain ⟨hnot, -⟩ | ⟨c, tq, rq, -, tx, rx, -, -, -, -, -, -, -, -, -, hrok⟩ := (phaseOk_iff s).1 hphase
    · simp [hnot] at hready'
    · obtain ⟨hcount, hpeak⟩ := (queueOk_iff rq).1 hrok
      exact (exec_effect h).keeps_flow hm clean hready' tx rx (hcount.trans hpeak) (hflow hready')
  · exact configured_flow hm admitted

/-- A clean port stays clean when its head is taken, and the head disturbs nothing. -/
theorem portClean_cons {s : State} {item : PortItem} {rest : List PortItem} (h : PortClean s) (hp : s.port = item :: rest) :
    PortClean { s with port := rest } ∧ ∀ i, decode item = .ok i → disturbs s.par.cm i = false := by
  simp only [PortClean, hp, List.all_cons, Bool.and_eq_true] at h
  refine ⟨h.2, fun i hd => ?_⟩
  have hclean := h.1
  simp only [cleanItem, hd] at hclean
  simpa using hclean

theorem flowSound_stepInvariant : StepInvariant FlowSound where
  sched _ _ _ hs := hs
  dev _ ev hs := by
    obtain ⟨hm, hport, hsound, hflow⟩ := hs
    exact ⟨hm, hport, runDev_sound ev hsound, hflow⟩
  pass _ _ hs h := exec_keeps_flowSound (by simp) rfl hs h
  request s _ _ rest _ hs hp hd h := by
    obtain ⟨hm, hport, hsound, hflow⟩ := hs
    obtain ⟨hrest, hhead⟩ := portClean_cons hport hp
    have hs' : FlowSound { s with port := rest } := ⟨hm, hrest, hsound, hflow⟩
    exact exec_keeps_flowSound (s := { s with port := rest })
      (by rintro conf rfl; exact decode_configure_wellFormed hd) (hhead _ hd) hs' h
  reserved _ _ _ hs hp := by
    obtain ⟨hm, hport, hsound, hflow⟩ := hs
    exact ⟨hm, (portClean_cons hport hp).1, hsound, hflow⟩

/-- Settles O48: soundness with the last bytes at the two enable registers, which only `SetIE` and `CONFIGURE` write. -/
theorem stepKeepsFlowInvariants : Obligations.StepKeepsFlowInvariants :=
  fun _ _ hs h => flowSound_stepInvariant.step hs h

/-- Settles O49: nothing is waiting, marked full or written at core reset. -/
theorem resetHasFlowInvariants : Obligations.ResetHasFlowInvariants := by
  intro P hm
  have hsound : Sound { State.reset with par := P } := ⟨rfl, rfl, rfl, rfl, rfl⟩
  have hflow : FlowInvariant { State.reset with par := P } := by
    simp [FlowInvariant, txqWaiting, rxqIsFull, State.reset, lastByte]
  exact ⟨⟨hm, rfl, hsound, fun _ => hflow⟩, hflow⟩

end Sys2Proof.Machine
end

section
/-! The acknowledge byte (R125): one position differs from all others. -/

namespace Sys2Proof.Machine

theorem ackByte_writeBit_getLsbD {j : Nat} (hj : j < 8) (k : Nat) : (ackByte .writeBit j).getLsbD k = decide (j = k) := by
  have hbit : (BitVec.twoPow 8 j).getLsbD k = (decide (j < 8) && j == k) := BitVec.getLsbD_twoPow j k
  rwa [decide_eq_true hj, Bool.true_and] at hbit

theorem ackByte_writeZeroInBit_getLsbD {j k : Nat} (hj : j < 8) (hk : k < 8) :
    (ackByte .writeZeroInBit j).getLsbD k = !decide (j = k) := by
  have hnot : ackByte .writeZeroInBit j = ~~~(ackByte .writeBit j) := rfl
  rw [hnot, BitVec.getLsbD_not, decide_eq_true hk, Bool.true_and, ackByte_writeBit_getLsbD hj]

/-- Settles O60: two different bits of one byte of the register have different positions in it. -/
theorem acknowledgeSparesFifoBits : Obligations.AcknowledgeSparesFifoBits := by
  intro m b r hm hb hr
  have hj : b.val % 8 < 8 := Nat.mod_lt _ (by decide)
  have hk : r.val % 8 < 8 := Nat.mod_lt _ (by decide)
  rw [ackByte_writeBit_getLsbD hj, ackByte_writeBit_getLsbD hj, ackByte_writeZeroInBit_getLsbD hj hj,
    ackByte_writeZeroInBit_getLsbD hj hk]
  refine ⟨by simp, by simp, fun haddr => ?_⟩
  have hne : b.val ≠ r.val := by
    obtain ⟨hrx, htx⟩ := statusBit_ne_fifoBits hm hb
    obtain rfl | rfl := hr
    · exact Fin.val_ne_of_ne hrx
    · exact Fin.val_ne_of_ne htx
  have hpos : b.val % 8 ≠ r.val % 8 := by
    simp only [ackAddr] at haddr
    omega
  simp [hpos]

end Sys2Proof.Machine
end

section
/-! One step, by whose turn it is (R51, R52). -/

namespace Sys2Proof.Machine

theorem nextTurn_cons {s : State} {turn : Turn} {ag : List Turn} (h : s.agenda = turn :: ag) :
    nextTurn s = (turn, { s with agenda := ag }) := by simp only [nextTurn, h]

theorem nextTurn_nil {s : State} (h : s.agenda = []) :
    nextTurn s = (Config.turn s.tick, { s with tick := s.tick + 1 }) := by simp only [nextTurn, h]

theorem fetch_nil {s : State} (h : s.port = []) : fetch s = none := by simp only [fetch, h]

theorem fetch_cons {s : State} {item : PortItem} {rest : List PortItem} (h : s.port = item :: rest) :
    fetch s = some (decode item, { s with port := rest }) := by simp only [fetch, h]

/-- A choice already made decides the step. -/
theorem step_cons {s : State} {turn : Turn} {ag : List Turn} (h : s.agenda = turn :: ag) :
    step s = runTurn turn { s with agenda := ag } := by rw [step, nextTurn_cons h]

theorem stepFg_idle {s : State} (h : s.port = []) : stepFg s = .next s := by simp only [stepFg, fetch_nil h]

theorem stepFg_request {s : State} {item : PortItem} {rest : List PortItem} {i : Instr} (hp : s.port = item :: rest)
    (hd : decode item = .ok i) : stepFg s = exec i { s with port := rest } := by
  simp only [stepFg, fetch_cons hp, hd]

theorem stepFg_reject {s : State} {item : PortItem} {rest : List PortItem} {why : Reject} (hp : s.port = item :: rest)
    (hd : decode item = .error why) : stepFg s = rejectRequest why { s with port := rest } := by
  simp only [stepFg, fetch_cons hp, hd]

/-- Settles O38: the agenda gives the foreground its turn and the port its request. -/
theorem stepRunsDecodedRequest : Obligations.StepRunsDecodedRequest := by
  intro s ag item rest i hag hport hdec
  calc step s = stepFg { s with agenda := ag } := step_cons hag
    _ = exec i { s with agenda := ag, port := rest } := stepFg_request hport hdec

/-- Settles O39: the free choice stands for a choice already made, and the two turns run on the state with the turn taken. -/
theorem otherTurnsLeaveTheCore : Obligations.OtherTurnsLeaveTheCore := by
  intro s ag
  refine ⟨fun hag => ?_, fun hag hport => ?_, fun ev hag => step_cons hag⟩
  · have hopen : step s = runTurn (Config.turn s.tick) { s with tick := s.tick + 1 } := by rw [step, nextTurn_nil hag]
    have hmade : step { s with agenda := [Config.turn s.tick], tick := s.tick + 1 } =
        runTurn (Config.turn s.tick) { s with agenda := [], tick := s.tick + 1 } := step_cons rfl
    rw [hopen, hmade, ← hag]
  · exact (step_cons hag).trans (stepFg_idle hport)

end Sys2Proof.Machine
end

section
/-! A raw access under `ENV_REF` (R59, R86 to R89): what it leaves of the chip, and the plain memory after a write. -/

namespace Sys2Proof.Machine

theorem chipRead_ref (m : ChipMap) (hist : List BusEvent) (a : Addr) (w : Width) (e : EnvRef) :
    (chipRead m hist a w (.ref e)).2 = .ref e := by cases w <;> rfl

/-- No read has a side effect on `ENV_REF` (R47, R59). -/
theorem txn_rd_keeps_ref {P : Params} {is : Issuer} {a : Nat} {w : Width} {b : Bus} {e : EnvRef} (h : b.chip = .ref e) :
    (txn P is (.rd a w) b).2.chip = .ref e := by
  rw [txn_rd, releaseCs_chip, h, chipRead_ref]

theorem memWrite32_ref {P : Params} {is : Issuer} {a : Nat} {v : Word} {b : Bus} {e : EnvRef} (h : b.chip = .ref e) :
    (memWrite32 P is a v b).chip = .ref (envWrite32 P.cm e (addr12 a) v) := by
  rw [memWrite32_eq, releaseCs_chip, h]
  rfl

theorem memWrite8_ref {P : Params} {is : Issuer} {a : Nat} {v : Byte} {b : Bus} {e : EnvRef} (h : b.chip = .ref e) :
    (memWrite8 P is a v b).chip = .ref (envWrite8 P e (addr12 a) v) := by
  rw [memWrite8_eq, releaseCs_chip, h]
  rfl

theorem memRead32_ref {P : Params} {is : Issuer} {a : Nat} {b : Bus} {e : EnvRef} (h : b.chip = .ref e) :
    (memRead32 P is a b).1 = envRead32 P.cm e (addr12 a) := by
  rw [memRead32_eq, h]
  rfl

/-- The chip sees the low 12 bits of an address (R40). -/
theorem addr12_toNat_mod (a : Nat) : (addr12 a).toNat = a % 4096 := BitVec.toNat_ofNat a 12

theorem memGet_memSet {w : Nat} {m : Memory w} (h : m.wf = true) (a x : Nat) (v : BitVec w) :
    memGet (memSet m a v) x = if x = a then v else memGet m x := by
  split
  · next heq => rw [heq, memGet_memSet_same m a v h]
  · next hne => exact memGet_memSet_other m a x v hne

/-- Settles O43: a write sets its address in the memory of its width and does not touch the other memory. -/
theorem rawWriteMemoryFrame : Obligations.RawWriteMemoryFrame := by
  intro s e hchip hwf32 hwf8
  refine ⟨fun addr v => ⟨_, _, rfl, memWrite32_ref hchip, fun x => ?_, fun _ => rfl⟩,
    fun addr v => ⟨_, _, rfl, memWrite8_ref hchip, fun x => ?_, fun _ => rfl⟩⟩
  · rw [← addr12_toNat_mod]
    exact memGet_memSet hwf32 _ x v
  · rw [← addr12_toNat_mod]
    exact memGet_memSet hwf8 _ x v

theorem noteIe_objs (r : FifoMap) (a : Addr) (v : Byte) (x : FifoEnv) : (noteIe r a v x).objs = x.objs := by
  unfold noteIe
  split <;> rfl

/-- A 32-bit write parks no object in the receive FIFO. -/
theorem envWrite32_rxf_objs (m : ChipMap) (e : EnvRef) (a : Addr) (v : Word) :
    (envWrite32 m e a v).rxf.objs = e.rxf.objs := noteIe_objs _ _ _ _

/-- With no object parked, a 32-bit read away from the registers that answer by themselves reads the plain memory (R59). -/
theorem envRead32_plain {m : ChipMap} {e : EnvRef} {a : Addr} (hempty : e.rxf.objs = [])
    (hregs : a ∉ [m.rxf.ua, m.txf.ua, m.txq.ua, m.aInt]) : envRead32 m e a = memGet e.mem32 a.toNat := by
  simp only [List.mem_cons, List.not_mem_nil, or_false, not_or] at hregs
  obtain ⟨hrxf, htxf, htxq, hint⟩ := hregs
  simp only [envRead32, envSlotRead, hempty, if_neg hrxf, if_neg htxf, if_neg htxq, if_neg hint]

/-- Under `CM_REF` those registers lie below the RAM window (R31). -/
theorem cmRef_ram_plain {a : Addr} (h : 0x400 ≤ a.toNat) :
    a ∉ [cmRef.rxf.ua, cmRef.txf.ua, cmRef.txq.ua, cmRef.aInt] := by
  simp only [cmRef, List.mem_cons, List.not_mem_nil, or_false, not_or]
  refine ⟨?_, ?_, ?_, ?_⟩ <;> rintro rfl <;> simp at h

/-- Settles O44: reads leave `ENV_REF` as it is, and a word in the RAM window is plain memory, found by its low 12 bits. -/
theorem plainWordReadsBack : Obligations.PlainWordReadsBack := by
  intro s e hchip
  refine ⟨fun addr a w i hi => ?_, fun hcm hwf hempty a b v hlow _ hsame => ?_⟩
  · simp only [List.mem_cons, List.not_mem_nil, or_false] at hi
    obtain rfl | rfl | rfl | rfl := hi
    · exact ⟨_, rfl, txn_rd_keeps_ref hchip⟩
    · exact ⟨_, rfl, txn_rd_keeps_ref hchip⟩
    · exact ⟨_, rfl, txn_rd_keeps_ref hchip⟩
    · exact ⟨_, rfl, txn_rd_keeps_ref hchip⟩
  · refine ⟨_, _, rfl, rfl, congrArg (fun x => some (Response.word x)) ?_⟩
    have haddr : addr12 b.toNat = addr12 a.toNat :=
      BitVec.eq_of_toNat_eq (by rw [addr12_toNat_mod, addr12_toNat_mod, hsame])
    have hram : 0x400 ≤ (addr12 a.toNat).toNat := by rwa [addr12_toNat_mod]
    calc (memRead32 s.par .fg b.toNat (memWrite32 s.par .fg a.toNat v s.bus)).1
        = envRead32 cmRef (envWrite32 cmRef e (addr12 a.toNat) v) (addr12 a.toNat) := by
          rw [memRead32_ref (memWrite32_ref hchip), hcm, haddr]
      _ = memGet (memSet e.mem32 (addr12 a.toNat).toNat v) (addr12 a.toNat).toNat :=
          envRead32_plain ((envWrite32_rxf_objs _ _ _ _).trans hempty) (cmRef_ram_plain hram)
      _ = v := memGet_memSet_same _ _ _ hwf

end Sys2Proof.Machine
end

section
/-! `ERRATUM_MASK` is read by nothing (R53). -/

namespace Sys2Proof.Machine

/-- The parameters with `ERRATUM_MASK` set to `b`, as in `setErratum`. -/
abbrev maskedParams (b : Bool) (P : Params) : Params := { P with erratumMask := b }

theorem memRead32_maskedParams (b : Bool) (P : Params) : memRead32 (maskedParams b P) = memRead32 P := rfl

theorem setIE_maskedParams (b : Bool) (P : Params) : setIE (maskedParams b P) = setIE P := rfl

theorem notFull_maskedParams (b : Bool) (P : Params) : notFull (maskedParams b P) = notFull P := rfl

theorem hwWrite_maskedParams (b : Bool) (P : Params) : hwWrite (maskedParams b P) = hwWrite P := rfl

theorem hwRead_maskedParams (b : Bool) (P : Params) : hwRead (maskedParams b P) = hwRead P := rfl

theorem rxHandler_maskedParams (b : Bool) (P : Params) : rxHandler (maskedParams b P) = rxHandler P := by
  funext st q bus
  unfold rxHandler rxDrain
  rw [setIE_maskedParams, hwRead_maskedParams]

theorem txHandler_maskedParams (b : Bool) (P : Params) : txHandler (maskedParams b P) = txHandler P := by
  funext st q full bus
  unfold txHandler txDrain
  rw [setIE_maskedParams, hwWrite_maskedParams]

theorem ackAll_maskedParams (b : Bool) (P : Params) : ackAll (maskedParams b P) = ackAll P := rfl

theorem programFilters_maskedParams (b : Bool) (P : Params) (fs : List FilterEntry) (k : Nat) (bus : Bus) :
    programFilters (maskedParams b P) k fs bus = programFilters P k fs bus := by
  induction fs generalizing k bus with
  | nil => rfl
  | cons f rest ih => exact ih (k + 1) (programFilter P k f bus)

section SetErratum

variable (b : Bool) (s : State)

theorem setErratum_par : (setErratum b s).par = maskedParams b s.par := rfl

theorem guarded_setErratum (reason : Option Reason) {m m' : Host.Outcome State Fault Refusal}
    (h : m' = mapNext (setErratum b) m) :
    guarded reason (setErratum b s) m' = mapNext (setErratum b) (guarded reason s m) := by
  cases reason with
  | none => exact h
  | some r => rfl

theorem withQueue_setErratum (q : Option Queue) {m m' : Queue → Host.Outcome State Fault Refusal}
    (h : ∀ x, m' x = mapNext (setErratum b) (m x)) : withQueue q m' = mapNext (setErratum b) (withQueue q m) := by
  cases q with
  | none => rfl
  | some x => exact h x

/-- A request that only reads a software queue. -/
theorem accessor_setErratum (reason : Option Reason) (q : Option Queue) (answer : Queue → Response) :
    guarded reason (setErratum b s) (withQueue q fun x => .next (respond (answer x) (setErratum b s))) =
      mapNext (setErratum b) (guarded reason s (withQueue q fun x => .next (respond (answer x) s))) :=
  guarded_setErratum b s reason (withQueue_setErratum b q fun _ => rfl)

theorem configured_setErratum (c : Cfg) : configured c (setErratum b s) = setErratum b (configured c s) := by
  unfold configured
  rw [setErratum_par, programFilters_maskedParams]
  rfl

theorem sendDirect_setErratum (f : Frame) : sendDirect f (setErratum b s) = setErratum b (sendDirect f s) := by
  unfold sendDirect
  rw [apply_ite (setErratum b), setErratum_par, notFull_maskedParams, hwWrite_maskedParams, setIE_maskedParams]
  rfl

theorem sendBypass_setErratum (f : Frame) : sendBypass f (setErratum b s) = setErratum b (sendBypass f s) := by
  unfold sendBypass
  rw [apply_ite (setErratum b), apply_ite (setErratum b), setErratum_par, notFull_maskedParams, hwWrite_maskedParams]
  rfl

theorem sendOrdinary_setErratum (f : Frame) :
    sendOrdinary f (setErratum b s) = mapNext (setErratum b) (sendOrdinary f s) := by
  unfold sendOrdinary
  rw [apply_ite (mapNext (setErratum b)), ← withQueue_setErratum b s.txqSw fun _ => rfl, sendDirect_setErratum]
  rfl

theorem trySend_setErratum (f : Frame) : trySend f (setErratum b s) = mapNext (setErratum b) (trySend f s) := by
  unfold trySend
  rw [apply_ite (mapNext (setErratum b)), apply_ite (mapNext (setErratum b)), sendOrdinary_setErratum,
    sendBypass_setErratum]
  rfl

theorem takeRx_setErratum (q : Queue) :
    takeRx q (setErratum b s) = (takeRx q s).map fun x => (x.1, setErratum b x.2) := by
  unfold takeRx
  split <;> rfl

theorem receive_setErratum (q : Queue) : receive q (setErratum b s) = setErratum b (receive q s) := by
  unfold receive
  rw [takeRx_setErratum]
  cases takeRx q s <;> rfl

theorem dispatchFrame_setErratum (observer : Bool) (q : Queue) :
    dispatchFrame observer q (setErratum b s) = setErratum b (dispatchFrame observer q s) := by
  unfold dispatchFrame
  rw [takeRx_setErratum]
  cases takeRx q s with
  | none => rfl
  | some x => simp only [Option.map_some, foldl_emit]; rfl

theorem servicePass_setErratum (rq tq : Queue) :
    servicePass rq tq (setErratum b s) = setErratum b (servicePass rq tq s) := by
  unfold servicePass
  rw [setErratum_par, memRead32_maskedParams, rxHandler_maskedParams, txHandler_maskedParams, ackAll_maskedParams]
  rfl

/-- Every instruction does the same with the mask set or clear. -/
theorem exec_setErratum (i : Instr) : exec i (setErratum b s) = mapNext (setErratum b) (exec i s) := by
  cases i with
  | write | read | reset | rd32 | wr32 | rd8 | wr8 | devreset | readerr => rfl
  | setrate r =>
    show execSetrate r (setErratum b s) = mapNext (setErratum b) (execSetrate r s)
    unfold execSetrate
    split <;> rfl
  | configure conf =>
    exact guarded_setErratum b s _ 
      (congrArg (fun x => Host.Outcome.next (respond .done x)) (configured_setErratum b s _))
  | trysend f => exact guarded_setErratum b s _ (trySend_setErratum b s _)
  | avail | txqSize | txqCount | txqPeak => exact accessor_setErratum b s _ _ _
  | recv =>
    exact guarded_setErratum b s _ (withQueue_setErratum b _ fun q => congrArg _ (receive_setErratum b s q))
  | dispatch obs =>
    exact guarded_setErratum b s _ (withQueue_setErratum b _ fun q => congrArg _ (dispatchFrame_setErratum b s _ q))
  | irq => exact withQueue_setErratum b _ fun rq => withQueue_setErratum b _ fun tq =>
      congrArg (fun x => Host.Outcome.next (leaveIsr x)) (servicePass_setErratum b (enterIsr s) rq tq)

theorem nextTurn_setErratum : nextTurn (setErratum b s) = ((nextTurn s).1, setErratum b (nextTurn s).2) := by
  cases h : s.agenda with
  | nil => rw [nextTurn_nil h, nextTurn_nil (s := setErratum b s) h]; rfl
  | cons turn ag => rw [nextTurn_cons h, nextTurn_cons (s := setErratum b s) h]; rfl

theorem rejectRequest_setErratum (why : Reject) :
    rejectRequest why (setErratum b s) = mapNext (setErratum b) (rejectRequest why s) := by
  cases why <;> rfl

theorem stepFg_setErratum : stepFg (setErratum b s) = mapNext (setErratum b) (stepFg s) := by
  cases hp : s.port with
  | nil => rw [stepFg_idle hp, stepFg_idle (s := setErratum b s) hp]; rfl
  | cons item rest =>
    cases hd : decode item with
    | ok i =>
      rw [stepFg_request hp hd, stepFg_request (s := setErratum b s) hp hd]
      exact exec_setErratum b { s with port := rest } i
    | error why =>
      rw [stepFg_reject hp hd, stepFg_reject (s := setErratum b s) hp hd]
      exact rejectRequest_setErratum b { s with port := rest } why

theorem stepIsr_setErratum : stepIsr (setErratum b s) = mapNext (setErratum b) (stepIsr s) := by
  unfold stepIsr
  rw [apply_ite (mapNext (setErratum b)), exec_setErratum]
  rfl

theorem runTurn_setErratum (turn : Turn) : runTurn turn (setErratum b s) = mapNext (setErratum b) (runTurn turn s) := by
  cases turn with
  | fg => exact stepFg_setErratum b s
  | isr => exact stepIsr_setErratum b s
  | dev ev => rfl

end SetErratum

/-- Settles O42: no operation reads the mask, so instructions and turns commute with setting it. -/
theorem erratumMaskChangesNothing : Obligations.ErratumMaskChangesNothing := by
  intro b i s
  refine ⟨exec_setErratum b s i, ?_⟩
  rw [step, nextTurn_setErratum]
  exact runTurn_setErratum b _ _

end Sys2Proof.Machine
end

section
/-! Every bus effect is recorded transactions, and running the recorded events again gives the same bus (R50, R58, R83). -/

namespace Sys2Proof.Machine

/-- `b'` comes from `b` by transactions issued by `is` alone. -/
def Transacts (P : Params) (is : Issuer) : Bus → Bus → Prop :=
  Relation.ReflTransGen fun b b' => ∃ acc, b' = (txn P is acc b).2

namespace Transacts

variable {P : Params} {is : Issuer} {b b' : Bus}

theorem refl : Transacts P is b b := Relation.ReflTransGen.refl

theorem txn (h : Transacts P is b b') (acc : Access) : Transacts P is b (txn P is acc b').2 := .tail h ⟨acc, rfl⟩

theorem setIE (h : Transacts P is b b') (f : IeFifo) (on : Bool) : Transacts P is b (setIE P is f on b') := h.txn _

theorem notFull (h : Transacts P is b b') (f : Fifo) : Transacts P is b (notFull P is f b').2 := h.txn _

theorem hwWrite (h : Transacts P is b b') (f : Fifo) (fr : Frame) : Transacts P is b (hwWrite P is f fr b') :=
  (((((h.txn _).txn _).txn _).txn _).txn _).txn _

theorem hwRead (h : Transacts P is b b') : Transacts P is b (hwRead P is b').2 :=
  (((((h.txn _).txn _).txn _).txn _).txn _).txn _

theorem programFilters (fs : List FilterEntry) (k : Nat) (h : Transacts P .fg b b') :
    Transacts P .fg b (programFilters P k fs b') := by
  induction fs generalizing k b' with
  | nil => exact h
  | cons f rest ih => exact ih (k + 1) (((h.txn _).txn _).txn _)

theorem programEnables (h : Transacts P .fg b b') : Transacts P .fg b (programEnables P b') := ((h.txn _).txn _).txn _

theorem rxHandler (h : Transacts P .isr b b') (st : Word) (q : Queue) : Transacts P .isr b (rxHandler P st q b').2 := by
  obtain hr | ⟨-, hr⟩ | ⟨-, hr⟩ | ⟨-, -, hr⟩ := rxHandler_cases P st q b' <;> rw [hr]
  · exact h
  · exact h.setIE _ _
  · exact h.hwRead.setIE _ _
  · exact h.hwRead

theorem txHandler (h : Transacts P .isr b b') (st : Word) (q : Queue) (full : Bool) :
    Transacts P .isr b (txHandler P st q full b').2.2 := by
  obtain hr | ⟨-, hr⟩ | ⟨f, rest, -, hr⟩ := txHandler_cases P st q full b' <;> rw [hr]
  · exact h
  · exact h.setIE _ _
  · exact h.hwWrite _ _

theorem ackAll (h : Transacts P .isr b b') (bits : List (Fin 32)) : Transacts P .isr b (ackAll P bits b') := by
  induction bits generalizing b' with
  | nil => exact h
  | cons i rest ih => exact ih (h.txn _)

theorem sendDirect (f : Frame) (s : State) : Transacts s.par .fg s.bus (sendDirect f s).bus := by
  obtain hr | hr := sendDirect_cases f s <;> rw [hr]
  · exact (refl.hwWrite _ _).notFull _
  · exact ((refl.hwWrite _ _).notFull _).setIE _ _

theorem sendBypass (f : Frame) (s : State) : Transacts s.par .fg s.bus (sendBypass f s).bus := by
  obtain hr | hr | hr := sendBypass_cases f s <;> rw [hr]
  · exact (refl.notFull _).hwWrite _ _
  · exact refl.notFull _
  · exact refl

theorem servicePass (rq tq : Queue) (s : State) : Transacts s.par .isr s.bus (servicePass rq tq s).bus :=
  (((refl.txn _).rxHandler _ _).txHandler _ _ _).ackAll _

end Transacts

/-- One transaction is one event of its context at the rate in force, and replaying that event runs it again. -/
theorem txn_recorded (P : Params) (is : Issuer) (acc : Access) (b : Bus) :
    ∃ ev : BusEvent, RanEvents b (txn P is acc b).2 [ev] ∧ ev.issuer = is ∧ ev.rate = b.rate ∧
      ∀ rest, replay P b (ev :: rest) = replay P (txn P is acc b).2 rest := by
  cases acc with
  | rd a w =>
    rw [txn_rd]
    refine ⟨_, releaseCs_ran _ _ _, rfl, rfl, fun rest => ?_⟩
    cases w <;> simp [replay, packPayload, txn_rd]
  | wr a p =>
    rw [txn_wr]
    refine ⟨_, releaseCs_ran _ _ _, rfl, rfl, fun rest => ?_⟩
    simp [replay, txn_wr]
  | reset =>
    rw [txn_reset]
    refine ⟨_, releaseCs_ran _ _ _, rfl, rfl, fun rest => ?_⟩
    simp [replay, txn_reset, evReset]

/-- Transactions of one context are events of that context at the rate in force, and replaying them gives the bus. -/
theorem Transacts.recorded {P : Params} {is : Issuer} {b b' : Bus} (h : Transacts P is b b') :
    ∃ evs : List BusEvent, b'.hist = b.hist ++ evs ∧ b'.txnCount = b.txnCount + evs.length ∧ b'.rate = b.rate ∧
      (∀ ev ∈ evs, ev.issuer = is ∧ ev.rate = b.rate) ∧ replay P b evs = some b' := by
  induction h using Relation.ReflTransGen.head_induction_on with
  | refl => exact ⟨[], by simp [replay]⟩
  | head hfirst _ ih =>
    obtain ⟨acc, rfl⟩ := hfirst
    obtain ⟨ev, ⟨hrate, -, hcount, hhist⟩, hissuer, hevRate, hreplay⟩ := txn_recorded P is acc _
    obtain ⟨evs, ihHist, ihCount, ihRate, ihEvs, ihReplay⟩ := ih
    rw [hrate] at ihRate ihEvs
    have hevs := List.forall_mem_cons.2 ⟨⟨hissuer, hevRate⟩, ihEvs⟩
    refine ⟨ev :: evs, ?_, ?_, ihRate, hevs, (hreplay evs).trans ihReplay⟩
    · rw [ihHist, hhist, List.append_assoc, List.singleton_append]
    · simp only [ihCount, hcount, List.length_cons, List.length_nil]
      omega

/-- A request that only reads a software queue leaves the bus. -/
theorem accessor_transacts {reason : Option Reason} {q : Option Queue} {answer : Queue → Response} {s t : State}
    (h : guarded reason s (withQueue q fun x => .next (respond (answer x) s)) = .next t) :
    Transacts s.par .fg s.bus t.bus := by
  obtain ⟨r, -, rfl⟩ | ⟨-, h⟩ := guarded_next h
  · exact .refl
  · obtain ⟨x, -, h⟩ := withQueue_next h
    obtain rfl := Host.Outcome.next.inj h
    exact .refl

theorem takeRx_transacts {q : Queue} {s t : State} {f : Frame} (h : takeRx q s = some (f, t)) :
    Transacts s.par .fg s.bus t.bus := by
  obtain ⟨-, htake⟩ | ⟨f', rest, -, htake⟩ := takeRx_cases q s
  · simp [htake] at h
  · rw [htake] at h
    obtain ⟨-, rfl⟩ := Prod.mk.inj (Option.some.inj h)
    show Transacts _ _ _ (if _ then _ else _)
    split_ifs
    · exact Transacts.refl.setIE _ _
    · exact .refl

theorem receive_transacts (q : Queue) (s : State) : Transacts s.par .fg s.bus (receive q s).bus := by
  unfold receive
  split
  · exact .refl
  · next htake => exact (takeRx_transacts htake :)

theorem dispatchFrame_transacts (observer : Bool) (q : Queue) (s : State) :
    Transacts s.par .fg s.bus (dispatchFrame observer q s).bus := by
  unfold dispatchFrame
  split
  · exact .refl
  · next htake =>
    rw [foldl_emit]
    exact (takeRx_transacts htake :)

theorem trySend_transacts {f : Frame} {s t : State} (h : trySend f s = .next t) : Transacts s.par .fg s.bus t.bus := by
  unfold trySend sendOrdinary at h
  split_ifs at h
  · obtain ⟨q, -, h⟩ := withQueue_next h
    obtain rfl := Host.Outcome.next.inj h
    exact .refl
  · obtain rfl := Host.Outcome.next.inj h
    exact .sendDirect f s
  · obtain rfl := Host.Outcome.next.inj h
    exact .sendBypass f s
  · obtain rfl := Host.Outcome.next.inj h
    exact .refl

/-- Every instruction but `SETRATE` acts on the bus by transactions of its own context. -/
theorem exec_transacts {i : Instr} {s t : State} (hrate : ∀ r, i ≠ .setrate r) (h : exec i s = .next t) :
    Transacts s.par (if i = .irq then .isr else .fg) s.bus t.bus := by
  cases i with
  | write | read | reset | rd32 | wr32 | rd8 | wr8 | devreset | readerr =>
    obtain rfl := Host.Outcome.next.inj h
    exact Transacts.refl.txn _
  | setrate r => exact absurd rfl (hrate r)
  | configure conf =>
    obtain ⟨r, -, rfl⟩ | ⟨-, h⟩ := guarded_next h
    · exact .refl
    · obtain rfl := Host.Outcome.next.inj h
      exact (Transacts.refl.programFilters _ _).programEnables
  | trysend f =>
    obtain ⟨r, -, rfl⟩ | ⟨-, h⟩ := guarded_next h
    · exact .refl
    · exact trySend_transacts h
  | avail | txqSize | txqCount | txqPeak => exact accessor_transacts h
  | recv =>
    obtain ⟨r, -, rfl⟩ | ⟨-, h⟩ := guarded_next h
    · exact .refl
    · obtain ⟨q, -, h⟩ := withQueue_next h
      obtain rfl := Host.Outcome.next.inj h
      exact receive_transacts q s
  | dispatch obs =>
    obtain ⟨r, -, rfl⟩ | ⟨-, h⟩ := guarded_next h
    · exact .refl
    · obtain ⟨q, -, h⟩ := withQueue_next h
      obtain rfl := Host.Outcome.next.inj h
      exact dispatchFrame_transacts _ q s
  | irq =>
    obtain ⟨rq, -, h⟩ := withQueue_next h
    obtain ⟨tq, -, h⟩ := withQueue_next h
    obtain rfl := Host.Outcome.next.inj h
    exact .servicePass rq tq (enterIsr s)

/-- `SETRATE` writes at most the rate of the bus (R91). -/
theorem setrate_bus {r : Byte} {s t : State} (h : exec (.setrate r) s = .next t) :
    t.bus = { s.bus with rate := t.bus.rate } := by
  change execSetrate r s = .next t at h
  unfold execSetrate at h
  split at h
  · obtain rfl := Host.Outcome.next.inj h
    rfl
  · obtain rfl := Host.Outcome.next.inj h
    rfl

/-- Settles O41: `SETRATE` runs no transaction, and the transactions of every other instruction are the events recorded. -/
theorem busIsItsRecordedTransactions : Obligations.BusIsItsRecordedTransactions := by
  intro i s t h
  by_cases hset : ∃ r, i = .setrate r
  · obtain ⟨r, rfl⟩ := hset
    have hbus := setrate_bus h
    refine ⟨[], s.bus, ?_, ?_, by simp, rfl, hbus, fun hne => absurd rfl (hne r)⟩
    · rw [hbus, List.append_nil]
    · rw [hbus, List.length_nil, Nat.add_zero]
  · have hne : ∀ r, i ≠ .setrate r := fun r hr => hset ⟨r, hr⟩
    obtain ⟨evs, hhist, hcount, hrate, hevs, hreplay⟩ := (exec_transacts hne h).recorded
    exact ⟨evs, t.bus, hhist, hcount, hevs, hreplay, rfl, fun _ => hrate⟩

end Sys2Proof.Machine
end

section
/-! Byte order as arithmetic (R41, R66): two parts of a word that do not overlap add up, and the bytes that were put together
are the bytes taken apart again. -/

namespace Sys2Proof.Machine

/-- Two parts of a word that do not overlap add up. -/
theorem or_shiftLeft_toNat {w n : Nat} {lo hi : BitVec w} (hlo : lo.toNat < 2 ^ n) (hhi : hi.toNat * 2 ^ n < 2 ^ w) :
    (lo ||| hi <<< n).toNat = lo.toNat + hi.toNat * 2 ^ n := by
  rw [BitVec.toNat_or, BitVec.toNat_shiftLeft, Nat.shiftLeft_eq, Nat.mod_eq_of_lt hhi, Nat.or_comm, ← Nat.shiftLeft_eq,
    ← Nat.shiftLeft_add_eq_or_of_lt hlo, Nat.add_comm]

theorem extractLsb'_toNat_div {w : Nat} (v : BitVec w) (lo len : Nat) :
    (v.extractLsb' lo len).toNat = v.toNat / 2 ^ lo % 2 ^ len := by
  rw [BitVec.extractLsb'_toNat, Nat.shiftRight_eq_div_pow]

theorem fromLe2_toNat (b0 b1 : Byte) : (fromLe2 b0 b1).toNat = b0.toNat + 2 ^ 8 * b1.toNat := by
  have h0 := b0.isLt
  have h1 := b1.isLt
  have e0 : (b0.setWidth 16).toNat = b0.toNat := BitVec.toNat_setWidth_of_le (by decide)
  have e1 : (b1.setWidth 16).toNat = b1.toNat := BitVec.toNat_setWidth_of_le (by decide)
  rw [fromLe2, or_shiftLeft_toNat (by omega) (by omega)]
  omega

theorem fromLe4_toNat (b0 b1 b2 b3 : Byte) :
    (fromLe4 b0 b1 b2 b3).toNat = b0.toNat + 2 ^ 8 * b1.toNat + 2 ^ 16 * b2.toNat + 2 ^ 24 * b3.toNat := by
  have wide (b : Byte) : (b.setWidth 32).toNat = b.toNat ∧ b.toNat < 2 ^ 8 :=
    ⟨BitVec.toNat_setWidth_of_le (by decide), b.isLt⟩
  obtain ⟨e0, h0⟩ := wide b0
  obtain ⟨e1, h1⟩ := wide b1
  obtain ⟨e2, h2⟩ := wide b2
  obtain ⟨e3, h3⟩ := wide b3
  have s01 := or_shiftLeft_toNat (n := 8) (lo := b0.setWidth 32) (hi := b1.setWidth 32) (by omega) (by omega)
  have s012 := or_shiftLeft_toNat (n := 16) (hi := b2.setWidth 32) (s01.trans_lt (by omega)) (by omega)
  have s0123 := or_shiftLeft_toNat (n := 24) (hi := b3.setWidth 32) (s012.trans_lt (by omega)) (by omega)
  rw [fromLe4]
  omega

theorem bytesLe2_fromLe2 (b0 b1 : Byte) : bytesLe2 (fromLe2 b0 b1) = [b0, b1] := by
  have h0 := b0.isLt
  have h1 := b1.isLt
  simp only [bytesLe2, List.cons.injEq, and_true, ← BitVec.toNat_inj, extractLsb'_toNat_div, fromLe2_toNat]
  omega

theorem bytesLe4_fromLe4 (b0 b1 b2 b3 : Byte) : bytesLe4 (fromLe4 b0 b1 b2 b3) = [b0, b1, b2, b3] := by
  have h0 := b0.isLt
  have h1 := b1.isLt
  have h2 := b2.isLt
  have h3 := b3.isLt
  simp only [bytesLe4, List.cons.injEq, and_true, ← BitVec.toNat_inj, extractLsb'_toNat_div, fromLe4_toNat]
  omega

end Sys2Proof.Machine
end

section
/-! What the decoder accepts, read backwards (R65 to R68): the operand bytes are the encoding of what was decoded. -/

namespace Sys2Proof.Machine

theorem encodeEntries_of_decode {bytes : List Byte} {es : List FilterOperand} (h : decodeEntries bytes = some es) :
    encodeEntries es = bytes := by
  induction bytes using decodeEntries.induct generalizing es with
  | case1 =>
    obtain rfl := Option.some.inj h
    rfl
  | case2 a0 a1 a2 a3 m0 m1 m2 m3 c0 c1 rest ih =>
    rw [decodeEntries, Option.map_eq_some_iff] at h
    obtain ⟨es', hrest, rfl⟩ := h
    simp [encodeEntries, bytesLe4_fromLe4, bytesLe2_fromLe2, ih hrest]
  | case3 bytes hnil hcons =>
    unfold decodeEntries at h
    split at h
    · exact absurd rfl hnil
    · exact absurd rfl (hcons _ _ _ _ _ _ _ _ _ _ _)
    · cases h

theorem encodeConf_of_decode {bytes : List Byte} {c : ConfOperand} (h : decodeConf bytes = some c) :
    encodeConf c = bytes := by
  unfold decodeConf at h
  split at h
  · split at h
    · next es hes =>
      split_ifs at h
      obtain rfl := Option.some.inj h
      simp [encodeConf, bytesLe2_fromLe2, encodeEntries_of_decode hes]
    · cases h
  · cases h

theorem encodeFrame_of_decode {bytes : List Byte} {f : FrameOperand} (h : decodeFrame bytes = some f) :
    encodeFrame f = bytes := by
  unfold decodeFrame at h
  split at h
  · obtain rfl := Option.some.inj h
    simp [encodeFrame, encodeData, bytesLe4_fromLe4]
  · cases h

theorem decodeAddrOp_eq_ok {mk : Half → Instr} {m : String} {ops : List Byte} {i : Instr}
    (h : decodeAddrOp mk m ops = .ok i) : ∃ a, i = mk a ∧ ops = bytesLe2 a := by
  unfold decodeAddrOp at h
  split at h
  · exact ⟨_, (Except.ok.inj h).symm, (bytesLe2_fromLe2 _ _).symm⟩
  · cases h

theorem decodeByteOp_eq_ok {mk : Byte → Instr} {m : String} {ops : List Byte} {i : Instr}
    (h : decodeByteOp mk m ops = .ok i) : ∃ b, i = mk b ∧ ops = [b] := by
  unfold decodeByteOp at h
  split at h
  · exact ⟨_, (Except.ok.inj h).symm, rfl⟩
  · cases h

theorem decodeBare_eq_ok {j : Instr} {m : String} {ops : List Byte} {i : Instr} (h : decodeBare j m ops = .ok i) :
    i = j ∧ ops = [] := by
  unfold decodeBare at h
  split at h
  · exact ⟨(Except.ok.inj h).symm, rfl⟩
  · cases h

theorem code_of_toNat {code : Byte} {n : Nat} (h : code.toNat = n) : code = BitVec.ofNat 8 n := by
  rw [← h, BitVec.ofNat_toNat, BitVec.setWidth_eq]

/-- The operands of a request are those of the instruction's encoding, whatever the code (R65, R66). -/
theorem encode_of_decodeOperands {code : Byte} {ops : List Byte} {i : Instr} (h : decodeOperands code ops = .ok i) :
    encode i = some (.host (code :: ops)) := by
  unfold decodeOperands at h
  -- the codes in the order of R65; the sixteenth case is every reserved code
  split at h
  case h_16 => cases h
  all_goals
    rename_i hcode
    obtain rfl := code_of_toNat hcode
  case h_1 | h_3 =>
    obtain ⟨a, rfl, rfl⟩ := decodeAddrOp_eq_ok h
    rfl
  case h_2 =>
    split at h
    · obtain rfl := Except.ok.inj h
      simp [encode, bytesLe2_fromLe2, bytesLe4_fromLe4]
    · cases h
  case h_4 =>
    split at h
    · obtain rfl := Except.ok.inj h
      simp [encode, bytesLe2_fromLe2]
    · cases h
  case h_6 | h_12 =>
    obtain ⟨b, rfl, rfl⟩ := decodeByteOp_eq_ok h
    rfl
  case h_8 =>
    split at h
    · next c hc =>
      obtain rfl := Except.ok.inj h
      rw [← encodeConf_of_decode hc]
      rfl
    · cases h
  case h_9 =>
    split at h
    · next f hf =>
      obtain rfl := Except.ok.inj h
      rw [← encodeFrame_of_decode hf]
      rfl
    · cases h
  all_goals
    obtain ⟨rfl, rfl⟩ := decodeBare_eq_ok h
    rfl

/-- Settles O3: an empty request decodes to nothing, and any other is its code before its operands. -/
theorem hostRequestFormUnique : Obligations.HostRequestFormUnique := by
  intro bytes i h
  cases bytes with
  | nil => cases h
  | cons code ops => exact encode_of_decodeOperands h

/-- A bracket carries one of the three wire commands (R61). -/
theorem decodeCommand_ok {c : BitVec 16} {payload : List Byte} {i : Instr} (h : decodeCommand c payload = .ok i) :
    (∃ a p, i = .write a p) ∨ (∃ a w, i = .read a w) ∨ i = .reset := by
  unfold decodeCommand at h
  simp only at h
  split_ifs at h
  · split at h
    · exact .inr (.inr (Except.ok.inj h).symm)
    · cases h
  · split at h
    · exact .inl ⟨_, _, (Except.ok.inj h).symm⟩
    · exact .inl ⟨_, _, (Except.ok.inj h).symm⟩
    · cases h
  · split at h
    · exact .inr (.inl ⟨_, _, (Except.ok.inj h).symm⟩)
    · exact .inr (.inl ⟨_, _, (Except.ok.inj h).symm⟩)
    · cases h

/-- Every bracket is a command word and a payload, or too short (R63, R64). -/
theorem decodeWire_ok {bytes : List Byte} {i : Instr} (h : decodeWire bytes = .ok i) :
    (∃ a p, i = .write a p) ∨ (∃ a w, i = .read a w) ∨ i = .reset := by
  unfold decodeWire at h
  split at h
  · exact decodeCommand_ok h
  · cases h

/-- The service pass has no byte form, so nothing at the port decodes to it (R121). -/
theorem decode_ne_irq {item : PortItem} {i : Instr} (h : decode item = .ok i) : i ≠ .irq := by
  rintro rfl
  cases item with
  | host bytes => cases hostRequestFormUnique bytes .irq h
  | wire bytes => obtain ⟨a, p, hi⟩ | ⟨a, w, hi⟩ | hi := decodeWire_ok h <;> cases hi

/-- `CONFIGURE` is the one instruction whose operand can be ill-formed (R68). -/
theorem wellFormed_of_configure {i : Instr} (h : ∀ conf, i = .configure conf → conf.wellFormed = true) :
    i.wellFormed = true := by
  cases i with
  | configure conf => exact h conf rfl
  | _ => rfl

/-- Settles O2: the decoder checks the entry count of `CONFIGURE`, and the pass has no byte form. -/
theorem decodedInstrWellFormed : Obligations.DecodedInstrWellFormed := by
  intro item i h
  refine ⟨wellFormed_of_configure ?_, decode_ne_irq h⟩
  rintro conf rfl
  exact decode_configure_wellFormed h

/-- Every instruction but the service pass has a byte form (R60, R66, R121). -/
theorem encode_isSome {i : Instr} (h : i ≠ .irq) : ∃ item, encode i = some item := by
  cases i with
  | irq => exact absurd rfl h
  | _ => exact ⟨_, rfl⟩

theorem decode_encode (i : Instr) : Laws.RoundTrip.Statement i := by
  cases i with
  | write a p => exact Laws.RoundTrip.write a p
  | read a w => exact Laws.RoundTrip.read a w
  | reset => exact Laws.RoundTrip.reset
  | rd32 a => exact Laws.RoundTrip.rd32 a
  | wr32 a v => exact Laws.RoundTrip.wr32 a v
  | rd8 a => exact Laws.RoundTrip.rd8 a
  | wr8 a v => exact Laws.RoundTrip.wr8 a v
  | devreset => exact Laws.RoundTrip.devreset
  | setrate r => exact Laws.RoundTrip.setrate r
  | readerr => exact Laws.RoundTrip.readerr
  | configure conf => exact Laws.RoundTrip.configure conf
  | trysend f => exact Laws.RoundTrip.trysend f
  | avail => exact Laws.RoundTrip.avail
  | recv => exact Laws.RoundTrip.recv
  | dispatch obs => exact Laws.RoundTrip.dispatch obs
  | txqSize => exact Laws.RoundTrip.txqSize
  | txqCount => exact Laws.RoundTrip.txqCount
  | txqPeak => exact Laws.RoundTrip.txqPeak
  | irq => exact Laws.RoundTrip.irq

/-- Settles O1: the byte form that exists is read back, instruction by instruction. -/
theorem decodeEncodeAgree : Obligations.DecodeEncodeAgree := by
  refine fun i hwf => ⟨fun hne => ?_, ?_⟩
  · obtain ⟨item, henc⟩ := encode_isSome hne
    exact ⟨item, henc, decode_encode i hwf item henc⟩
  · rintro rfl
    rfl

end Sys2Proof.Machine
end

section
/-! Bytes that are no instruction (R62, R64, R69), and the bytes of recorded transactions (R63). -/

namespace Sys2Proof.Machine

/-- A code that no instruction has is in no arm of the decoder (R65, R69). -/
theorem decodeOperands_reserved {c : Byte} (ops : List Byte) (h : ∀ i, requestCode i ≠ some c) :
    decodeOperands c ops = .error .reservedCode := by
  have assigned (i : Instr) {n : Nat} (hi : requestCode i = some (BitVec.ofNat 8 n)) (hc : c.toNat = n) : False :=
    h i (hi.trans (congrArg some (code_of_toNat hc).symm))
  unfold decodeOperands
  split
  case h_1 hc => exact (assigned (.rd32 0) rfl hc).elim
  case h_2 hc => exact (assigned (.wr32 0 0) rfl hc).elim
  case h_3 hc => exact (assigned (.rd8 0) rfl hc).elim
  case h_4 hc => exact (assigned (.wr8 0 0) rfl hc).elim
  case h_5 hc => exact (assigned (.devreset) rfl hc).elim
  case h_6 hc => exact (assigned (.setrate 0) rfl hc).elim
  case h_7 hc => exact (assigned (.readerr) rfl hc).elim
  case h_8 hc => exact (assigned (.configure default) rfl hc).elim
  case h_9 hc => exact (assigned (.trysend default) rfl hc).elim
  case h_10 hc => exact (assigned (.avail) rfl hc).elim
  case h_11 hc => exact (assigned (.recv) rfl hc).elim
  case h_12 hc => exact (assigned (.dispatch 0) rfl hc).elim
  case h_13 hc => exact (assigned (.txqSize) rfl hc).elim
  case h_14 hc => exact (assigned (.txqCount) rfl hc).elim
  case h_15 hc => exact (assigned (.txqPeak) rfl hc).elim
  case h_16 => rfl

/-- Settles O4: the decoder has no arm for the code, and the step hands the rejection to the core's refusal. -/
theorem reservedCodeRefused : Obligations.ReservedCodeRefused := by
  intro c ops hc
  have hdec : decode (.host (c :: ops)) = .error .reservedCode := decodeOperands_reserved ops hc
  refine ⟨hdec, fun s ag rest hag hport => ?_⟩
  calc step s = stepFg { s with agenda := ag } := step_cons hag
    _ = rejectRequest .reservedCode { s with agenda := ag, port := rest } := stepFg_reject hport hdec
    _ = .next { s with agenda := ag, port := rest, refused := true, resp := some (.refused .reservedCode) } := rfl

/-- The opcode of the reset word is none of the two the core emits (R61). -/
theorem ne_zero_of_opcode {c : BitVec 16} (h : c.extractLsb' 12 4 = opcWrite ∨ c.extractLsb' 12 4 = opcRead) : c ≠ 0 := by
  rintro rfl
  revert h
  decide

theorem decodeCommand_foreign {c : BitVec 16} (payload : List Byte) (hz : c ≠ 0) (hw : c.extractLsb' 12 4 ≠ opcWrite)
    (hr : c.extractLsb' 12 4 ≠ opcRead) : decodeCommand c payload = .error (.notEmitted c) := by
  simp only [decodeCommand, if_neg hz, if_neg hw, if_neg hr]

theorem decodeCommand_reset_payload {payload : List Byte} (h : payload ≠ []) :
    decodeCommand 0 payload = .error .badBracket := by
  cases payload with
  | nil => exact absurd rfl h
  | cons b rest => rfl

/-- A read or write bracket has a payload of 4 bytes or of 1 (R64). -/
theorem decodeCommand_payload_length {c : BitVec 16} {payload : List Byte}
    (hc : c.extractLsb' 12 4 = opcWrite ∨ c.extractLsb' 12 4 = opcRead) (h4 : payload.length ≠ 4)
    (h1 : payload.length ≠ 1) :
    decodeCommand c payload = .error .badBracket := by
  unfold decodeCommand
  simp only [if_neg (ne_zero_of_opcode hc)]
  split_ifs with hw hr
  · split
    · exact absurd rfl h4
    · exact absurd rfl h1
    · rfl
  · split
    · exact absurd rfl h4
    · exact absurd rfl h1
    · rfl
  · exact absurd hc (by simp [hw, hr])

/-- Settles O5: the command word decides, and after it the number of payload bytes. -/
theorem foreignWireTrafficRejected : Obligations.ForeignWireTrafficRejected := by
  intro c payload
  simp only [decode, decodeWire_cmd]
  refine ⟨decodeCommand_foreign payload, ?_, decodeCommand_payload_length⟩
  rintro rfl
  exact decodeCommand_reset_payload

/-- Settles O7: each event's bytes are its command word and a payload of the width accessed. -/
theorem recordedTransactionsDecode : Obligations.RecordedTransactionsDecode := by
  intro b is a v w
  have rd (width : Width) (payload : List Byte) (h : payload.length = widthBytes width) :
      decode (.wire (cmdBytes (cmdWord opcRead (addr12 a).toNat) ++ payload)) = .ok (.read (addr12 a) width) := by
    rw [decode, decodeWire_cmd, decodeCommand_read _ width _ h, addr12_toNat]
  have wr (p : Payload) :
      decode (.wire (cmdBytes (cmdWord opcWrite (addr12 a).toNat) ++ payloadBytes p)) = .ok (.write (addr12 a) p) := by
    rw [decode, decodeWire_cmd, decodeCommand_write, addr12_toNat]
  exact ⟨rd .four _ rfl, rd .one _ rfl, wr (.word v), wr (.byte w), rfl⟩

/-- Settles O6: each word is evaluated. -/
theorem specWordsDecode : Obligations.SpecWordsDecode := ⟨rfl, rfl, rfl, rfl, rfl, rfl, rfl⟩

end Sys2Proof.Machine
end

section
/-! The frame object as numbers (R71 to R76): what `Encode` and `Decode` give under `FL_REF`, and the way there and back. -/

namespace Sys2Proof.Machine

/-- The bytes of a little-endian word, bit by bit. -/
theorem fromLe4_getLsbD (b0 b1 b2 b3 : Byte) {i : Nat} (hi : i < 8) :
    (fromLe4 b0 b1 b2 b3).getLsbD i = b0.getLsbD i ∧ (fromLe4 b0 b1 b2 b3).getLsbD (8 + i) = b1.getLsbD i ∧
      (fromLe4 b0 b1 b2 b3).getLsbD (16 + i) = b2.getLsbD i ∧ (fromLe4 b0 b1 b2 b3).getLsbD (24 + i) = b3.getLsbD i := by
  have hbytes := bytesLe4_fromLe4 b0 b1 b2 b3
  simp only [bytesLe4, List.cons.injEq, and_true] at hbytes
  obtain ⟨h0, h1, h2, h3⟩ := hbytes
  have bit (v : Word) (k : Nat) : v.getLsbD (k + i) = (v.extractLsb' k 8).getLsbD i := by
    rw [BitVec.getLsbD_extractLsb', decide_eq_true hi, Bool.true_and]
  refine ⟨?_, ?_, ?_, ?_⟩
  · rw [← Nat.zero_add i, bit, h0, Nat.zero_add]
  · rw [bit, h1]
  · rw [bit, h2]
  · rw [bit, h3]

/-- Settles O28: each data byte is eight bits of its word, in both directions. -/
theorem dataWordsMoveAllBytes : Obligations.DataWordsMoveAllBytes := by
  intro P f o i hi
  obtain ⟨h0, h1, h2, h3⟩ := fromLe4_getLsbD f.data.b0 f.data.b1 f.data.b2 f.data.b3 hi
  obtain ⟨h4, h5, h6, h7⟩ := fromLe4_getLsbD f.data.b4 f.data.b5 f.data.b6 f.data.b7 hi
  refine ⟨h0, h1, h2, h3, h4, h5, h6, h7, ?_⟩
  simp [decodeObj, decodeData, hi]

theorem decodeData_fromLe4 (d : Bytes8) :
    decodeData (fromLe4 d.b0 d.b1 d.b2 d.b3) (fromLe4 d.b4 d.b5 d.b6 d.b7) = d := by
  have hlow := bytesLe4_fromLe4 d.b0 d.b1 d.b2 d.b3
  have hhigh := bytesLe4_fromLe4 d.b4 d.b5 d.b6 d.b7
  simp only [bytesLe4, List.cons.injEq, and_true] at hlow hhigh
  simp only [decodeData, hlow, hhigh]

theorem extractLsb'_zero_toNat {w : Nat} (v : BitVec w) (len : Nat) : (v.extractLsb' 0 len).toNat = v.toNat % 2 ^ len := by
  rw [extractLsb'_toNat_div, pow_zero, Nat.div_one]

theorem clampLen_toNat (len : Byte) : (clampLen len).toNat = min len.toNat 8 := by
  unfold clampLen
  split
  · next hle =>
    rw [BitVec.le_def] at hle
    exact (Nat.min_eq_left hle).symm
  · next hgt =>
    rw [BitVec.le_def] at hgt
    exact (Nat.min_eq_right (Nat.le_of_not_le hgt)).symm

theorem flagBit_eq (b : Bool) (pos : Fin 32) : flagBit b pos = ((BitVec.ofBool b).setWidth 32) <<< pos.val := by
  cases b <;> simp [flagBit]

/-- The identifier word under `FL_REF` (R73). -/
theorem encodeId_flRef (f : Frame) :
    (encodeId flRef f).toNat =
      if f.ext then f.id.toNat / 2 ^ 18 % 2 ^ 11 + f.id.toNat % 2 ^ 18 * 2 ^ 11 else f.id.toNat % 2 ^ 11 := by
  have hsid : ((f.id.extractLsb' 18 11).setWidth 32).toNat = f.id.toNat / 2 ^ 18 % 2 ^ 11 := by
    rw [BitVec.toNat_setWidth_of_le (by decide), extractLsb'_toNat_div]
  have heid : ((f.id.extractLsb' 0 18).setWidth 32).toNat = f.id.toNat % 2 ^ 18 := by
    rw [BitVec.toNat_setWidth_of_le (by decide), extractLsb'_zero_toNat]
  have hstd : ((f.id.extractLsb' 0 11).setWidth 32).toNat = f.id.toNat % 2 ^ 11 := by
    rw [BitVec.toNat_setWidth_of_le (by decide), extractLsb'_zero_toNat]
  unfold encodeId
  simp only [flRef, Fin.val_zero, BitVec.shiftLeft_zero]
  split
  · rw [← hsid, ← heid]
    exact or_shiftLeft_toNat (n := 11) (by omega) (by omega)
  · exact hstd

/-- The control word under `FL_REF` (R74): length, extended flag, remote flag. -/
theorem encodeControl_flRef (f : Frame) :
    (encodeControl flRef f).toNat = min f.len.toNat 8 + (if f.ext then 16 else 0) + (if f.rtr then 32 else 0) := by
  have hlen : ((clampLen f.len).setWidth 32).toNat = min f.len.toNat 8 := by
    rw [BitVec.toNat_setWidth_of_le (by decide), clampLen_toNat]
  have hflag (b : Bool) : ((BitVec.ofBool b).setWidth 32).toNat = if b then 1 else 0 := by cases b <;> rfl
  have hext := or_shiftLeft_toNat (n := 4) (lo := (clampLen f.len).setWidth 32) (hi := (BitVec.ofBool f.ext).setWidth 32)
    (by omega) (by rw [hflag]; split <;> decide)
  have hrtr := or_shiftLeft_toNat (n := 5) (hi := (BitVec.ofBool f.rtr).setWidth 32)
    (hext.trans_lt (by rw [hflag, hlen]; split <;> omega)) (by rw [hflag]; split <;> decide)
  simp only [encodeControl, flagBit_eq, flRef, Fin.val_zero, BitVec.shiftLeft_zero]
  refine hrtr.trans ?_
  rw [hext, hlen, hflag, hflag, ite_mul, ite_mul]
  norm_num

/-- Settles O29: the two words of R73 and R74, and two little-endian data words. -/
theorem encodedFrameUnderFlRef : Obligations.EncodedFrameUnderFlRef := fun f =>
  ⟨encodeId_flRef f, encodeControl_flRef f, fromLe4_toNat .., fromLe4_toNat ..⟩

theorem getLsbD_eq_decide {w : Nat} (v : BitVec w) (i : Nat) : v.getLsbD i = decide (v.toNat / 2 ^ i % 2 = 1) := by
  rw [← BitVec.testBit_toNat, Nat.testBit_eq_decide_div_mod_eq]

/-- The received identifier under `FL_REF` (R73). -/
theorem decodeId_flRef (ext : Bool) (w0 : Word) :
    (decodeId flRef ext w0).toNat =
      if ext then w0.toNat % 2 ^ 11 * 2 ^ 18 + w0.toNat / 2 ^ 11 % 2 ^ 18 else w0.toNat % 2 ^ 11 := by
  have hsid : ((w0.extractLsb' 0 11).setWidth 32).toNat = w0.toNat % 2 ^ 11 := by
    rw [BitVec.toNat_setWidth_of_le (by decide), extractLsb'_zero_toNat]
  have heid : ((w0.extractLsb' 11 18).setWidth 32).toNat = w0.toNat / 2 ^ 11 % 2 ^ 18 := by
    rw [BitVec.toNat_setWidth_of_le (by decide), extractLsb'_toNat_div]
  cases ext with
  | true =>
    have hor := or_shiftLeft_toNat (n := 18) (lo := (w0.extractLsb' 11 18).setWidth 32)
      (hi := (w0.extractLsb' 0 11).setWidth 32) (by omega) (by omega)
    rw [hsid, heid, BitVec.or_comm, Nat.add_comm] at hor
    exact hor
  | false => exact hsid

theorem deliveredLen_raw_toNat (code : BitVec 4) : (deliveredLen .raw code).toNat = code.toNat :=
  BitVec.toNat_setWidth_of_le (by decide)

theorem deliveredLen_clamp8_toNat (code : BitVec 4) : (deliveredLen .clamp8 code).toNat = min code.toNat 8 := by
  rw [deliveredLen, clampLen_toNat, BitVec.toNat_setWidth_of_le (by decide)]

/-- Settles O30: each field of the frame is a field of its word. -/
theorem decodedFrameUnderFlRef : Obligations.DecodedFrameUnderFlRef := by
  intro P o hfl
  simp only [decodeObj, hfl]
  refine ⟨getLsbD_eq_decide _ _, getLsbD_eq_decide _ _, ?_, ?_, decodeId_flRef _ _, ?_⟩
  · rw [BitVec.toNat_setWidth_of_le (by decide), extractLsb'_toNat_div]
    rfl
  · have hcode : (o.w1.extractLsb' 0 4).toNat = o.w1.toNat % 16 := extractLsb'_zero_toNat _ _
    cases P.rxLenMode with
    | raw => exact (deliveredLen_raw_toNat _).trans hcode
    | clamp8 => exact (deliveredLen_clamp8_toNat _).trans (congrArg (min · 8) hcode)
  · have h2 := o.w2.isLt
    have h3 := o.w3.isLt
    simp only [decodeData, extractLsb'_toNat_div, true_and]
    omega

/-- The fields of the control word of R74, each told apart from the others. -/
theorem control_fields {ctl len : Nat} {ext rtr : Bool} (hlen : len ≤ 8)
    (hctl : ctl = len + (if ext then 16 else 0) + (if rtr then 32 else 0)) :
    ctl / 16 % 2 = ext.toNat ∧ ctl / 32 % 2 = rtr.toNat ∧ ctl / 2 ^ 11 % 32 = 0 ∧ ctl % 16 = len := by
  have hext : (if ext then 16 else 0) = 16 * ext.toNat := by cases ext <;> rfl
  have hrtr : (if rtr then 32 else 0) = 32 * rtr.toNat := by cases rtr <;> rfl
  have hextLe := ext.toNat_le
  have hrtrLe := rtr.toNat_le
  rw [hext, hrtr] at hctl
  omega

/-- An extended identifier put together from its two parts (R73). -/
theorem ext_id_parts (n : Nat) :
    (n / 2 ^ 18 % 2 ^ 11 + n % 2 ^ 18 * 2 ^ 11) % 2 ^ 11 * 2 ^ 18 +
      (n / 2 ^ 18 % 2 ^ 11 + n % 2 ^ 18 * 2 ^ 11) / 2 ^ 11 % 2 ^ 18 = n % 2 ^ 29 := by
  have hsid : (n / 2 ^ 18 % 2 ^ 11 + n % 2 ^ 18 * 2 ^ 11) % 2 ^ 11 = n / 2 ^ 18 % 2 ^ 11 := by omega
  have heid : (n / 2 ^ 18 % 2 ^ 11 + n % 2 ^ 18 * 2 ^ 11) / 2 ^ 11 = n % 2 ^ 18 := by omega
  rw [hsid, heid]
  omega

/-- Settles O31: the fields O30 reads are the ones O29 wrote. -/
theorem frameObjectRoundTrip : Obligations.FrameObjectRoundTrip := by
  intro P f hfl
  obtain ⟨hw0, hw1, -, -⟩ := encodedFrameUnderFlRef f
  obtain ⟨hext, hrtr, hidx, hlen, hid, -⟩ := decodedFrameUnderFlRef P (encodeObj flRef f) hfl
  obtain ⟨hctlExt, hctlRtr, hctlIdx, hctlLen⟩ := control_fields (Nat.min_le_right _ _) hw1
  rw [hctlLen] at hlen
  simp only [hctlExt, Bool.toNat_eq_one, Bool.decide_eq_true] at hext
  simp only [hctlRtr, Bool.toNat_eq_one, Bool.decide_eq_true] at hrtr
  rw [hext] at hid
  rw [hfl]
  refine ⟨hext, hrtr, decodeData_fromLe4 f.data,
    BitVec.eq_of_toNat_eq (hidx.trans hctlIdx), ?_, ?_⟩
  · cases hmode : P.rxLenMode with
    | raw => simpa only [hmode] using hlen
    | clamp8 => simpa only [hmode, Nat.min_assoc, Nat.min_self] using hlen
  · rw [hid, hw0]
    split
    · exact ext_id_parts _
    · exact Nat.mod_mod _ _

end Sys2Proof.Machine
end

section
/-! Progress (R62, R66; log entries 6 and 9): an instruction whose queues are there answers a next state. -/

namespace Sys2Proof.Machine

/-- A configured core has both its queues (R95, log entry 9). -/
def QueuesPresent (s : State) : Prop := s.ready = true → s.txqSw.isSome = true ∧ s.rxqSw.isSome = true

theorem phaseOk_queuesPresent {s : State} (h : phaseOk s = true) : QueuesPresent s := by
  intro hready
  obtain ⟨hnot, -⟩ | ⟨c, tq, rq, -, htx, hrx, -⟩ := (phaseOk_iff s).1 h
  · rw [hready] at hnot
    cases hnot
  · exact ⟨by rw [htx]; rfl, by rw [hrx]; rfl⟩

theorem guarded_total {reason : Option Reason} {s : State} {m : Host.Outcome State Fault Refusal}
    (h : reason = none → ∃ t, m = .next t) : ∃ t, guarded reason s m = .next t := by
  cases reason with
  | some r => exact ⟨_, rfl⟩
  | none => exact h rfl

theorem withQueue_total {q : Option Queue} {m : Queue → Host.Outcome State Fault Refusal} (hq : q.isSome = true)
    (h : ∀ x, ∃ t, m x = .next t) : ∃ t, withQueue q m = .next t := by
  obtain ⟨x, rfl⟩ := Option.isSome_iff_exists.1 hq
  exact h x

theorem readyGate_none {ready : Bool} (h : readyGate ready = none) : ready = true := by
  cases ready with
  | true => rfl
  | false => cases h

theorem dispatchRefusal_none {ready : Bool} {obs : Byte} (h : dispatchRefusal ready obs = none) : ready = true := by
  unfold dispatchRefusal at h
  split_ifs at h
  exact readyGate_none h

theorem trySend_total {s : State} (f : Frame) (htx : s.txqSw.isSome = true) : ∃ t, trySend f s = .next t := by
  unfold trySend sendOrdinary
  split_ifs
  · exact withQueue_total htx fun _ => ⟨_, rfl⟩
  · exact ⟨_, rfl⟩
  · exact ⟨_, rfl⟩
  · exact ⟨_, rfl⟩

/-- The ready gate is what keeps the requests on the queues from the fault (R136). -/
theorem exec_total {s : State} {i : Instr} (hq : QueuesPresent s) (hirq : i = .irq → s.ready = true) :
    ∃ t, exec i s = .next t := by
  cases i with
  | write | read | reset | rd32 | wr32 | rd8 | wr8 | devreset | readerr => exact ⟨_, rfl⟩
  | setrate r =>
    change ∃ t, execSetrate r s = .next t
    unfold execSetrate
    split
    · exact ⟨_, rfl⟩
    · exact ⟨_, rfl⟩
  | configure conf => exact guarded_total fun _ => ⟨_, rfl⟩
  | trysend f => exact guarded_total fun h => trySend_total _ (hq (trysendRefusal_none h)).1
  | avail | recv => exact guarded_total fun h => withQueue_total (hq (readyGate_none h)).2 fun _ => ⟨_, rfl⟩
  | dispatch obs => exact guarded_total fun h => withQueue_total (hq (dispatchRefusal_none h)).2 fun _ => ⟨_, rfl⟩
  | txqSize | txqCount | txqPeak =>
    exact guarded_total fun h => withQueue_total (hq (readyGate_none h)).1 fun _ => ⟨_, rfl⟩
  | irq =>
    obtain ⟨htx, hrx⟩ := hq (hirq rfl)
    exact withQueue_total hrx fun _ => withQueue_total htx fun _ => ⟨_, rfl⟩

theorem isrEligible_ready {s : State} (h : isrEligible s = true) : s.ready = true := by
  simp only [isrEligible, Bool.and_eq_true] at h
  exact h.1.2

theorem stepIsr_total {s : State} (hq : QueuesPresent s) : ∃ t, stepIsr s = .next t := by
  unfold stepIsr
  split
  · next he => exact exec_total hq fun _ => isrEligible_ready he
  · exact ⟨_, rfl⟩

/-- A rejected request is a refusal of the core, or stops the step with its reason (R69, log entry 6). -/
theorem rejectRequest_cases (why : Reject) (s : State) :
    (∃ t, rejectRequest why s = .next t) ∨ rejectRequest why s = .refused (.undecodable why) := by
  cases why with
  | reservedCode => exact .inl ⟨_, rfl⟩
  | emptyRequest | wrongLength | notEmitted | badBracket => exact .inr rfl

/-- The foreground's turn ends in a next state, or stops at a request that is no encoding (R62, R66). -/
theorem stepFg_total {s : State} (hq : QueuesPresent s) :
    (∃ t, stepFg s = .next t) ∨
    ∃ item rest why, s.port = item :: rest ∧ decode item = .error why ∧ stepFg s = .refused (.undecodable why) := by
  cases hport : s.port with
  | nil => exact .inl ⟨s, stepFg_idle hport⟩
  | cons item rest =>
    cases hdec : decode item with
    | ok i =>
      rw [stepFg_request hport hdec]
      exact .inl (exec_total hq fun hirq => absurd hirq (decode_ne_irq hdec))
    | error why =>
      rw [stepFg_reject hport hdec]
      exact (rejectRequest_cases why _).imp_right fun h => ⟨item, rest, why, rfl, hdec, h⟩

/-- Settles O47: a sound core has the queues its phase calls for, so only bytes at the port can stop it. -/
theorem soundStepNeverFaults : Obligations.SoundStepNeverFaults := by
  intro s hs
  have hq : QueuesPresent s := phaseOk_queuesPresent ((sound_iff s).1 hs).2.2
  obtain ⟨ag, tk, hturn⟩ := nextTurn_frame s
  have hq' : QueuesPresent (nextTurn s).2 := hturn ▸ hq
  have hport : (nextTurn s).2.port = s.port := by rw [hturn]
  unfold step
  cases (nextTurn s).1 with
  | fg =>
    obtain hnext | ⟨item, rest, why, hp, hdec, hstop⟩ := stepFg_total hq'
    · exact .inl hnext
    · exact .inr ⟨item, rest, why, hport ▸ hp, hdec, hstop⟩
  | isr => exact .inl (stepIsr_total hq')
  | dev ev => exact .inl ⟨_, rfl⟩

end Sys2Proof.Machine
end

section
/-! The raw codec requests and the wire commands (R83, R86 to R92): each transaction as one recorded event with its wire bytes,
and what the host is answered. -/

namespace Sys2Proof.Machine

/-- A closed bracket is one event run (R83). -/
theorem releaseCs_eq_afterEvents (b : Bus) (chip : Chip) (ev : BusEvent) : releaseCs b chip ev = afterEvents b chip [ev] := rfl

theorem memRead32_afterEvents (P : Params) (is : Issuer) (a : Nat) (b : Bus) :
    let r := chipRead P.cm b.hist (addr12 a) .four b.chip
    memRead32 P is a b = (r.1, afterEvents b r.2 [evRd32 b is a r.1]) := by
  rw [memRead32_eq, releaseCs_eq_afterEvents]

theorem memRead8_afterEvents (P : Params) (is : Issuer) (a : Nat) (b : Bus) :
    let r := chipRead P.cm b.hist (addr12 a) .one b.chip
    memRead8 P is a b = (r.1.setWidth 8, afterEvents b r.2 [evRd8 b is a (r.1.setWidth 8)]) := by
  rw [memRead8_eq, releaseCs_eq_afterEvents]

theorem memWrite32_afterEvents (P : Params) (is : Issuer) (a : Nat) (v : Word) (b : Bus) :
    memWrite32 P is a v b = afterEvents b (chipWrite P (addr12 a) (.word v) b.chip) [evWr32 b is a v] := by
  rw [memWrite32_eq, releaseCs_eq_afterEvents]

theorem memWrite8_afterEvents (P : Params) (is : Issuer) (a : Nat) (v : Byte) (b : Bus) :
    memWrite8 P is a v b = afterEvents b (chipWrite P (addr12 a) (.byte v) b.chip) [evWr8 b is a v] := by
  rw [memWrite8_eq, releaseCs_eq_afterEvents]

theorem devReset_afterEvents (P : Params) (is : Issuer) (b : Bus) :
    devReset P is b = afterEvents b b.chip [evReset b is] := by
  rw [devReset_eq, releaseCs_eq_afterEvents]

/-- A command word keeps only the low 12 bits of the address (R40, R60), so keeping them before changes nothing. -/
theorem cmdWord_addr12 (opc : BitVec 4) (a : Nat) : cmdWord opc (addr12 a).toNat = cmdWord opc a := by
  rw [cmdWord, addr12_toNat, ← cmdWord]

theorem eventBytes_evRd32 (b : Bus) (is : Issuer) (a : Nat) (v : Word) :
    eventBytes (evRd32 b is a v) = cmdBytes (cmdWord opcRead a) ++ bytesLe4 v :=
  congrArg (fun c => cmdBytes c ++ bytesLe4 v) (cmdWord_addr12 opcRead a)

theorem eventBytes_evRd8 (b : Bus) (is : Issuer) (a : Nat) (v : Byte) :
    eventBytes (evRd8 b is a v) = cmdBytes (cmdWord opcRead a) ++ [v] :=
  congrArg (fun c => cmdBytes c ++ [v]) (cmdWord_addr12 opcRead a)

theorem eventBytes_evWr32 (b : Bus) (is : Issuer) (a : Nat) (v : Word) :
    eventBytes (evWr32 b is a v) = cmdBytes (cmdWord opcWrite a) ++ bytesLe4 v :=
  congrArg (fun c => cmdBytes c ++ bytesLe4 v) (cmdWord_addr12 opcWrite a)

theorem eventBytes_evWr8 (b : Bus) (is : Issuer) (a : Nat) (v : Byte) :
    eventBytes (evWr8 b is a v) = cmdBytes (cmdWord opcWrite a) ++ [v] :=
  congrArg (fun c => cmdBytes c ++ [v]) (cmdWord_addr12 opcWrite a)

/-- The 12 bits the statements take of a host address are those the codec sends (R40). -/
theorem extractLsb'_eq_addr12 (addr : Half) : addr.extractLsb' 0 12 = addr12 addr.toNat := rfl

/-- A 32-bit read answered with its value, as `RD32` (R86) and `READERR` (R92) do. -/
theorem respond_memRead32 (a : Nat) (s : State) :
    let r := chipRead s.par.cm s.bus.hist (addr12 a) .four s.bus.chip
    respond (.word (memRead32 s.par .fg a s.bus).1) { s with bus := (memRead32 s.par .fg a s.bus).2 } =
      { s with bus := afterEvents s.bus r.2 [evRd32 s.bus .fg a r.1], resp := some (.word r.1) } := by
  rw [memRead32_afterEvents]
  rfl

/-- Settles O8: the answered 32-bit read, at the address the host gave. -/
theorem rd32ReadsOneWord : Obligations.Rd32ReadsOneWord := by
  intro addr s
  rw [extractLsb'_eq_addr12]
  exact ⟨congrArg Host.Outcome.next (respond_memRead32 addr.toNat s), eventBytes_evRd32 ..⟩

/-- Settles O9: the request is `MemWrite(a, 4, v)` and an answer. -/
theorem wr32WritesOneWord : Obligations.Wr32WritesOneWord := by
  intro addr v s ev
  refine ⟨?_, eventBytes_evWr32 ..⟩
  calc exec (.wr32 addr v) s = .next (respond .done { s with bus := memWrite32 s.par .fg addr.toNat v s.bus }) := rfl
    _ = _ := by
      rw [memWrite32_afterEvents, ← extractLsb'_eq_addr12]
      rfl

/-- Settles O10: the request is `MemRead(a, 1)` and its byte for an answer. -/
theorem rd8ReadsOneByte : Obligations.Rd8ReadsOneByte := by
  intro addr s r ev
  refine ⟨?_, eventBytes_evRd8 ..⟩
  calc exec (.rd8 addr) s =
        .next (respond (.byte (memRead8 s.par .fg addr.toNat s.bus).1)
          { s with bus := (memRead8 s.par .fg addr.toNat s.bus).2 }) := rfl
    _ = _ := by
      rw [memRead8_afterEvents, ← extractLsb'_eq_addr12]
      rfl

/-- Settles O11: the request is `MemWrite(a, 1, v)` and an answer. -/
theorem wr8WritesOneByte : Obligations.Wr8WritesOneByte := by
  intro addr v s ev
  refine ⟨?_, eventBytes_evWr8 ..⟩
  calc exec (.wr8 addr v) s = .next (respond .done { s with bus := memWrite8 s.par .fg addr.toNat v s.bus }) := rfl
    _ = _ := by
      rw [memWrite8_afterEvents, ← extractLsb'_eq_addr12]
      rfl

/-- Settles O12: the request is `DevReset()` and an answer. -/
theorem devresetSendsBareWord : Obligations.DevresetSendsBareWord := by
  refine ⟨rfl, fun s => ⟨?_, rfl⟩⟩
  calc exec .devreset s = .next (respond .done { s with bus := devReset s.par .fg s.bus }) := rfl
    _ = _ := by
      rw [devReset_afterEvents]
      rfl

theorem rateOf_above_one {rate : Byte} (h : 2 ≤ rate.toNat) : rateOf rate = none := by
  have hslow : rate ≠ 0 := by
    rintro rfl
    exact absurd h (by decide)
  have hfast : rate ≠ 1 := by
    rintro rfl
    exact absurd h (by decide)
  rw [rateOf, if_neg hslow, if_neg hfast]

/-- What `SETRATE` does is decided by the rate its operand names (R91). -/
theorem exec_setrate_named {rate : Byte} {r : Rate} (s : State) (h : rateOf rate = some r) :
    exec (.setrate rate) s = .next { s with bus := { s.bus with rate := r }, resp := some .done } := by
  change execSetrate rate s = _
  rw [execSetrate, h]
  rfl

theorem exec_setrate_unnamed {rate : Byte} (s : State) (h : rateOf rate = none) :
    exec (.setrate rate) s = .next { s with refused := true, resp := some (.refused .badRate) } := by
  change execSetrate rate s = _
  rw [execSetrate, h]
  rfl

/-- Settles O13: the operands 0 and 1 name a rate, those above name none. -/
theorem setrateSetsRate : Obligations.SetrateSetsRate := fun s =>
  ⟨exec_setrate_named s rfl, exec_setrate_named s rfl, fun _ h => exec_setrate_unnamed s (rateOf_above_one h)⟩

/-- Settles O14: the answered 32-bit read, at `A_TREC`. -/
theorem readerrReturnsRawRegister : Obligations.ReaderrReturnsRawRegister := by
  refine ⟨rfl, fun s => congrArg Host.Outcome.next ?_⟩
  have hread := respond_memRead32 s.par.cm.aTrec.toNat s
  rwa [addr12_toNat] at hread

/-- Settles O15: each command replaces the bus by what its one access leaves, and nothing else. -/
theorem wireCommandIsOneTransaction : Obligations.WireCommandIsOneTransaction := by
  intro addr s
  have only_bus {b b' : Bus} (h : b = b') :
      (.next { s with bus := b } : Host.Outcome State Fault Refusal) = .next { s with bus := b' } := by rw [h]
  refine ⟨fun v => only_bus ?_, fun v => only_bus ?_, only_bus ?_, only_bus ?_, only_bus (devReset_afterEvents ..)⟩
  · have hwrite := memWrite32_afterEvents s.par .fg addr.toNat v s.bus
    rwa [addr12_toNat] at hwrite
  · have hwrite := memWrite8_afterEvents s.par .fg addr.toNat v s.bus
    rwa [addr12_toNat] at hwrite
  · have hread := congrArg Prod.snd (memRead32_afterEvents s.par .fg addr.toNat s.bus)
    rwa [addr12_toNat] at hread
  · have hread := congrArg Prod.snd (memRead8_afterEvents s.par .fg addr.toNat s.bus)
    rwa [addr12_toNat] at hread

end Sys2Proof.Machine
end

section
/-! `CONFIGURE` (R93 to R99): which operands are refused and why (R94, R135), the transactions of an admitted one, and the state
each outcome leaves. -/

namespace Sys2Proof.Machine

theorem badBool_iff (b : Byte) : badBool b = true ↔ 2 ≤ b.toNat := decide_eq_true_iff

theorem tooManyFilters_iff (nflt : Byte) : tooManyFilters nflt = true ↔ nflt ≠ 0xFF ∧ 32 < nflt.toNat := by
  simp [tooManyFilters]

/-- The reasons of R94 in the order of R135, on the numbers an operand carries. -/
theorem configureRefusal_eq (ready : Bool) (c : ConfOperand) :
    configureRefusal ready c =
      if ready = true then some .configTwice
      else if c.rxCap = 0 then some .zeroRxCap
      else if 2 ≤ c.bypass.toNat then some .badBool
      else if c.nflt ≠ 0xFF ∧ 32 < c.nflt.toNat then some .tooManyFilters
      else none := by
  simp only [configureRefusal, badBool_iff, tooManyFilters_iff]

theorem exec_configure_admitted {conf : ConfOperand} {s : State} (h : configureRefusal s.ready conf = none) :
    exec (.configure conf) s = .next (respond .done (configured (cfgOf conf) s)) := by
  change execConfigure conf s = _
  rw [execConfigure, h, guarded_none]

theorem exec_configure_refused {conf : ConfOperand} {s : State} {r : Reason} (h : configureRefusal s.ready conf = some r) :
    exec (.configure conf) s = .next (raiseRefused r s) := by
  change execConfigure conf s = _
  rw [execConfigure, h, guarded_some]

/-- The transactions of `CONFIGURE` (R96, R99): the filters in list order, then the enables. An empty list leaves chip select to
the enables. -/
theorem programFilters_programEnables_ran (P : Params) (fs : List FilterEntry) (b : Bus) :
    RanEvents b (programEnables P (programFilters P 0 fs b))
      (((List.range fs.length).zip fs).flatMap (fun kf => filterEvents P.cm b kf.2 kf.1) ++
        [evWr8 b .fg P.cm.rxf.con.toNat P.cm.ieOnRxf, evWr8 b .fg P.cm.txf.con.toNat P.cm.ieOffTxf,
          evWr8 b .fg P.cm.aIntIe.toNat P.cm.vIntIe]) := by
  cases fs with
  | nil => exact programEnables_ran P b
  | cons f rest =>
    have hfilters := programFilters_ran P (f :: rest) 0 b b rfl nofun
    have hran := hfilters.trans (programEnables_ran P (programFilters P 0 (f :: rest) b))
    simp only [evWr8_rate hfilters.1] at hran
    rwa [List.range_eq_range']

/-- Settles O16: the admitted operand, with the bus written out as its transactions. -/
theorem configureLoadsTheCore : Obligations.ConfigureLoadsTheCore := by
  intro conf s hready hcap hbypass hcount c listed programmed
  have hadmitted : configureRefusal s.ready conf = none := by
    rw [configureRefusal_eq, if_neg (Bool.eq_false_iff.1 hready), if_neg hcap, if_neg (Nat.not_le.2 hbypass),
      if_neg fun ⟨hlisted, hmany⟩ => hcount.elim hlisted (Nat.not_le.2 hmany)]
  have hbus : (configured c s).bus = afterEvents s.bus (configured c s).bus.chip _ :=
    (programFilters_programEnables_ran s.par programmed s.bus).eq
  refine ⟨callbackTable listed, (configured c s).bus.chip, fun k => Vector.getElem_ofFn k.isLt, ?_⟩
  rw [exec_configure_admitted hadmitted, ← hbus]
  rfl

/-- Settles O17: each clause is one branch of the reasons in their order, and a refusal has no other effect. -/
theorem configureRefusals : Obligations.ConfigureRefusals := by
  intro conf s refusedWith
  refine ⟨fun hready => exec_configure_refused ?_, fun hready hcap => exec_configure_refused ?_,
    fun hready hcap hflag => exec_configure_refused ?_,
    fun hready hcap hbypass hlisted hmany => exec_configure_refused ?_⟩
  · rw [configureRefusal_eq, if_pos hready]
  · rw [configureRefusal_eq, if_neg (Bool.eq_false_iff.1 hready), if_pos hcap]
  · rw [configureRefusal_eq, if_neg (Bool.eq_false_iff.1 hready), if_neg hcap, if_pos hflag]
  · rw [configureRefusal_eq, if_neg (Bool.eq_false_iff.1 hready), if_neg hcap, if_neg (Nat.not_le.2 hbypass),
      if_pos ⟨hlisted, hmany⟩]

end Sys2Proof.Machine
end

section
/-! `ENV_REF` up to its plain memories (R59): what single transactions leave of it, for every chip map. -/

namespace Sys2Proof.Machine

/-- The chip is `ENV_REF` in state `e` up to the plain memories, of which the core believes nothing (R59). -/
def ChipIs (b : Bus) (e : EnvRef) : Prop := ∃ m32 m8, b.chip = .ref { e with mem32 := m32, mem8 := m8 }

theorem chipIs_of_chip {b : Bus} {e : EnvRef} (h : b.chip = .ref e) : ChipIs b e := ⟨e.mem32, e.mem8, h⟩

/-- An address outside the owned registers is none of their bytes (R85). -/
theorem ne_of_not_owned {m : ChipMap} {a r : Addr} (h : ownedAddr m a = false)
    (hr : r ∈ [m.rxf.con, m.txf.con, m.txq.con, m.aInt]) {i : Nat} (hi : i < 4) : a ≠ addr12 (r.toNat + i) := by
  rintro rfl
  refine Bool.eq_false_iff.1 h (List.any_eq_true.2 ⟨r, hr, List.any_eq_true.2 ⟨i, ?_, beq_self_eq_true _⟩⟩)
  interval_cases i <;> simp

theorem ne_register_of_not_owned {m : ChipMap} {a r : Addr} (h : ownedAddr m a = false)
    (hr : r ∈ [m.rxf.con, m.txf.con, m.txq.con, m.aInt]) : a ≠ r := by
  simpa using ne_of_not_owned h hr (i := 0) (by decide)

theorem noteIe_of_ne {r : FifoMap} {a : Addr} (h : a ≠ r.con) (v : Byte) (x : FifoEnv) : noteIe r a v x = x := if_neg h

theorem isAdvance_of_ne {r : FifoMap} {a : Addr} (h : a ≠ addr12 (r.con.toNat + 1)) (v : Byte) :
    isAdvance r a v = false := by
  simp [isAdvance, h]

/-- A byte written beside the status register acknowledges nothing (R125). -/
theorem ackStatus_of_ne {P : Params} {a : Addr} (h : ∀ i < 4, a ≠ addr12 (P.cm.aInt.toNat + i)) (v : Byte) (st : Word) :
    ackStatus P a v st = st := by
  have hnone : (List.finRange 32).filter (isAck P a v) = [] := by
    refine List.filter_eq_nil_iff.2 fun b _ => ?_
    have hb : a ≠ addr12 (ackAddr P.cm b) := h (b.val / 8) (by omega)
    simp [isAck, hb]
  simp [ackStatus, hnone]

/-- An acknowledgement only clears bits. -/
theorem ackStatus_masked (P : Params) (a : Addr) (v : Byte) {st mask : Word} (h : st &&& mask = st) :
    ackStatus P a v st &&& mask = ackStatus P a v st := by
  unfold ackStatus
  induction (List.finRange 32).filter (isAck P a v) generalizing st with
  | nil => exact h
  | cons i rest ih =>
    refine ih ?_
    rw [BitVec.and_assoc, BitVec.and_comm _ mask, ← BitVec.and_assoc, h]

namespace ChipIs

variable {P : Params} {is : Issuer} {b : Bus} {e : EnvRef}

/-- Two states of `ENV_REF` that differ in the plain memories alone are one to `ChipIs`. -/
theorem congr {e' : EnvRef} (h : ChipIs b e) (hrxf : e'.rxf = e.rxf) (htxf : e'.txf = e.txf) (htxq : e'.txq = e.txq)
    (hst : e'.st = e.st) : ChipIs b e' := by
  obtain ⟨m32, m8, h⟩ := h
  exact ⟨m32, m8, by rw [h, hrxf, htxf, htxq, hst]⟩

theorem txn_rd (h : ChipIs b e) (a : Nat) (w : Width) : ChipIs (txn P is (.rd a w) b).2 e := by
  obtain ⟨m32, m8, h⟩ := h
  exact ⟨m32, m8, txn_rd_keeps_ref h⟩

theorem write8 (h : ChipIs b e) (a : Nat) (v : Byte) : ChipIs (memWrite8 P is a v b) (envWrite8 P e (addr12 a) v) := by
  obtain ⟨m32, m8, h⟩ := h
  exact ⟨m32, memSet m8 (addr12 a).toNat v, memWrite8_ref h⟩

theorem write32 (h : ChipIs b e) (a : Nat) (v : Word) : ChipIs (memWrite32 P is a v b) (envWrite32 P.cm e (addr12 a) v) := by
  obtain ⟨m32, m8, h⟩ := h
  exact ⟨memSet m32 (addr12 a).toNat v, m8, memWrite32_ref h⟩

theorem write8_not_owned (h : ChipIs b e) {a : Nat} (ha : ownedAddr P.cm (addr12 a) = false) (v : Byte) :
    ChipIs (memWrite8 P is a v b) e := by
  have hcon := fun r => ne_register_of_not_owned (r := r) ha
  have hadv := fun r hr => ne_of_not_owned (r := r) ha hr (i := 1) (by decide)
  simp only [List.forall_mem_cons] at hcon hadv
  obtain ⟨hrx, htx, htq, -⟩ := hcon
  obtain ⟨hrx', htx', htq', -⟩ := hadv
  have hack : ∀ i < 4, addr12 a ≠ addr12 (P.cm.aInt.toNat + i) := fun i hi => ne_of_not_owned ha (by simp) hi
  refine (h.write8 a v).congr ?_ ?_ ?_ (ackStatus_of_ne hack v e.st).symm
  · simp [envWrite8, noteIe_of_ne hrx, isAdvance_of_ne hrx']
  · simp [envWrite8, noteIe_of_ne htx, isAdvance_of_ne htx']
  · simp [envWrite8, noteIe_of_ne htq, isAdvance_of_ne htq']

end ChipIs
end Sys2Proof.Machine
end

section
/-! `ENV_REF` under `CM_REF` and the fixed offsets (R31, R59): what the named operations of the core do to it (R104 to
R109). -/

namespace Sys2Proof.Machine

theorem stageWord_eq_set (m : ChipMap) (a : Addr) (v : Word) (x : FifoEnv) :
    ∃ o, stageWord m a v x = { x with stage := o } := by
  unfold stageWord
  split
  · exact ⟨_, rfl⟩
  · exact ⟨x.stage, rfl⟩

/-- `ENV_REF` with other staging areas: no belief of the core is about them (R59). -/
def restage (e : EnvRef) (o o' : FrameObj) : EnvRef :=
  { e with txf := { e.txf with stage := o }, txq := { e.txq with stage := o' } }

namespace ChipIs

variable {P : Params} {is : Issuer} {b : Bus} {e : EnvRef}

theorem write32_not_owned (h : ChipIs b e) {a : Nat} (ha : ownedAddr P.cm (addr12 a) = false) (v : Word) :
    ∃ o o', ChipIs (memWrite32 P is a v b) (restage e o o') := by
  have hcon := fun r => ne_register_of_not_owned (r := r) ha
  simp only [List.forall_mem_cons] at hcon
  obtain ⟨hrx, htx, htq, -⟩ := hcon
  obtain ⟨o, ho⟩ := stageWord_eq_set P.cm (addr12 a) v e.txf
  obtain ⟨o', ho'⟩ := stageWord_eq_set P.cm (addr12 a) v e.txq
  refine ⟨o, o', (h.write32 a v).congr ?_ ?_ ?_ rfl⟩
  · simp [envWrite32, restage, noteIe_of_ne hrx]
  · simp [envWrite32, restage, noteIe_of_ne htx, ho]
  · simp [envWrite32, restage, noteIe_of_ne htq, ho']

end ChipIs

section CmRef

variable {P : Params} (hcm : P.cm = cmRef) (is : Issuer) {b : Bus} {e : EnvRef}
include hcm

/-- Beyond the four bytes of the status register nothing is acknowledged. -/
theorem ackStatus_cmRef {a : Addr} (ha : 0x20 ≤ a.toNat) (v : Byte) (st : Word) : ackStatus P a v st = st := by
  refine ackStatus_of_ne (fun i hi => ?_) v st
  rintro rfl
  rw [hcm, addr12_toNat_mod] at ha
  simp [cmRef] at ha
  omega

/-- A byte at the control register of a FIFO is noted there and nowhere else. -/
theorem envWrite8_con (e : EnvRef) (f : Fifo) (v : Byte) :
    envWrite8 P e (fifoMap cmRef f).con v =
      { setEnvFifo e f { envFifo e f with ie := some v } with mem8 := memSet e.mem8 (fifoMap cmRef f).con.toNat v } := by
  have hack : ackStatus P (fifoMap cmRef f).con v e.st = e.st := ackStatus_cmRef hcm (by cases f <;> decide) v e.st
  rw [envWrite8, hack, hcm]
  cases f <;> simp [noteIe, isAdvance, addr12, cmRef, setEnvFifo, envFifo, fifoMap]

/-- The advance byte of a FIFO advances it and no other (R105). -/
theorem envWrite8_advance (e : EnvRef) (f : Fifo) :
    envWrite8 P e (addr12 ((fifoMap cmRef f).con.toNat + 1)) (fifoMap cmRef f).adv =
      { setEnvFifo e f (if f = .rxf then advanceRx e.rxf else advanceTx (envFifo e f)) with
        mem8 := memSet e.mem8 (addr12 ((fifoMap cmRef f).con.toNat + 1)).toNat (fifoMap cmRef f).adv } := by
  have hack := ackStatus_cmRef hcm (a := addr12 ((fifoMap cmRef f).con.toNat + 1)) (by cases f <;> decide)
    (fifoMap cmRef f).adv e.st
  rw [envWrite8, hack, hcm]
  cases f <;> simp [noteIe, isAdvance, addr12, cmRef, setEnvFifo, envFifo, fifoMap]

/-- A byte at the status register only acknowledges (R125). -/
theorem envWrite8_status (e : EnvRef) {a : Addr} (ha : a.toNat < 0x20) (v : Byte) :
    envWrite8 P e a v = { e with st := ackStatus P a v e.st, mem8 := memSet e.mem8 a.toNat v } := by
  have hne : ∀ c : Addr, 0x20 ≤ c.toNat → a ≠ c := by
    rintro c hc rfl
    omega
  simp [envWrite8, noteIe, isAdvance, addr12, hcm, cmRef, hne]

/-- `SetIE` sets the enable byte of its FIFO and nothing else (R106). -/
theorem setIE_chipIs (f : IeFifo) (on : Bool) (h : ChipIs b e) :
    ChipIs (setIE P is f on b)
      (setEnvFifo e (ieFifo f) { envFifo e (ieFifo f) with ie := some (ieByte cmRef f on) }) := by
  have hw := h.write8 (P := P) (is := is) (fifoMap P.cm (ieFifo f)).con.toNat (ieByte P.cm f on)
  rw [hcm, addr12_toNat, envWrite8_con hcm] at hw
  rw [setIE, hcm]
  exact hw.congr rfl rfl rfl rfl

theorem advance_chipIs (f : Fifo) (h : ChipIs b e) :
    ChipIs (advance P is f b) (setEnvFifo e f (if f = .rxf then advanceRx e.rxf else advanceTx (envFifo e f))) := by
  have hw := h.write8 (P := P) (is := is) ((fifoMap P.cm f).con.toNat + 1) (fifoMap P.cm f).adv
  rw [hcm, envWrite8_advance hcm] at hw
  rw [advance, hcm]
  exact hw.congr rfl rfl rfl rfl

theorem write8_status_chipIs {a : Nat} (ha : a < 0x20) (v : Byte) (h : ChipIs b e) :
    ChipIs (memWrite8 P is a v b) { e with st := ackStatus P (addr12 a) v e.st } := by
  have hlow : (addr12 a).toNat < 0x20 := by
    rw [addr12_toNat_mod]
    omega
  have hw := h.write8 (P := P) (is := is) a v
  rw [envWrite8_status hcm e hlow] at hw
  exact hw.congr rfl rfl rfl rfl

end CmRef

section Slots

/-- The offsets `o(f)` the tests fix (R59), which keep the three slots apart. -/
def FixedOffsets (e : EnvRef) : Prop := e.rxf.off = 0x000 ∧ e.txf.off = 0x100 ∧ e.txq.off = 0x200

/-- The slot address of a FIFO under `CM_REF` and the fixed offsets. -/
def slotBase : Fifo → Nat
  | .rxf => 0x400
  | .txf => 0x500
  | .txq => 0x600

theorem addr12_eq_iff {a b : Nat} : addr12 a = addr12 b ↔ a % 4096 = b % 4096 := by
  rw [← BitVec.toNat_inj, addr12_toNat_mod, addr12_toNat_mod]

/-- The slots lie apart, and each holds its four words in order. -/
theorem slotWord_slotBase (f g : Fifo) (j : Fin 4) :
    slotWord (slotBase g) (addr12 (slotBase f + 4 * j.val)) = if g = f then some j else none := by
  simp only [slotWord, addr12_eq_iff]
  revert j
  cases f <;> cases g <;> decide

/-- The slots lie above every register (R31). -/
theorem slot_ne_register (f : Fifo) (j : Fin 4) {r : Addr} (hr : r.toNat < 0x400) :
    addr12 (slotBase f + 4 * j.val) ≠ r := by
  rw [← addr12_toNat r, ne_eq, addr12_eq_iff]
  have hslot : 0x400 ≤ slotBase f ∧ slotBase f ≤ 0x600 := by cases f <;> decide
  omega

theorem slot_ne_con (f g : Fifo) (j : Fin 4) : addr12 (slotBase f + 4 * j.val) ≠ (fifoMap cmRef g).con :=
  slot_ne_register f j (by cases g <;> decide)

variable {P : Params} (hcm : P.cm = cmRef) (is : Issuer) {b : Bus} {e : EnvRef} (hoff : FixedOffsets e)

include hoff in
theorem envSlot_cmRef (f : Fifo) : envSlot cmRef (envFifo e f) = slotBase f := by
  obtain ⟨hrx, htx, htq⟩ := hoff
  cases f <;> simp [envSlot, envFifo, slotBase, cmRef, hrx, htx, htq]

include hoff in
theorem stageWord_slot (f g : Fifo) (j : Fin 4) (v : Word) :
    stageWord cmRef (addr12 (slotBase f + 4 * j.val)) v (envFifo e g) =
      if g = f then { envFifo e g with stage := setObjWord (envFifo e g).stage j v } else envFifo e g := by
  rw [stageWord, envSlot_cmRef hoff g, slotWord_slotBase]
  split_ifs <;> rfl

include hcm hoff

/-- `Slot(f)` reads the offset of its own FIFO (R104). -/
theorem slot_chipIs (f : Fifo) (h : ChipIs b e) : (slot P is f b).1 = slotBase f ∧ ChipIs (slot P is f b).2 e := by
  refine ⟨?_, h.txn_rd _ _⟩
  obtain ⟨m32, m8, h⟩ := h
  rw [slot, memRead32_ref h, ← envSlot_cmRef hoff f, addr12_toNat, hcm]
  cases f <;> simp [envRead32, envSlot, envFifo, cmRef, fifoMap]

omit hcm in
theorem fixedOffsets_setStage (f : Fifo) (o : FrameObj) : FixedOffsets (setEnvFifo e f { envFifo e f with stage := o }) := by
  cases f <;> exact hoff

omit hcm in
/-- A word written into the slot of a transmit FIFO is staged there and nowhere else (R59, R71). -/
theorem envWrite32_slot {f : Fifo} (hf : f ≠ .rxf) (j : Fin 4) (v : Word) :
    envWrite32 cmRef e (addr12 (slotBase f + 4 * j.val)) v =
      { setEnvFifo e f { envFifo e f with stage := setObjWord (envFifo e f).stage j v } with
        mem32 := memSet e.mem32 (addr12 (slotBase f + 4 * j.val)).toNat v } := by
  have hrx : noteIe cmRef.rxf (addr12 (slotBase f + 4 * j.val)) (v.setWidth 8) e.rxf = e.rxf :=
    noteIe_of_ne (slot_ne_con f .rxf j) _ _
  have htx : ∀ x, noteIe cmRef.txf (addr12 (slotBase f + 4 * j.val)) (v.setWidth 8) x = x :=
    noteIe_of_ne (slot_ne_con f .txf j) _
  have htq : ∀ x, noteIe cmRef.txq (addr12 (slotBase f + 4 * j.val)) (v.setWidth 8) x = x :=
    noteIe_of_ne (slot_ne_con f .txq j) _
  have hstx := stageWord_slot hoff f .txf j v
  have hstq := stageWord_slot hoff f .txq j v
  simp only [envFifo] at hstx hstq
  rw [envWrite32, hrx, htx, htq, hstx, hstq]
  cases f with
  | rxf => exact absurd rfl hf
  | txf | txq => rfl

theorem write32_slot_chipIs {f : Fifo} (hf : f ≠ .rxf) (j : Fin 4) (v : Word) (h : ChipIs b e) :
    ChipIs (memWrite32 P is (slotBase f + 4 * j.val) v b)
      (setEnvFifo e f { envFifo e f with stage := setObjWord (envFifo e f).stage j v }) := by
  have hw := h.write32 (P := P) (is := is) (slotBase f + 4 * j.val) v
  rw [hcm, envWrite32_slot hoff hf] at hw
  exact hw.congr rfl rfl rfl rfl

/-- A frame object written into the slot of a transmit FIFO is its staged object (R59, R108). -/
theorem writeObj_chipIs {f : Fifo} (hf : f ≠ .rxf) (o : FrameObj) (h : ChipIs b e) :
    ChipIs (writeObj P is (slotBase f) o b) (setEnvFifo e f { envFifo e f with stage := o }) := by
  have h0 := write32_slot_chipIs hcm is hoff hf 0 o.w0 h
  have h1 := write32_slot_chipIs hcm is (fixedOffsets_setStage hoff f _) hf 1 o.w1 h0
  have h2 := write32_slot_chipIs hcm is (fixedOffsets_setStage (fixedOffsets_setStage hoff f _) f _) hf 2 o.w2 h1
  have h3 := write32_slot_chipIs hcm is
    (fixedOffsets_setStage (fixedOffsets_setStage (fixedOffsets_setStage hoff f _) f _) f _) hf 3 o.w3 h2
  cases f <;> exact h3

/-- `HwWrite` appends the encoded frame to a transmit FIFO that has space (R59, R108). -/
theorem hwWrite_chipIs {f : Fifo} (hf : f ≠ .rxf) (fr : Frame) (space : hasSpace (envFifo e f) = true) (h : ChipIs b e) :
    ChipIs (hwWrite P is f fr b) (setEnvFifo e f { envFifo e f with
      objs := (envFifo e f).objs ++ [encodeObj P.fl fr], stage := encodeObj P.fl fr }) := by
  obtain ⟨hslot, h0⟩ := slot_chipIs hcm is hoff f h
  have h1 := writeObj_chipIs hcm is hoff hf (encodeObj P.fl fr) h0
  have h2 := advance_chipIs hcm is f h1
  rw [if_neg hf] at h2
  rw [hwWrite, hslot]
  have hadv : advanceTx { envFifo e f with stage := encodeObj P.fl fr } =
      { envFifo e f with objs := (envFifo e f).objs ++ [encodeObj P.fl fr], stage := encodeObj P.fl fr } := if_pos space
  rw [← hadv]
  cases f <;> exact h2

omit hcm in
/-- A word read from the receive slot is that word of the object at the head (R59, R71). -/
theorem envRead32_slot {o : FrameObj} {rest : List FrameObj} (head : e.rxf.objs = o :: rest) (j : Fin 4) :
    envRead32 cmRef e (addr12 (slotBase .rxf + 4 * j.val)) = objWord o j := by
  have hrx : envSlot cmRef e.rxf = 0x400 := envSlot_cmRef hoff .rxf
  have hslot : envSlotRead cmRef e (addr12 (slotBase .rxf + 4 * j.val)) = some (objWord o j) := by
    have hrx : envSlot cmRef e.rxf = slotBase .rxf := envSlot_cmRef hoff .rxf
    simp only [envSlotRead, head, hrx, slotWord_slotBase, if_true, Option.map_some]
  have hrxf : addr12 (slotBase .rxf + 4 * j.val) ≠ cmRef.rxf.ua := slot_ne_register .rxf j (by decide)
  have htxf : addr12 (slotBase .rxf + 4 * j.val) ≠ cmRef.txf.ua := slot_ne_register .rxf j (by decide)
  have htxq : addr12 (slotBase .rxf + 4 * j.val) ≠ cmRef.txq.ua := slot_ne_register .rxf j (by decide)
  simp only [envRead32, if_neg hrxf, if_neg htxf, if_neg htxq, hslot]

theorem memRead32_slot {o : FrameObj} {rest : List FrameObj} (head : e.rxf.objs = o :: rest) (j : Fin 4) (h : ChipIs b e) :
    (memRead32 P is (slotBase .rxf + 4 * j.val) b).1 = objWord o j := by
  obtain ⟨m32, m8, h⟩ := h
  rw [memRead32_ref h, hcm]
  exact envRead32_slot (e := { e with mem32 := m32, mem8 := m8 }) hoff head j

/-- A frame object read from the receive slot is the one at the head (R59, R109). -/
theorem readObj_chipIs {o : FrameObj} {rest : List FrameObj} (head : e.rxf.objs = o :: rest) (h : ChipIs b e) :
    (readObj P is (slotBase .rxf) b).1 = o ∧ ChipIs (readObj P is (slotBase .rxf) b).2 e := by
  have hread := fun (a : Nat) {b' : Bus} (h' : ChipIs b' e) => h'.txn_rd (P := P) (is := is) a .four
  have h0 := hread (slotBase .rxf) h
  have h1 := hread (slotBase .rxf + 4) h0
  have h2 := hread (slotBase .rxf + 8) h1
  refine ⟨?_, hread (slotBase .rxf + 12) h2⟩
  have hword := fun (j : Fin 4) {b' : Bus} (h' : ChipIs b' e) => memRead32_slot hcm is hoff head j h'
  have hw := congrArg₂ FrameObj.mk (hword 0 h) (hword 1 h0)
  have hw' := congrArg₂ (fun (g : Word → Word → FrameObj) x => g x) hw (hword 2 h1)
  exact congrArg₂ (fun (g : Word → FrameObj) x => g x) hw' (hword 3 h2)

/-- `HwRead` takes the object at the head of the receive FIFO (R59, R109). -/
theorem hwRead_chipIs {o : FrameObj} {rest : List FrameObj} (head : e.rxf.objs = o :: rest) (h : ChipIs b e) :
    (hwRead P is b).1 = decodeObj P o ∧ ChipIs (hwRead P is b).2 { e with rxf := { e.rxf with objs := rest } } := by
  obtain ⟨hslot, h0⟩ := slot_chipIs hcm is hoff .rxf h
  obtain ⟨hobj, h1⟩ := readObj_chipIs hcm is hoff head h0
  have h2 := advance_chipIs hcm is .rxf h1
  have hadv : advanceRx e.rxf = { e.rxf with objs := rest } := by rw [advanceRx, head]; rfl
  rw [if_pos rfl, hadv] at h2
  rw [hwRead, hslot]
  exact ⟨congrArg (decodeObj P) hobj, h2⟩

end Slots

section Registers

variable {P : Params} (hcm : P.cm = cmRef) (is : Issuer) {b : Bus} {e : EnvRef}
include hcm

/-- `NotFull(f)` answers whether the FIFO has space (R59, R107). -/
theorem notFull_chipIs (f : Fifo) (h : ChipIs b e) :
    (notFull P is f b).1 = hasSpace (envFifo e f) ∧ ChipIs (notFull P is f b).2 e := by
  refine ⟨?_, h.txn_rd _ _⟩
  obtain ⟨m32, m8, h⟩ := h
  have hread : (memRead8 P is (fifoMap P.cm f).sta.toNat b).1 = envStatusByte cmRef (envFifo e f) := by
    rw [memRead8_eq, addr12_toNat, h, hcm]
    cases f <;> simp [chipRead, envRead8, cmRef, fifoMap, envFifo]
  rw [notFull, hread, hcm]
  cases hs : hasSpace (envFifo e f) <;> simp [envStatusByte, hs, notFullBit, cmRef]

/-- The status word a pass reads (R59, R121). -/
theorem readStatus_chipIs (h : ChipIs b e) (hoff : FixedOffsets e) :
    (memRead32 P is P.cm.aInt.toNat b).1 = envIntWord cmRef e ∧ ChipIs (memRead32 P is P.cm.aInt.toNat b).2 e := by
  refine ⟨?_, h.txn_rd _ _⟩
  obtain ⟨m32, m8, h⟩ := h
  have hslot : envSlotRead cmRef { e with mem32 := m32, mem8 := m8 } cmRef.aInt = none := by
    have hrx : envSlot cmRef e.rxf = 0x400 := envSlot_cmRef hoff .rxf
    cases hobjs : e.rxf.objs with
    | nil => simp only [envSlotRead, hobjs]
    | cons o rest =>
      simp only [envSlotRead, hobjs, hrx]
      rfl
  rw [memRead32_ref h, hcm, addr12_toNat, envRead32, hslot]
  rfl

end Registers
end Sys2Proof.Machine
end

section
/-! No loss under `ENV_REF` (R118): the beliefs of the core in two parts, and what every operation keeps of them. -/

namespace Sys2Proof.Machine

/-- What R118 rests on whether the core is configured or not: the fixed offsets, no overrun, space in `TXF` unless it is marked
full, and no status bit but the four. -/
structure EnvSteady (full : Bool) (e : EnvRef) : Prop where
  offsets      : FixedOffsets e
  txfNoOverrun : e.txf.overrun = false
  txqNoOverrun : e.txq.overrun = false
  space        : full = false → hasSpace e.txf = true
  status       : e.st &&& 0x300C = e.st

/-- INV1 and INV2 as the chip sees them (R37). -/
def TxBelief (waiting full : Bool) (ie : Option Byte) : Prop :=
  (waiting = true → full = true) ∧ (full = true ↔ ie = some 0x81)

/-- INV3 as the chip sees it (R37). -/
def RxBelief (full : Bool) (ie : Option Byte) : Prop := full = true ↔ ie = some 0x00

theorem envAgrees_iff (s : State) (e : EnvRef) :
    EnvAgrees s e ↔ EnvSteady s.txHwFull e ∧
      (s.ready = true → TxBelief (txqWaiting s) s.txHwFull e.txf.ie ∧ RxBelief (rxqIsFull s) e.rxf.ie) := by
  constructor
  · rintro ⟨hrx, htx, htq, hover, hover', hspace, hst, hie⟩
    refine ⟨⟨⟨hrx, htx, htq⟩, hover, hover', hspace, hst⟩, fun hready => ?_⟩
    obtain ⟨hwait, hfull, hrxFull⟩ := hie hready
    exact ⟨⟨hwait, hfull⟩, hrxFull⟩
  · rintro ⟨⟨⟨hrx, htx, htq⟩, hover, hover', hspace, hst⟩, hie⟩
    refine ⟨hrx, htx, htq, hover, hover', hspace, hst, fun hready => ?_⟩
    obtain ⟨⟨hwait, hfull⟩, hrxFull⟩ := hie hready
    exact ⟨hwait, hfull, hrxFull⟩

/-- The environment is `ENV_REF` and agrees with the core, whatever stands in its plain memories. -/
def ChipAgrees (s : State) : Prop := ∃ e, ChipIs s.bus e ∧ EnvAgrees s e

theorem envAgrees_iff_chipAgrees (s : State) : envAgrees s = true ↔ ChipAgrees s := by
  constructor
  · intro h
    unfold envAgrees at h
    split at h
    · next e he => exact ⟨e, chipIs_of_chip he, of_decide_eq_true h⟩
    · cases h
  · rintro ⟨e, ⟨m32, m8, hchip⟩, h⟩
    simp only [envAgrees, hchip]
    exact decide_eq_true h

theorem txBelief_enabled (waiting : Bool) : TxBelief waiting true (some 0x81) := ⟨fun _ => rfl, by simp⟩

theorem txBelief_disabled : TxBelief false false (some 0x80) := ⟨by simp, by decide⟩

theorem rxBelief_enabled : RxBelief false (some 0x01) := by simp [RxBelief]

theorem rxBelief_disabled : RxBelief true (some 0x00) := by simp [RxBelief]

theorem txqWaiting_some {s : State} {q : Queue} (h : s.txqSw = some q) : txqWaiting s = !q.items.isEmpty := by
  simp [txqWaiting, h]

theorem rxqIsFull_some {s : State} {q : Queue} (h : s.rxqSw = some q) : rxqIsFull s = queueFull q := by
  simp [rxqIsFull, h]

section Operations

variable {P : Params} (hcm : P.cm = cmRef) {b : Bus} {e : EnvRef}

/-- A clean raw access reaches the staging areas at most (R59, R85). -/
theorem rawAccess_chipIs {i : Instr} {acc : Access} (clean : disturbs P.cm i = false) (raw : rawAccess P.cm i = some acc)
    (is : Issuer) (h : ChipIs b e) : ∃ o o', ChipIs (txn P is acc b).2 (restage e o o') := by
  have hsame : ChipIs b (restage e e.txf.stage e.txq.stage) := h
  cases i with
  | write a p =>
    cases raw
    have ha : ownedAddr P.cm (addr12 a.toNat) = false := by rw [addr12_toNat]; exact clean
    cases p with
    | word v => exact h.write32_not_owned ha v
    | byte v => exact ⟨_, _, hsame.write8_not_owned ha v⟩
  | wr32 a v =>
    cases raw
    exact h.write32_not_owned clean v
  | wr8 a v =>
    cases raw
    exact ⟨_, _, hsame.write8_not_owned clean v⟩
  | read | rd32 | rd8 | readerr =>
    cases raw
    exact ⟨_, _, hsame.txn_rd _ _⟩
  | reset | devreset => cases clean
  | _ => cases raw

theorem ownedAddr_cmRef {a : Addr} (ha : 0x100 ≤ a.toNat) : ownedAddr cmRef a = false := by
  have hne : ∀ n < 0x100, a ≠ addr12 n := by
    rintro n hn rfl
    rw [addr12_toNat_mod] at ha
    omega
  have hcon : ∀ r ∈ [cmRef.rxf.con, cmRef.txf.con, cmRef.txq.con, cmRef.aInt], r.toNat + 3 < 0x100 := by simp [cmRef]
  refine List.any_eq_false.2 fun r hr => Bool.not_eq_true _ ▸ List.any_eq_false.2 fun i hi => ?_
  have hlow := hcon r hr
  have hi3 : i ≤ 3 := by revert i; decide
  simpa using hne (r.toNat + i) (by omega)

include hcm

/-- The registers of the filter slots are none of the owned ones (R31, R85). -/
theorem filterAddrs_not_owned {k : Nat} (hk : k < 32) :
    ownedAddr P.cm (addr12 (fltMaskAddr P.cm k)) = false ∧ ownedAddr P.cm (addr12 (fltObjAddr P.cm k)) = false ∧
      ownedAddr P.cm (addr12 (fltConAddr P.cm k)) = false := by
  have hmask : fltMaskAddr cmRef k = 0x1F4 + 8 * k := rfl
  have hobj : fltObjAddr cmRef k = 0x1F0 + 8 * k := rfl
  have hctl : fltConAddr cmRef k = 0x1D0 + k := by
    simp [fltConAddr, cmRef, hk]
    omega
  rw [hcm, hmask, hobj, hctl]
  refine ⟨ownedAddr_cmRef ?_, ownedAddr_cmRef ?_, ownedAddr_cmRef ?_⟩ <;>
    · rw [addr12_toNat_mod]
      omega

/-- Programming the filters leaves the FIFOs of `ENV_REF` alone (R96). -/
theorem programFilters_chipIs (fs : List FilterEntry) {k : Nat} (hk : k + fs.length ≤ 32) (h : ChipIs b e) :
    ∃ o o', ChipIs (programFilters P k fs b) (restage e o o') := by
  induction fs generalizing k b e with
  | nil => exact ⟨_, _, h⟩
  | cons f rest ih =>
    rw [List.length_cons] at hk
    obtain ⟨hmask, hobj, hctl⟩ := filterAddrs_not_owned hcm (k := k) (by omega)
    obtain ⟨o1, o1', h1⟩ := h.write32_not_owned (is := .fg) hmask f.mask
    obtain ⟨o2, o2', h2⟩ := h1.write32_not_owned (is := .fg) hobj f.acc
    obtain ⟨o, o', h3⟩ := ih (k := k + 1) (by omega) (h2.write8_not_owned (is := .fg) hctl (filterControl P.cm))
    exact ⟨o, o', h3⟩

/-- `CONFIGURE` ends with the receive interrupt on and the transmit interrupt off (R99). -/
theorem programEnables_chipIs (h : ChipIs b e) :
    ∃ a v, ChipIs (programEnables P b) { e with
      rxf := { e.rxf with ie := some 0x01 }, txf := { e.txf with ie := some 0x80 }, st := ackStatus P a v e.st } := by
  have h1 := setIE_chipIs hcm .fg .rxf true h
  have h2 := setIE_chipIs hcm .fg .txf false h1
  exact ⟨_, _, write8_status_chipIs hcm .fg (by rw [hcm]; decide) P.cm.vIntIe h2⟩

/-- The acknowledgements of a pass clear status bits and do nothing else (R125). -/
theorem ackAll_chipIs (bits : List (Fin 32)) (h : ChipIs b e) (masked : e.st &&& 0x300C = e.st) :
    ∃ st, st &&& 0x300C = st ∧ ChipIs (ackAll P bits b) { e with st := st } := by
  induction bits generalizing b e with
  | nil => exact ⟨e.st, masked, h⟩
  | cons i rest ih =>
    have haddr : ackAddr P.cm i < 0x20 := by
      have hbase : cmRef.aInt.toNat = 0x1C := rfl
      rw [ackAddr, hcm, hbase]
      omega
    have h1 := write8_status_chipIs hcm .isr haddr (ackByte P.ackMode (i.val % 8)) h
    obtain ⟨st, hst, hrest⟩ := ih h1 (ackStatus_masked P _ _ masked)
    exact ⟨st, hst, hrest⟩

end Operations

section Handlers

variable {P : Params} (hcm : P.cm = cmRef) {b : Bus} {e : EnvRef}

theorem flagBit_getLsbD (v : Bool) (p i : Fin 32) : (flagBit v p).getLsbD i.val = (v && decide (i = p)) := by
  have hbit : ((1 : Word) <<< p.val).getLsbD i.val = decide (i = p) := by
    have htwo : (BitVec.twoPow 32 p.val).getLsbD i.val = (decide (p.val < 32) && p.val == i.val) :=
      BitVec.getLsbD_twoPow p.val i.val
    rw [decide_eq_true p.isLt, Bool.true_and] at htwo
    exact htwo.trans (Bool.eq_iff_iff.2 (by rw [beq_iff_eq, decide_eq_true_iff, Fin.ext_iff, eq_comm]))
  cases v with
  | false => simp [flagBit]
  | true => simpa [flagBit] using hbit

/-- The two FIFO bits of the status word (R59): a parked object with its interrupt on, space with its interrupt on. -/
theorem envIntWord_fifoBits (masked : e.st &&& 0x300C = e.st) :
    (envIntWord cmRef e).getLsbD cmRef.bRxne.val = (!e.rxf.objs.isEmpty && e.rxf.ie == some 0x01) ∧
      (envIntWord cmRef e).getLsbD cmRef.bTxnf.val = (hasSpace e.txf && e.txf.ie == some 0x81) := by
  have hmask : ∀ i : Fin 32, (0x300C : Word).getLsbD i.val = false → e.st.getLsbD i.val = false := fun i hi => by
    rw [← masked, BitVec.getLsbD_and, hi, Bool.and_false]
  have hrx := hmask cmRef.bRxne (by decide)
  have htx := hmask cmRef.bTxnf (by decide)
  have hbits : cmRef.bTxnf ≠ cmRef.bRxne := by decide
  simp only [envIntWord, BitVec.getLsbD_or, flagBit_getLsbD, hrx, htx, hbits, hbits.symm, decide_true, decide_false,
    Bool.and_true, Bool.and_false, Bool.or_false, Bool.false_or]
  exact ⟨rfl, rfl⟩

include hcm

/-- The receive handler moves at most the head of the receive FIFO to the end of the queue, and keeps INV3 (R118, R123). -/
theorem rxHandler_chipIs {q : Queue} {st : Word} (hoff : FixedOffsets e) (bound : q.items.length ≤ q.cap)
    (hbit : st.getLsbD P.cm.bRxne.val = (!e.rxf.objs.isEmpty && e.rxf.ie == some 0x01))
    (bel : RxBelief (queueFull q) e.rxf.ie) (h : ChipIs b e) :
    ∃ objs ie, ChipIs (rxHandler P st q b).2 { e with rxf := { e.rxf with objs := objs, ie := ie } } ∧
      RxBelief (queueFull (rxHandler P st q b).1) ie ∧
      (rxHandler P st q b).1.items ++ objs.map (decodeObj P) = q.items ++ e.rxf.objs.map (decodeObj P) := by
  cases hon : st.getLsbD P.cm.bRxne.val with
  | false =>
    have hr : rxHandler P st q b = (q, b) := if_neg (Bool.eq_false_iff.1 hon)
    rw [hr]
    exact ⟨_, _, h, bel, rfl⟩
  | true =>
    rw [hon, eq_comm, Bool.and_eq_true, beq_iff_eq] at hbit
    obtain ⟨hparked, hie⟩ := hbit
    obtain ⟨o, rest, head⟩ : ∃ o rest, e.rxf.objs = o :: rest := List.exists_cons_of_ne_nil (by simpa using hparked)
    have hspace : queueFull q = false := by
      rw [RxBelief, hie] at bel
      simpa using bel
    obtain ⟨hframe, hread⟩ := hwRead_chipIs hcm .isr hoff head h
    have henq := enq_space q (decodeObj P o) (lt_of_le_of_ne bound (by simpa [queueFull] using hspace))
    have hmoved : (enq q (decodeObj P o)).2.items ++ rest.map (decodeObj P) = q.items ++ e.rxf.objs.map (decodeObj P) := by
      simp [henq, head]
    have hr : rxHandler P st q b = if queueFull (enq q (hwRead P .isr b).1).2 then
        ((enq q (hwRead P .isr b).1).2, setIE P .isr .rxf false (hwRead P .isr b).2)
        else ((enq q (hwRead P .isr b).1).2, (hwRead P .isr b).2) := (if_pos hon).trans (if_neg (by simp [hspace]))
    rw [hr, hframe]
    cases hfull : queueFull (enq q (decodeObj P o)).2 with
    | true =>
      refine ⟨rest, some 0x00, setIE_chipIs hcm .isr .rxf false hread, ?_, hmoved⟩
      rw [if_pos rfl, hfull]
      exact rxBelief_disabled
    | false =>
      refine ⟨rest, some 0x01, hie ▸ hread, ?_, hmoved⟩
      rw [if_neg Bool.false_ne_true, hfull]
      exact rxBelief_enabled

/-- The transmit handler moves at most the head of the queue to the end of the transmit FIFO, and only where there is space
(R118, R124). -/
theorem txHandler_chipIs {q : Queue} {st : Word} {full : Bool} (steady : EnvSteady full e)
    (hbit : st.getLsbD P.cm.bTxnf.val = (hasSpace e.txf && e.txf.ie == some 0x81))
    (bel : TxBelief (!q.items.isEmpty) full e.txf.ie) (h : ChipIs b e) :
    ∃ e', ChipIs (txHandler P st q full b).2.2 e' ∧ EnvSteady (txHandler P st q full b).2.1 e' ∧
      TxBelief (!(txHandler P st q full b).1.items.isEmpty) (txHandler P st q full b).2.1 e'.txf.ie ∧ e'.rxf = e.rxf ∧
      e'.txf.objs ++ (txHandler P st q full b).1.items.map (encodeObj P.fl) =
        e.txf.objs ++ q.items.map (encodeObj P.fl) := by
  cases hon : st.getLsbD P.cm.bTxnf.val with
  | false =>
    have hr : txHandler P st q full b = (q, full, b) := if_neg (Bool.eq_false_iff.1 hon)
    rw [hr]
    exact ⟨e, h, steady, bel, rfl, rfl⟩
  | true =>
    rw [hon, eq_comm, Bool.and_eq_true, beq_iff_eq] at hbit
    obtain ⟨hspace, hie⟩ := hbit
    have hfull : full = true := bel.2.2 hie
    have hdrain : txHandler P st q full b = txDrain P q full b := if_pos hon
    obtain ⟨hempty, hd⟩ | ⟨f, rest, head, hd⟩ := deq_cases q
    · have hr : txHandler P st q full b = (q, false, setIE P .isr .txf false b) := by rw [hdrain, txDrain, hd]
      rw [hr]
      refine ⟨_, setIE_chipIs hcm .isr .txf false h, { steady with space := fun _ => hspace }, ?_, rfl, rfl⟩
      rw [hempty]
      exact txBelief_disabled
    · have hr : txHandler P st q full b = ({ q with items := rest }, full, hwWrite P .isr .txf f b) := by
        rw [hdrain, txDrain, hd]
      rw [hr]
      refine ⟨_, hwWrite_chipIs hcm .isr steady.offsets (by decide : Fifo.txf ≠ .rxf) f hspace h,
        { steady with space := fun hnot => ?_ }, ?_, rfl, ?_⟩
      · rw [hfull] at hnot
        cases hnot
      · exact ⟨fun _ => hfull, bel.2⟩
      · simp [setEnvFifo, envFifo, head]

end Handlers
end Sys2Proof.Machine
end

section
/-! The branches of sending a frame, each with its whole result (R111, R112). -/

namespace Sys2Proof.Machine

section Send

variable {f : Frame} {s : State}

theorem sendDirect_space (h : (notFull s.par .fg .txf (hwWrite s.par .fg .txf f s.bus)).1 = true) :
    sendDirect f s = { s with
      bus := (notFull s.par .fg .txf (hwWrite s.par .fg .txf f s.bus)).2, resp := some (.bool true) } := if_pos h

theorem sendDirect_full (h : (notFull s.par .fg .txf (hwWrite s.par .fg .txf f s.bus)).1 = false) :
    sendDirect f s = { s with
      txHwFull := true
      bus := setIE s.par .fg .txf true (notFull s.par .fg .txf (hwWrite s.par .fg .txf f s.bus)).2
      resp := some (.bool true) } := if_neg (Bool.eq_false_iff.1 h)

theorem sendBypass_disabled (h : s.bypassEn = false) : sendBypass f s = { s with resp := some (.bool false) } :=
  if_neg (Bool.eq_false_iff.1 h)

theorem sendBypass_space (hen : s.bypassEn = true) (h : (notFull s.par .fg .txq s.bus).1 = true) :
    sendBypass f s = { s with
      bus := hwWrite s.par .fg .txq f (notFull s.par .fg .txq s.bus).2, resp := some (.bool true) } :=
  (if_pos hen).trans (if_pos h)

theorem sendBypass_full (hen : s.bypassEn = true) (h : (notFull s.par .fg .txq s.bus).1 = false) :
    sendBypass f s = { s with bus := (notFull s.par .fg .txq s.bus).2, resp := some (.bool false) } :=
  (if_pos hen).trans (if_neg (Bool.eq_false_iff.1 h))

end Send

end Sys2Proof.Machine
end

section
/-! No loss under `ENV_REF` (R118): what each effect keeps, and the step. -/

namespace Sys2Proof.Machine

theorem inbound_eq {s : State} {e : EnvRef} {q : Queue} (h : ChipIs s.bus e) (rx : s.rxqSw = some q) :
    inbound s = q.items ++ e.rxf.objs.map (decodeObj s.par) := by
  obtain ⟨m32, m8, h⟩ := h
  simp only [inbound, h, rx, Option.map_some, Option.getD_some]

theorem outbound_eq {s : State} {e : EnvRef} {q : Queue} (h : ChipIs s.bus e) (tx : s.txqSw = some q) :
    outbound s = e.txf.objs ++ q.items.map (encodeObj s.par.fl) := by
  obtain ⟨m32, m8, h⟩ := h
  simp only [outbound, h, tx, Option.map_some, Option.getD_some]

theorem EnvAgrees.beliefs {s : State} {e : EnvRef} {tq rq : Queue} (ha : EnvAgrees s e) (hready : s.ready = true)
    (tx : s.txqSw = some tq) (rx : s.rxqSw = some rq) :
    TxBelief (!tq.items.isEmpty) s.txHwFull e.txf.ie ∧ RxBelief (queueFull rq) e.rxf.ie := by
  rw [← txqWaiting_some tx, ← rxqIsFull_some rx]
  exact ((envAgrees_iff s e).1 ha).2 hready

theorem envAgrees_of_beliefs {s : State} {e : EnvRef} {tq rq : Queue} (tx : s.txqSw = some tq) (rx : s.rxqSw = some rq)
    (steady : EnvSteady s.txHwFull e) (htx : TxBelief (!tq.items.isEmpty) s.txHwFull e.txf.ie)
    (hrx : RxBelief (queueFull rq) e.rxf.ie) : EnvAgrees s e := by
  rw [← txqWaiting_some tx] at htx
  rw [← rxqIsFull_some rx] at hrx
  exact (envAgrees_iff s e).2 ⟨steady, fun _ => ⟨htx, hrx⟩⟩

section Effects

variable {s : State} {e : EnvRef} (hcm : s.par.cm = cmRef) (h : ChipIs s.bus e) (ha : EnvAgrees s e)
include hcm h ha

/-- A pass keeps the beliefs and moves frames only across the line between core and chip (R118, R121). -/
theorem servicePass_chipAgrees {rq tq : Queue} (hready : s.ready = true) (rx : s.rxqSw = some rq) (tx : s.txqSw = some tq)
    (bound : rq.items.length ≤ rq.cap) :
    ChipAgrees (leaveIsr (servicePass rq tq (enterIsr s))) ∧
      inbound (leaveIsr (servicePass rq tq (enterIsr s))) = inbound s ∧
      outbound (leaveIsr (servicePass rq tq (enterIsr s))) = outbound s := by
  have steady := ((envAgrees_iff s e).1 ha).1
  obtain ⟨htx, hrx⟩ := ha.beliefs hready tx rx
  obtain ⟨hst, hread⟩ := readStatus_chipIs hcm .isr h steady.offsets
  obtain ⟨hrxBit, htxBit⟩ := envIntWord_fifoBits (e := e) steady.status
  rw [← hst, ← hcm] at hrxBit htxBit
  obtain ⟨objs, ie, hchip1, hrx1, hin⟩ := rxHandler_chipIs hcm steady.offsets bound hrxBit hrx hread
  obtain ⟨e2, hchip2, steady2, htx2, hrxf, hout⟩ := txHandler_chipIs hcm (q := tq)
    (e := { e with rxf := { e.rxf with objs := objs, ie := ie } }) (full := s.txHwFull) { steady with } htxBit htx hchip1
  obtain ⟨st, hmask, hchip3⟩ := ackAll_chipIs hcm (pendingStatus s.par.cm
    (memRead32 s.par .isr s.par.cm.aInt.toNat s.bus).1) hchip2 steady2.status
  refine ⟨⟨_, hchip3, envAgrees_of_beliefs rfl rfl { steady2 with status := hmask } htx2 ?_⟩, ?_, ?_⟩
  · rw [hrxf]
    exact hrx1
  · rw [inbound_eq hchip3 rfl, inbound_eq h rx, ← hin, hrxf]
    rfl
  · rw [outbound_eq hchip3 rfl, outbound_eq h tx]
    exact hout

/-- A frame sent directly is the last one of the transmit FIFO, and the full mark is the chip's own answer (R111, R118). -/
theorem sendDirect_chipIs (f : Frame) (notMarked : s.txHwFull = false) :
    ∃ e', ChipIs (sendDirect f s).bus e' ∧ EnvAgrees (sendDirect f s) e' ∧
      e'.txf.objs = e.txf.objs ++ [encodeObj s.par.fl f] := by
  obtain ⟨steady, hbel⟩ := (envAgrees_iff s e).1 ha
  have hwrite := hwWrite_chipIs hcm .fg steady.offsets (by decide : Fifo.txf ≠ .rxf) f (steady.space notMarked) h
  obtain ⟨hspace, hstatus⟩ := notFull_chipIs hcm .fg .txf hwrite
  have hroom := sendDirect_space (f := f) (s := s)
  have hlast := sendDirect_full (f := f) (s := s)
  generalize notFull s.par .fg .txf (hwWrite s.par .fg .txf f s.bus) = status at hspace hstatus hroom hlast
  cases hst : status.1 with
  | true =>
    rw [hst] at hspace
    rw [hroom hst]
    exact ⟨_, hstatus, (envAgrees_iff _ _).2
      ⟨{ steady with space := fun _ => hspace.symm }, fun hready => hbel hready⟩, rfl⟩
  | false =>
    rw [hlast hst]
    refine ⟨_, setIE_chipIs hcm .fg .txf true hstatus, (envAgrees_iff _ _).2 ⟨{ steady with space := ?_ }, ?_⟩, rfl⟩
    · exact fun hnot => by cases hnot
    · exact fun hready => ⟨txBelief_enabled _, (hbel hready).2⟩

/-- The bypass path writes the bypass queue only where it has space (R112, R118). -/
theorem sendBypass_chipAgrees (f : Frame) : ChipAgrees (sendBypass f s) := by
  obtain ⟨steady, hbel⟩ := (envAgrees_iff s e).1 ha
  cases hen : s.bypassEn with
  | false =>
    rw [sendBypass_disabled hen]
    exact ⟨e, h, ha⟩
  | true =>
    obtain ⟨hspace, hstatus⟩ := notFull_chipIs hcm .fg .txq h
    have hroom := sendBypass_space (f := f) hen
    have hlast := sendBypass_full (f := f) hen
    generalize notFull s.par .fg .txq s.bus = status at hspace hstatus hroom hlast
    cases hst : status.1 with
    | false =>
      rw [hlast hst]
      exact ⟨e, hstatus, ha⟩
    | true =>
      rw [hroom hst]
      have hwrite := hwWrite_chipIs hcm .fg steady.offsets (by decide : Fifo.txq ≠ .rxf) f (hspace.symm.trans hst) hstatus
      exact ⟨_, hwrite, (envAgrees_iff _ _).2 ⟨{ steady with }, hbel⟩⟩

/-- Removal from the receive queue keeps the beliefs: a full queue turns the receive interrupt on again (R114, R118). -/
theorem taken_chipAgrees {q : Queue} {f : Frame} {rest : List Frame} (rx : s.rxqSw = some q) (head : q.items = f :: rest)
    (bound : q.items.length ≤ q.cap) (out : List OutEvent) (resp : Option Response) :
    ChipAgrees { s with
      rxqSw := some { q with items := rest }
      bus := if q.items.length = q.cap then setIE s.par .fg .rxf true s.bus else s.bus
      out := out
      resp := resp } := by
  obtain ⟨steady, hbel⟩ := (envAgrees_iff s e).1 ha
  have hspace : queueFull { q with items := rest } = false := by
    rw [head, List.length_cons] at bound
    simp [queueFull]
    omega
  by_cases hfull : q.items.length = q.cap
  · simp only [if_pos hfull]
    refine ⟨_, setIE_chipIs hcm .fg .rxf true h, (envAgrees_iff _ _).2
      ⟨{ steady with }, fun hready => ⟨(hbel hready).1, ?_⟩⟩⟩
    rw [rxqIsFull_some rfl, hspace]
    exact rxBelief_enabled
  · simp only [if_neg hfull]
    refine ⟨e, h, (envAgrees_iff _ _).2 ⟨steady, fun hready => ⟨(hbel hready).1, ?_⟩⟩⟩
    have hrx := (hbel hready).2
    have hnotFull : queueFull q = false := by simpa [queueFull] using hfull
    rw [rxqIsFull_some rx, hnotFull] at hrx
    rwa [rxqIsFull_some rfl, hspace]

/-- `CONFIGURE` turns the receive interrupt on and the transmit interrupt off, as its empty queues ask (R99, R118). -/
theorem configured_chipAgrees {conf : ConfOperand} (hwf : conf.wellFormed = true) (notMarked : s.txHwFull = false)
    (admitted : configureRefusal s.ready conf = none) : ChipAgrees (configured (cfgOf conf) s) := by
  have steady := ((envAgrees_iff s e).1 ha).1
  obtain ⟨-, hcap, hnflt⟩ := configureRefusal_none admitted
  have hlen : (programmedFilters (cfgOf conf)).length ≤ 32 := by
    have hinst := installedFilters_le hwf hnflt
    unfold programmedFilters
    unfold installedFilters at hinst
    cases hf : (cfgOf conf).filters with
    | none => simp
    | some fs => simpa [hf] using hinst
  obtain ⟨o, o', hfilters⟩ := programFilters_chipIs hcm (k := 0) (programmedFilters (cfgOf conf)) (by simpa using hlen) h
  obtain ⟨a, v, henables⟩ := programEnables_chipIs hcm hfilters
  have hspace : queueFull (emptyQueue conf.rxCap.toNat) = false := by
    have hne : conf.rxCap.toNat ≠ 0 := fun h0 => hcap (BitVec.eq_of_toNat_eq (by simpa using h0))
    simpa [queueFull, emptyQueue] using hne.symm
  refine ⟨_, henables, envAgrees_of_beliefs rfl rfl
    { steady with space := fun _ => steady.space notMarked, status := ackStatus_masked s.par a v steady.status }
    txBelief_disabled ?_⟩
  rw [cfgOf, hspace]
  exact rxBelief_enabled

end Effects

/-- A core with a receive queue is configured and the queue within its bounds (R21, R142). -/
theorem rxq_bounded {s : State} {q : Queue} (phase : phaseOk s = true) (rx : s.rxqSw = some q) :
    s.ready = true ∧ q.items.length ≤ q.cap := by
  obtain ⟨-, -, -, hnone, -⟩ | ⟨c, tq, rq, -, -, rx', hready, -, -, -, -, -, -, -, -, hrok⟩ := (phaseOk_iff s).1 phase
  · rw [rx] at hnone
    cases hnone
  · obtain rfl : rq = q := Option.some.inj (rx'.symm.trans rx)
    obtain ⟨hcount, hpeak⟩ := (queueOk_iff rq).1 hrok
    exact ⟨hready, hcount.trans hpeak⟩

/-- Before `CONFIGURE` the transmit FIFO is not marked full (R19, R142). -/
theorem notMarked_of_notReady {s : State} (phase : phaseOk s = true) (hnot : s.ready = false) : s.txHwFull = false := by
  obtain ⟨-, -, -, -, hfull, -⟩ | ⟨c, tq, rq, -, -, -, hready, -⟩ := (phaseOk_iff s).1 phase
  · exact hfull
  · rw [hready] at hnot
    cases hnot

/-- Under `CM_REF` and `ENV_REF` every effect of a clean instruction keeps the beliefs of the core (R118). -/
theorem Effect.keeps_chipAgrees {i : Instr} {s t : State} (h : Effect s i t) (hcm : s.par.cm = cmRef)
    (hwf : ∀ conf, i = .configure conf → conf.wellFormed = true) (clean : disturbs s.par.cm i = false)
    (phase : phaseOk s = true) (hchip : ChipAgrees s) : ChipAgrees t := by
  obtain ⟨e, hc, ha⟩ := hchip
  cases h with
  | refused r => exact ⟨e, hc, ha⟩
  | answered r => exact ⟨e, hc, ha⟩
  | accessed acc resp raw =>
    obtain ⟨o, o', hc'⟩ := rawAccess_chipIs clean raw .fg hc
    exact ⟨_, hc', ha⟩
  | rated r => exact ⟨e, hc, ha⟩
  | loaded conf admitted =>
    obtain ⟨hnot, -⟩ := configureRefusal_none admitted
    exact configured_chipAgrees hcm hc ha (hwf conf rfl) (notMarked_of_notReady phase hnot) admitted
  | buffered f q queue full =>
    obtain ⟨steady, hbel⟩ := (envAgrees_iff s e).1 ha
    refine ⟨e, hc, (envAgrees_iff _ _).2 ⟨steady, fun hready => ⟨⟨fun _ => full, ?_⟩, (hbel hready).2⟩⟩⟩
    exact (hbel hready).1.2
  | sent f ready space =>
    obtain ⟨e', hc', ha', -⟩ := sendDirect_chipIs hcm hc ha f space
    exact ⟨e', hc', ha'⟩
  | bypassed f => exact sendBypass_chipAgrees hcm hc ha f
  | taken q f rest out r queue head => exact taken_chipAgrees hcm hc ha queue head (rxq_bounded phase queue).2 out (some r)
  | served rq tq rx tx =>
    obtain ⟨hready, bound⟩ := rxq_bounded phase rx
    exact (servicePass_chipAgrees hcm hc ha hready rx tx bound).1

/-- The status bits of `CM_REF` are the four of the mask (R32, R122). -/
theorem statusBit_masked {b : Fin 32} (h : isStatusBit cmRef b = true) :
    (1 : Word) <<< b.val &&& 0x300C = (1 : Word) <<< b.val := by
  simp only [isStatusBit, Bool.or_eq_true, beq_iff_eq, or_assoc] at h
  obtain rfl | rfl | rfl | rfl := h <;> rfl

/-- What the environment does by itself no belief of the core forbids: arrivals touch the receive FIFO, transmissions make
space (R59, R118). -/
theorem devStep_chipAgrees {s : State} (hcm : s.par.cm = cmRef) (ev : DevEvent) (h : ChipAgrees s) :
    ChipAgrees (runDev ev s) := by
  obtain ⟨e, ⟨m32, m8, hchip⟩, ha⟩ := h
  have hdev : ∀ e' : EnvRef, devStep s.par.cm ev (.ref { e with mem32 := m32, mem8 := m8 }) = .ref e' →
      ChipIs (runDev ev s).bus e' := fun e' he => chipIs_of_chip ((congrArg (devStep s.par.cm ev) hchip).trans he)
  obtain ⟨steady, hbel⟩ := (envAgrees_iff s e).1 ha
  cases ev with
  | arrive o =>
    refine ⟨_, hdev _ rfl, ?_⟩
    unfold envArrive
    split <;> exact ha
  | transmit f =>
    refine ⟨_, hdev _ rfl, ?_⟩
    cases f with
    | rxf => exact ha
    | txf =>
      refine (envAgrees_iff _ _).2 ⟨{ steady with space := fun hnot => ?_ }, hbel⟩
      have hspace := steady.space hnot
      simp only [hasSpace, decide_eq_true_eq] at hspace
      simp only [envTransmit, hasSpace, decide_eq_true_eq, List.length_tail]
      omega
    | txq => exact ha
  | raiseStatus b =>
    refine ⟨_, hdev _ rfl, ?_⟩
    unfold envRaise
    split
    · next hb =>
      rw [hcm] at hb
      refine (envAgrees_iff _ _).2 ⟨{ steady with status := ?_ }, hbel⟩
      show (e.st ||| (1 : Word) <<< b.val) &&& 0x300C = e.st ||| (1 : Word) <<< b.val
      rw [BitVec.and_comm, BitVec.and_or_distrib_left, BitVec.and_comm _ e.st, steady.status, BitVec.and_comm,
        statusBit_masked hb]
    · exact ha
  | setInt level => exact ⟨_, hdev _ rfl, ha⟩

theorem noLoss_iff (s : State) : NoLoss s ↔ s.par.cm = cmRef ∧ PortClean s ∧ Sound s ∧ ChipAgrees s := by
  rw [NoLoss, envAgrees_iff_chipAgrees]

/-- What a clean instruction that a step runs keeps of a state without loss. -/
theorem exec_keeps_noLoss {i : Instr} {s t : State} (hwf : ∀ conf, i = .configure conf → conf.wellFormed = true)
    (clean : disturbs s.par.cm i = false) (hs : NoLoss s) (h : exec i s = .next t) : NoLoss t := by
  obtain ⟨hcm, hport, hsound, hchip⟩ := (noLoss_iff s).1 hs
  have hpar := exec_keeps_par h
  have hport' : PortClean t := by
    rw [PortClean, exec_keeps_port h, hpar]
    exact hport
  have heffect := exec_effect h
  exact (noLoss_iff t).2 ⟨hpar ▸ hcm, hport', heffect.keeps_sound hwf hsound,
    heffect.keeps_chipAgrees hcm hwf clean ((sound_iff s).1 hsound).2.2 hchip⟩

theorem noLoss_stepInvariant : StepInvariant NoLoss where
  sched _ _ _ hs := hs
  dev s ev hs := by
    obtain ⟨hcm, hport, hsound, hchip⟩ := (noLoss_iff s).1 hs
    exact (noLoss_iff _).2 ⟨hcm, hport, runDev_sound ev hsound, devStep_chipAgrees hcm ev hchip⟩
  pass _ _ hs h := exec_keeps_noLoss (by simp) rfl hs h
  request s _ _ rest _ hs hp hd h := by
    obtain ⟨hcm, hport, hsound, hchip⟩ := hs
    obtain ⟨hrest, hhead⟩ := portClean_cons hport hp
    have hs' : NoLoss { s with port := rest } := ⟨hcm, hrest, hsound, hchip⟩
    exact exec_keeps_noLoss (s := { s with port := rest })
      (by rintro conf rfl; exact decode_configure_wellFormed hd) (hhead _ hd) hs' h
  reserved _ _ _ hs hp := by
    obtain ⟨hcm, hport, hsound, hchip⟩ := hs
    exact ⟨hcm, (portClean_cons hport hp).1, hsound, hchip⟩

/-- Settles O50: the beliefs of the core about `ENV_REF` are kept by every effect and by the steps of the environment. -/
theorem stepKeepsNoLoss : Obligations.StepKeepsNoLoss := fun _ _ hs h => noLoss_stepInvariant.step hs h

/-- Settles O51: fresh FIFOs are empty and nothing is believed of an unconfigured core's interrupts. -/
theorem resetHasNoLoss : Obligations.ResetHasNoLoss := by
  intro P rxf txf txq hcm hslot
  refine ⟨hcm, rfl, ⟨rfl, rfl, rfl, rfl, rfl⟩, decide_eq_true ?_⟩
  exact ⟨rfl, rfl, rfl, rfl, rfl, fun _ => decide_eq_true hslot, BitVec.zero_and, fun hready => by cases hready⟩

end Sys2Proof.Machine
end

section
/-! The frames on their way under `ENV_REF` (R118): what a pass and an accepted frame do to them. -/

namespace Sys2Proof.Machine

theorem exec_irq_eq {s t : State} (h : exec .irq s = .next t) :
    ∃ rq tq, s.rxqSw = some rq ∧ s.txqSw = some tq ∧ t = leaveIsr (servicePass rq tq (enterIsr s)) := by
  obtain ⟨rq, rx, h⟩ := withQueue_next h
  obtain ⟨tq, tx, h⟩ := withQueue_next h
  exact ⟨rq, tq, rx, tx, (Host.Outcome.next.inj h).symm⟩

/-- A pass loses and reorders no frame in either direction (R118). -/
theorem exec_irq_keeps_frames {s t : State} (hs : NoLoss s) (h : exec .irq s = .next t) :
    inbound t = inbound s ∧ outbound t = outbound s := by
  obtain ⟨hcm, -, hsound, e, hchip, ha⟩ := (noLoss_iff s).1 hs
  obtain ⟨rq, tq, rx, tx, rfl⟩ := exec_irq_eq h
  obtain ⟨hready, bound⟩ := rxq_bounded ((sound_iff s).1 hsound).2.2 rx
  exact (servicePass_chipAgrees hcm hchip ha hready rx tx bound).2

/-- Settles O52: the receive drain takes the head of `RXF` and puts it behind the queue. -/
theorem passKeepsInboundFrames : Obligations.PassKeepsInboundFrames := fun _ _ hs _ h => (exec_irq_keeps_frames hs h).1

/-- Settles O53: the transmit drain takes the head of the queue and puts it behind `TXF`, which has space. -/
theorem passKeepsOutboundFrames : Obligations.PassKeepsOutboundFrames := fun _ _ hs _ h => (exec_irq_keeps_frames hs h).2

/-- A flags byte is no frame exactly from 4 on (R67). -/
theorem badFlags_iff (flags : Byte) : badFlags flags = true ↔ 4 ≤ flags.toNat := by
  have hfield : (flags.extractLsb' 2 6).toNat = flags.toNat / 2 ^ 2 % 2 ^ 6 := extractLsb'_toNat_div flags 2 6
  have hlt : flags.toNat < 2 ^ 8 := flags.isLt
  rw [badFlags, bne_iff_ne, ne_eq, ← BitVec.toNat_inj, hfield]
  change ¬flags.toNat / 2 ^ 2 % 2 ^ 6 = 0 ↔ _
  omega

section TrySend

variable {f : FrameOperand} {s : State} (hflags : f.flags.toNat < 4) (hready : s.ready = true)
include hflags hready

/-- A well-formed frame operand on a ready core reaches the path of its selector (R110). -/
theorem exec_trysend_admitted : exec (.trysend f) s = trySend (frameOf f) s := by
  have hok : badFlags f.flags = false := Bool.eq_false_iff.2 fun hbad => by
    have hbig := (badFlags_iff _).1 hbad
    omega
  have hnone : trysendRefusal s.ready f = none := by
    rw [trysendRefusal, hok, if_neg Bool.false_ne_true, readyGate_ready hready]
  show guarded (trysendRefusal s.ready f) s _ = _
  rw [hnone, guarded_none]

theorem exec_trysend_direct (hidx : f.idx = 0) (hfull : s.txHwFull = false) :
    exec (.trysend f) s = .next (sendDirect (frameOf f) s) :=
  (exec_trysend_admitted hflags hready).trans ((if_pos hidx).trans (if_neg (Bool.eq_false_iff.1 hfull)))

theorem exec_trysend_buffered {q : Queue} (hidx : f.idx = 0) (hfull : s.txHwFull = true) (tx : s.txqSw = some q) :
    exec (.trysend f) s = .next (sendBuffered (frameOf f) q s) := by
  rw [exec_trysend_admitted hflags hready]
  refine (if_pos hidx).trans ((if_pos hfull).trans ?_)
  rw [tx, withQueue_some]

theorem exec_trysend_bypass (hidx : f.idx = 255) : exec (.trysend f) s = .next (sendBypass (frameOf f) s) := by
  have hne : (frameOf f).idx ≠ 0 := fun h0 => by
    have h255 : (frameOf f).idx = 255 := hidx
    rw [h255] at h0
    cases h0
  exact (exec_trysend_admitted hflags hready).trans ((if_neg hne).trans (if_pos hidx))

theorem exec_trysend_unknown (h0 : f.idx ≠ 0) (h255 : f.idx ≠ 255) :
    exec (.trysend f) s = .next (respond (.bool false) s) :=
  (exec_trysend_admitted hflags hready).trans ((if_neg h0).trans (if_neg h255))

end TrySend

/-- A buffered frame is appended, or the full queue stays as it is (R100, R111). -/
theorem sendBuffered_eq (f : Frame) (q : Queue) {s : State} (tx : s.txqSw = some q) :
    sendBuffered f q s = if q.items.length < q.cap then
      { s with
        txqSw := some ⟨q.cap, q.items ++ [f], max q.peak (q.items.length + 1)⟩
        resp := some (.bool true) }
    else { s with resp := some (.bool false) } := by
  obtain ⟨hspace, henq⟩ | ⟨hfull, henq⟩ := enq_cases q f
  · rw [if_pos hspace, sendBuffered, henq]
    rfl
  · rw [if_neg (by omega), sendBuffered, henq, ← tx]
    rfl

/-- Settles O54: the direct branch is taken only with an empty queue, so the end of `TXF` is the end of the line. -/
theorem acceptedFrameGoesLast : Obligations.AcceptedFrameGoesLast := by
  intro f s t hs hready hflags hidx h
  obtain ⟨hcm, -, hsound, e, hchip, ha⟩ := (noLoss_iff s).1 hs
  obtain ⟨hnot, -⟩ | ⟨c, tq, rq, -, tx, rx, -⟩ := (phaseOk_iff s).1 ((sound_iff s).1 hsound).2.2
  · rw [hready] at hnot
    cases hnot
  cases hfull : s.txHwFull with
  | false =>
    obtain rfl := Host.Outcome.next.inj ((exec_trysend_direct hflags hready hidx hfull).symm.trans h)
    obtain ⟨e', hchip', -, hobjs⟩ := sendDirect_chipIs hcm hchip ha (frameOf f) hfull
    have hempty : tq.items = [] := by
      obtain ⟨⟨hwait, -⟩, -⟩ := ha.beliefs hready tx rx
      simpa [hfull] using hwait
    have hresp : (sendDirect (frameOf f) s).resp = some (.bool true) ∧ (sendDirect (frameOf f) s).txqSw = s.txqSw ∧
        (sendDirect (frameOf f) s).par = s.par := by
      obtain hr | hr := sendDirect_cases (frameOf f) s <;> rw [hr] <;> exact ⟨rfl, rfl, rfl⟩
    obtain ⟨hresp, htx, hpar⟩ := hresp
    refine .inl ⟨hresp, ?_⟩
    rw [outbound_eq hchip' (htx.trans tx), outbound_eq hchip tx, hpar, hobjs, hempty]
    simp
  | true =>
    obtain rfl := Host.Outcome.next.inj ((exec_trysend_buffered hflags hready hidx hfull tx).symm.trans h)
    have hresp : (sendBuffered (frameOf f) tq s).resp = some (.bool (enq tq (frameOf f)).1) := rfl
    have hout : outbound (sendBuffered (frameOf f) tq s) =
        e.txf.objs ++ (enq tq (frameOf f)).2.items.map (encodeObj s.par.fl) :=
      outbound_eq (s := sendBuffered (frameOf f) tq s) hchip rfl
    rw [hresp, hout, outbound_eq hchip tx]
    obtain ⟨-, henq⟩ | ⟨-, henq⟩ := enq_cases tq (frameOf f) <;> rw [henq]
    · exact .inl ⟨rfl, by simp⟩
    · exact .inr ⟨rfl, rfl⟩

end Sys2Proof.Machine
end

section
/-! The requests of the flow-control engine (R110 to R117), each with its whole next state. -/

namespace Sys2Proof.Machine

/-- On a ready core a request on a queue it has is its meaning (R136). -/
theorem guarded_withQueue {s : State} {o : Option Queue} {q : Queue} {m : Queue → Host.Outcome State Fault Refusal}
    (hready : s.ready = true) (hq : o = some q) : guarded (readyGate s.ready) s (withQueue o m) = m q := by
  rw [readyGate_ready hready, hq, guarded_none, withQueue_some]

/-- Settles O18: six transactions of `HwWrite`, one status read, and `SetIE` when it says full. -/
theorem trysendDirectPath : Obligations.TrysendDirectPath := by
  intro f s hflags hready hidx hfull
  have hroom := sendDirect_space (f := frameOf f) (s := s)
  have hlast := sendDirect_full (f := frameOf f) (s := s)
  obtain ⟨u, hwrite⟩ := hwWrite_ran s.par .fg .txf (frameOf f) s.bus
  obtain ⟨st, hstatus, hbit⟩ := notFull_ran s.par .fg .txf (hwWrite s.par .fg .txf (frameOf f) s.bus)
  rw [evRd8_rate hwrite.1] at hstatus
  have hsent := hwrite.trans hstatus
  rw [exec_trysend_direct hflags hready hidx hfull]
  generalize notFull s.par .fg .txf (hwWrite s.par .fg .txf (frameOf f) s.bus) = status at hroom hlast hsent hbit
  cases hst : st.getLsbD s.par.cm.nfBit.val with
  | true =>
    refine ⟨u, st, status.2.chip, ?_⟩
    rw [hroom (hbit.trans hst), hst, hsent.eq]
    rfl
  | false =>
    have hie := setIE_ran s.par .fg .txf true status.2
    rw [evWr8_rate hsent.1] at hie
    refine ⟨u, st, (setIE s.par .fg .txf true status.2).chip, ?_⟩
    rw [hlast (hbit.trans hst), hst, (hsent.trans hie).eq]
    rfl

/-- Settles O20: the status is read before the slot, and a full bypass queue ends the request there. -/
theorem trysendBypassPath : Obligations.TrysendBypassPath := by
  intro f s hflags hready hidx
  rw [exec_trysend_bypass hflags hready hidx]
  refine ⟨fun hen => by rw [sendBypass_disabled hen], fun hen => ?_⟩
  have hroom := sendBypass_space (f := frameOf f) hen
  have hlast := sendBypass_full (f := frameOf f) hen
  obtain ⟨st, hstatus, hbit⟩ := notFull_ran s.par .fg .txq s.bus
  generalize notFull s.par .fg .txq s.bus = status at hroom hlast hstatus hbit
  obtain ⟨u, hwrite⟩ := hwWrite_ran s.par .fg .txq (frameOf f) status.2
  simp only [evRd32_rate hstatus.1, evWr32_rate hstatus.1, evWr8_rate hstatus.1] at hwrite
  cases hst : st.getLsbD s.par.cm.nfBit.val with
  | true =>
    refine ⟨st, u, (hwWrite s.par .fg .txq (frameOf f) status.2).chip, ?_⟩
    rw [hroom (hbit.trans hst), hst, (hstatus.trans hwrite).eq]
    rfl
  | false =>
    refine ⟨st, u, status.2.chip, ?_⟩
    rw [hlast (hbit.trans hst), hst, hstatus.eq]
    rfl

/-- Settles O19: the frame meets the software queue alone. -/
theorem trysendBufferedPath : Obligations.TrysendBufferedPath := by
  intro f s q hflags hready hidx hfull tx
  rw [exec_trysend_buffered hflags hready hidx hfull tx, sendBuffered_eq _ _ tx]
  split_ifs <;> rfl

/-- Settles O21: a selector of no path gets the answer `false` at once. -/
theorem trysendUnknownSelector : Obligations.TrysendUnknownSelector :=
  fun _ _ hflags hready h0 h255 => exec_trysend_unknown hflags hready h0 h255

/-- Settles O23: `AVAIL` is a count check behind the ready gate. -/
theorem availAnswersCount : Obligations.AvailAnswersCount := by
  refine ⟨rfl, fun s => ⟨fun hnot => ?_, fun q hready rx => ?_⟩⟩
  · show guarded (readyGate s.ready) s _ = _
    rw [readyGate_notReady hnot]
    rfl
  · exact guarded_withQueue hready rx

/-- Settles O24: what `RECV` takes is the head, and one enable write follows a full queue. -/
theorem recvRemovesHead : Obligations.RecvRemovesHead := by
  intro s q hready rx
  have hexec : exec .recv s = .next (receive q s) := guarded_withQueue hready rx
  rw [hexec]
  obtain ⟨hempty, htake⟩ | ⟨g, rest', head', htake⟩ := takeRx_cases q s
  · refine ⟨fun _ => by rw [receive, htake]; rfl, fun f rest head => ?_⟩
    rw [hempty] at head
    cases head
  · refine ⟨fun hempty => ?_, fun f rest head => ?_⟩
    · rw [head'] at hempty
      cases hempty
    · obtain ⟨rfl, rfl⟩ := List.cons.inj (head'.symm.trans head)
      refine ⟨(setIE s.par .fg .rxf true s.bus).chip, ?_⟩
      rw [receive, htake, (setIE_ran s.par .fg .rxf true s.bus).eq]
      rfl

/-- Settles O25: each accessor reads one number off the queue. -/
theorem txqAccessorsAnswer : Obligations.TxqAccessorsAnswer := fun _ _ hready tx =>
  ⟨guarded_withQueue hready tx, guarded_withQueue hready tx, guarded_withQueue hready tx⟩

end Sys2Proof.Machine
end

section
/-! The queue over many operations (R100, R101): first in, first out, up to the capacity. -/

namespace Sys2Proof.Machine

/-- While there is room every frame is accepted and lands behind the ones before it. -/
theorem enqAll_room (fs : List Frame) {q : Queue} (room : q.items.length + fs.length ≤ q.cap) :
    (enqAll q fs).1 = List.replicate fs.length true ∧ (enqAll q fs).2.items = q.items ++ fs ∧
      (enqAll q fs).2.cap = q.cap := by
  induction fs generalizing q with
  | nil => exact ⟨rfl, (List.append_nil _).symm, rfl⟩
  | cons f rest ih =>
    rw [List.length_cons] at room
    have henq := enq_space q f (by omega)
    obtain ⟨hacc, hitems, hcap⟩ := ih (q := (enq q f).2) (by simp [henq]; omega)
    refine ⟨?_, ?_, ?_⟩
    · rw [List.length_cons, List.replicate_succ, ← hacc]
      simp [enqAll, henq]
    · show (enqAll (enq q f).2 rest).2.items = _
      rw [hitems]
      simp [henq]
    · show (enqAll (enq q f).2 rest).2.cap = _
      rw [hcap, enq_cap]

/-- Dequeuing as often as there are frames gives them all, oldest first. -/
theorem deqMany_items {q : Queue} {fs : List Frame} (h : q.items = fs) : (deqMany q fs.length).1 = fs := by
  induction fs generalizing q with
  | nil => rfl
  | cons f rest ih =>
    have hd : deq q = some (f, { q with items := rest }) := by simp only [deq, h]
    simp only [List.length_cons, deqMany, hd]
    rw [ih rfl]

/-- Settles O27: the primitives by their branches, the rest by induction on the frames. -/
theorem queueIsFifoUpToCapacity : Obligations.QueueIsFifoUpToCapacity := by
  refine ⟨fun q f => ⟨?_, fun hcap => ?_, fun hempty => ?_, fun head rest hitems => ?_⟩, fun q fs extra hempty hle => ?_⟩
  · rw [enq, List.length_append, List.length_singleton]
  · exact enq_full q f (by omega)
  · simp only [deq, hempty]
  · simp only [deq, hitems]
  · obtain ⟨hacc, hitems, hcap⟩ := enqAll_room fs (q := q) (by simpa [hempty] using hle)
    rw [hempty, List.nil_append] at hitems
    refine ⟨hacc, deqMany_items hitems, fun hfull => enq_full _ _ ?_⟩
    rw [hitems, hcap]
    omega

end Sys2Proof.Machine
end

section
/-! The interrupt context (R119 to R126): when its turn runs a pass, and the pass as its recorded transactions. -/

namespace Sys2Proof.Machine

theorem isrEligible_iff (s : State) :
    isrEligible s = true ↔ intIn s.par.cm s.bus.chip = true ∧ s.ready = true ∧ s.isrBusy = false := by
  simp [isrEligible, and_assoc]

/-- Settles O34: the turn of the interrupt context asks for eligibility on the state with the turn taken. -/
theorem passRunsWhenEligible : Obligations.PassRunsWhenEligible := by
  intro s ag hag
  have hturn : step s = stepIsr { s with agenda := ag } := step_cons hag
  refine ⟨fun hint hready hidle => hturn.trans (if_pos ((isrEligible_iff _).2 ⟨hint, hready, hidle⟩)),
    fun hnot => hturn.trans (if_neg fun heligible => ?_)⟩
  obtain ⟨hint, hready, hidle⟩ := (isrEligible_iff { s with agenda := ag }).1 heligible
  obtain h | h | h := hnot
  · cases hint.symm.trans h
  · cases hready.symm.trans h
  · cases hidle.symm.trans h

theorem exec_irq_some {s : State} {rq tq : Queue} (rx : s.rxqSw = some rq) (tx : s.txqSw = some tq) :
    exec .irq s = .next (leaveIsr (servicePass rq tq (enterIsr s))) := by
  change withQueue s.rxqSw _ = _
  rw [rx, withQueue_some, tx, withQueue_some]

/-- The status bits set in the word, in ascending order, are those acknowledged (R121, R125). -/
theorem pendingStatus_events (P : Params) (b : Bus) (st : Word) :
    (pendingStatus P.cm st).map (fun i => evWr8 b .isr (ackAddr P.cm i) (ackByte P.ackMode (i.val % 8))) =
      ackEvents P b st := by
  simp only [pendingStatus, statusBits, List.filter_filter, Bool.and_comm (st.getLsbD _), ackEvents, ackAddr]

/-- The transactions of a pass, in order (R121). -/
theorem servicePass_ran (rq tq : Queue) (s : State) :
    let st := memRead32 s.par .isr s.par.cm.aInt.toNat s.bus
    let rx := rxHandler s.par st.1 rq st.2
    let tx := txHandler s.par st.1 tq s.txHwFull rx.2
    ∃ rxEvs txEvs, RxDrained s.par s.bus st.1 rq rx.1 rxEvs ∧
      TxDrained s.par s.bus st.1 tq tx.1 s.txHwFull tx.2.1 txEvs ∧
      RanEvents s.bus (servicePass rq tq s).bus
        (evRd32 s.bus .isr s.par.cm.aInt.toNat st.1 :: (rxEvs ++ txEvs ++ ackEvents s.par s.bus st.1)) := by
  intro st rx tx
  have hread : RanEvents s.bus st.2 [evRd32 s.bus .isr s.par.cm.aInt.toNat st.1] := memRead32_ran ..
  obtain ⟨rxEvs, hrx, hrxRan⟩ := rxHandler_drained s.par st.1 rq st.2 s.bus hread.1 hread.2.1
  have h1 := hread.trans hrxRan
  obtain ⟨txEvs, htx, htxRan⟩ := txHandler_drained s.par st.1 tq s.txHwFull rx.2 s.bus h1.1 h1.2.1
  have h2 := h1.trans htxRan
  have hack := ackAll_ran s.par (pendingStatus s.par.cm st.1) tx.2.2 s.bus h2.1 h2.2.1
  rw [pendingStatus_events] at hack
  refine ⟨rxEvs, txEvs, hrx, htx, ?_⟩
  have h3 := h2.trans hack
  rwa [List.append_assoc [_], List.append_assoc [_]] at h3

/-- Settles O32: the pass on the state with the mark set, whose bus is its transactions, and the mark taken back. -/
theorem servicePassRunsHandlers : Obligations.ServicePassRunsHandlers := by
  intro s rq tq rx tx st
  obtain ⟨rxEvs, txEvs, hrx, htx, hran⟩ := servicePass_ran rq tq (enterIsr s)
  have hst : (memRead32 s.par .isr s.par.cm.aInt.toNat s.bus).1 = st := by
    rw [memRead32_eq, addr12_toNat]
  simp only [enterIsr_par, enterIsr_bus, enterIsr_txHwFull, hst] at hrx htx hran
  refine ⟨_, _, _, rxEvs, txEvs, (servicePass rq tq (enterIsr s)).bus.chip, hrx, htx,
    (exec_irq_some rx tx).trans (congrArg Host.Outcome.next ?_)⟩
  rw [← hran.eq, ← hst]
  rfl

/-- The receive drain (R123): off; the queue full before; or one frame, with at most one enable write behind it. -/
theorem RxDrained.cases {P : Params} {b : Bus} {st : Word} {q q' : Queue} {evs : List BusEvent}
    (h : RxDrained P b st q q' evs) :
    (st.getLsbD P.cm.bRxne.val = false ∧ q' = q ∧ evs = []) ∨
    (st.getLsbD P.cm.bRxne.val = true ∧ q.items.length = q.cap ∧ q' = q ∧
      evs = [evWr8 b .isr P.cm.rxf.con.toNat P.cm.ieOffRxf]) ∨
    (st.getLsbD P.cm.bRxne.val = true ∧ ∃ u o off, q' = (enq q (decodeObj P o)).2 ∧
      evs = frameReadEvents P.cm b .isr u o ++ off ∧ off.length ≤ 1) := by
  unfold RxDrained at h
  by_cases hbit : st.getLsbD P.cm.bRxne.val = false
  · rw [if_pos hbit] at h
    exact .inl ⟨hbit, h⟩
  rw [if_neg hbit] at h
  have hset : st.getLsbD P.cm.bRxne.val = true := by simpa using hbit
  by_cases hfull : q.items.length = q.cap
  · rw [if_pos hfull] at h
    exact .inr (.inl ⟨hset, hfull, h⟩)
  rw [if_neg hfull] at h
  obtain ⟨u, o, hq, hevs⟩ := h
  refine .inr (.inr ⟨hset, u, o, _, hq, hevs, ?_⟩)
  split_ifs <;> simp

/-- The transmit drain (R124): off; nothing waiting, so the full flag is cleared; or the head frame goes to the chip. -/
theorem TxDrained.cases {P : Params} {b : Bus} {st : Word} {q q' : Queue} {full full' : Bool} {evs : List BusEvent}
    (h : TxDrained P b st q q' full full' evs) :
    (st.getLsbD P.cm.bTxnf.val = false ∧ q' = q ∧ full' = full ∧ evs = []) ∨
    (st.getLsbD P.cm.bTxnf.val = true ∧ q.items = [] ∧ q' = q ∧ full' = false ∧
      evs = [evWr8 b .isr P.cm.txf.con.toNat P.cm.ieOffTxf]) ∨
    (st.getLsbD P.cm.bTxnf.val = true ∧ ∃ f rest u, q.items = f :: rest ∧ q' = { q with items := rest } ∧ full' = full ∧
      evs = frameWriteEvents P.cm b .isr .txf u (encodeObj P.fl f)) := by
  unfold TxDrained at h
  by_cases hbit : st.getLsbD P.cm.bTxnf.val = false
  · rw [if_pos hbit] at h
    exact .inl ⟨hbit, h⟩
  rw [if_neg hbit] at h
  have hset : st.getLsbD P.cm.bTxnf.val = true := by simpa using hbit
  split at h
  · next hempty => exact .inr (.inl ⟨hset, hempty, h⟩)
  · next f rest head =>
    obtain ⟨u, h⟩ := h
    exact .inr (.inr ⟨hset, f, rest, u, head, h⟩)

/-- A receive drain is at most the six transactions of `HwRead` and one enable write, and adds at most one frame (R123). -/
theorem RxDrained.bounds {P : Params} {b : Bus} {st : Word} {q q' : Queue} {evs : List BusEvent}
    (h : RxDrained P b st q q' evs) : evs.length ≤ 7 ∧ q'.items.length ≤ q.items.length + 1 := by
  obtain ⟨-, rfl, rfl⟩ | ⟨-, -, rfl, rfl⟩ | ⟨-, u, o, off, rfl, rfl, hoff⟩ := h.cases
  · simp
  · simp
  · refine ⟨?_, ?_⟩
    · simp [frameReadEvents]
      omega
    · obtain ⟨-, henq⟩ | ⟨-, henq⟩ := enq_cases q (decodeObj P o) <;> simp [henq]

/-- A transmit drain is at most the six transactions of `HwWrite`, and removes at most one frame (R124). -/
theorem TxDrained.bounds {P : Params} {b : Bus} {st : Word} {q q' : Queue} {full full' : Bool} {evs : List BusEvent}
    (h : TxDrained P b st q q' full full' evs) : evs.length ≤ 6 ∧ q.items.length ≤ q'.items.length + 1 := by
  obtain ⟨-, rfl, -, rfl⟩ | ⟨-, -, rfl, -, rfl⟩ | ⟨-, f, rest, u, head, rfl, -, rfl⟩ := h.cases
  · simp
  · simp
  · simp [frameWriteEvents, head]

/-- There are four status bits, so a pass acknowledges at most four (R32, R122). -/
theorem ackEvents_length_le (P : Params) (b : Bus) (st : Word) : (ackEvents P b st).length ≤ 4 := by
  rw [ackEvents, List.length_map]
  refine (((List.nodup_finRange 32).filter _).subperm fun i hi => ?_).length_le
    (l₂ := [P.cm.bTbc, P.cm.bMod, P.cm.bSerr, P.cm.bBuserr])
  have hstatus := (Bool.and_eq_true_iff.1 (List.mem_filter.1 hi).2).1
  simpa [isStatusBit, or_assoc] using hstatus

/-- Settles O33: one status read, 7 transactions to receive, 6 to transmit and 4 acknowledgements at most. -/
theorem servicePassIsBounded : Obligations.ServicePassIsBounded := by
  intro s t h
  obtain ⟨rq, tq, rx, tx, -⟩ := exec_irq_eq h
  obtain ⟨rq', tq', full', rxEvs, txEvs, chip, hrx, htx, hexec⟩ := servicePassRunsHandlers s rq tq rx tx
  obtain rfl := Host.Outcome.next.inj (hexec.symm.trans h)
  obtain ⟨hrxEvs, hrxItems⟩ := hrx.bounds
  obtain ⟨htxEvs, htxItems⟩ := htx.bounds
  have hack := ackEvents_length_le s.par s.bus (chipRead s.par.cm s.bus.hist s.par.cm.aInt .four s.bus.chip).1
  simp only [afterEvents, List.length_cons, List.length_append, rx, tx, Option.map_some, Option.getD_some]
  omega

end Sys2Proof.Machine
end

section
/-! Progress under `ENV_REF` (R129): a pass acknowledges every raised status bit, and each bit it finds set in the status word
takes one unit of work off the backlog. -/

namespace Sys2Proof.Machine

/-- The chip is `ENV_REF` with the raised status bits `st` (R59). -/
def StatusIs (b : Bus) (st : Word) : Prop := ∃ e, b.chip = .ref e ∧ e.st = st

theorem ChipIs.statusIs {b : Bus} {e : EnvRef} (h : ChipIs b e) : StatusIs b e.st := by
  obtain ⟨m32, m8, h⟩ := h
  exact ⟨_, h, rfl⟩

theorem ChipIs.st_eq {b : Bus} {e : EnvRef} {st : Word} (h : ChipIs b e) (hst : StatusIs b st) : e.st = st := by
  obtain ⟨m32, m8, h⟩ := h
  obtain ⟨e', h', rfl⟩ := hst
  obtain rfl := Chip.ref.inj (h.symm.trans h')
  rfl

/-- A write clears exactly the status bits it acknowledges (R59, R125). -/
theorem ackStatus_getLsbD (P : Params) (a : Addr) (v : Byte) (st : Word) (i : Fin 32) :
    (ackStatus P a v st).getLsbD i.val = (st.getLsbD i.val && !isAck P a v i) := by
  have hclear : ∀ (bits : List (Fin 32)) (w : Word),
      (bits.foldl (fun w b => w &&& ~~~((1 : Word) <<< b.val)) w).getLsbD i.val =
        (w.getLsbD i.val && !decide (i ∈ bits)) := by
    intro bits w
    induction bits generalizing w with
    | nil => simp
    | cons b rest ih =>
      have hbit : ((1 : Word) <<< b.val).getLsbD i.val = decide (i = b) := flagBit_getLsbD true b i
      rw [List.foldl_cons, ih, BitVec.getLsbD_and, BitVec.getLsbD_not, hbit, decide_eq_true i.isLt, Bool.true_and,
        Bool.and_assoc, ← Bool.not_or, ← Bool.decide_or, decide_eq_decide.2 List.mem_cons]
  rw [ackStatus, hclear]
  simp

section Status

variable {P : Params} (hcm : P.cm = cmRef) (is : Issuer) {b : Bus} {st : Word}

namespace StatusIs

theorem read (h : StatusIs b st) (a : Nat) (w : Width) : StatusIs (txn P is (.rd a w) b).2 st := by
  obtain ⟨e, h, hst⟩ := h
  exact ⟨e, txn_rd_keeps_ref h, hst⟩

theorem write32 (h : StatusIs b st) (a : Nat) (v : Word) : StatusIs (memWrite32 P is a v b) st := by
  obtain ⟨e, h, hst⟩ := h
  exact ⟨_, memWrite32_ref h, hst⟩

theorem write8 (h : StatusIs b st) (a : Nat) (v : Byte) :
    StatusIs (memWrite8 P is a v b) (ackStatus P (addr12 a) v st) := by
  obtain ⟨e, h, rfl⟩ := h
  exact ⟨_, memWrite8_ref h, rfl⟩

theorem writeObj (h : StatusIs b st) (p : Nat) (o : FrameObj) : StatusIs (writeObj P is p o b) st :=
  (((h.write32 is _ _).write32 is _ _).write32 is _ _).write32 is _ _

theorem readObj (h : StatusIs b st) (p : Nat) : StatusIs (readObj P is p b).2 st :=
  (((h.read is _ _).read is _ _).read is _ _).read is _ _

include hcm

theorem setIE (h : StatusIs b st) (f : IeFifo) (on : Bool) : StatusIs (setIE P is f on b) st := by
  have hw := h.write8 (P := P) is (fifoMap P.cm (ieFifo f)).con.toNat (ieByte P.cm f on)
  rwa [ackStatus_cmRef hcm (by rw [hcm]; cases f <;> decide)] at hw

theorem advance (h : StatusIs b st) (f : Fifo) : StatusIs (advance P is f b) st := by
  have hw := h.write8 (P := P) is ((fifoMap P.cm f).con.toNat + 1) (fifoMap P.cm f).adv
  rwa [ackStatus_cmRef hcm (by rw [hcm]; cases f <;> decide)] at hw

theorem hwWrite (h : StatusIs b st) (f : Fifo) (fr : Frame) : StatusIs (hwWrite P is f fr b) st :=
  ((h.read is _ _).writeObj is _ _).advance hcm is f

theorem hwRead (h : StatusIs b st) : StatusIs (hwRead P is b).2 st := ((h.read is _ _).readObj is _).advance hcm is .rxf

theorem rxHandler (h : StatusIs b st) (w : Word) (q : Queue) : StatusIs (rxHandler P w q b).2 st := by
  obtain hr | ⟨-, hr⟩ | ⟨-, hr⟩ | ⟨-, -, hr⟩ := rxHandler_cases P w q b <;> rw [hr]
  · exact h
  · exact h.setIE hcm _ _ _
  · exact (h.hwRead hcm _).setIE hcm _ _ _
  · exact h.hwRead hcm _

theorem txHandler (h : StatusIs b st) (w : Word) (q : Queue) (full : Bool) :
    StatusIs (txHandler P w q full b).2.2 st := by
  obtain hr | ⟨-, hr⟩ | ⟨f, rest, -, hr⟩ := txHandler_cases P w q full b <;> rw [hr]
  · exact h
  · exact h.setIE hcm _ _ _
  · exact h.hwWrite hcm _ _ _

omit hcm in
/-- The acknowledgements leave no status bit that they name (R125). -/
theorem ackAll (bits : List (Fin 32)) (hbits : ∀ i ∈ bits, isStatusBit P.cm i = true) (h : StatusIs b st) :
    ∃ st', StatusIs (ackAll P bits b) st' ∧
      ∀ i : Fin 32, st'.getLsbD i.val = true → st.getLsbD i.val = true ∧ i ∉ bits := by
  induction bits generalizing b st with
  | nil => exact ⟨st, h, fun i hi => ⟨hi, List.not_mem_nil⟩⟩
  | cons j rest ih =>
    obtain ⟨hj, hrest⟩ := List.forall_mem_cons.1 hbits
    obtain ⟨st', h', hleft⟩ := ih hrest (h.write8 .isr (ackAddr P.cm j) (ackByte P.ackMode (j.val % 8)))
    refine ⟨st', h', fun i hi => ?_⟩
    obtain ⟨hold, hnotRest⟩ := hleft i hi
    rw [ackStatus_getLsbD, Bool.and_eq_true, Bool.not_eq_true'] at hold
    obtain ⟨hst, hnotAck⟩ := hold
    refine ⟨hst, List.not_mem_cons_of_ne_of_not_mem ?_ hnotRest⟩
    rintro rfl
    simp [isAck, hj] at hnotAck

end StatusIs
end Status

/-- Every raised status bit is one the pass finds in the status word and acknowledges (R59, R121, R122). -/
theorem mem_pendingStatus_envIntWord {e : EnvRef} (masked : e.st &&& 0x300C = e.st) {i : Fin 32}
    (h : e.st.getLsbD i.val = true) : i ∈ pendingStatus cmRef (envIntWord cmRef e) := by
  have hword : (envIntWord cmRef e).getLsbD i.val = true := by rw [envIntWord, BitVec.getLsbD_or, h, Bool.or_true]
  have hmask : (0x300C : Word).getLsbD i.val = true := by
    rw [← masked, BitVec.getLsbD_and, Bool.and_eq_true] at h
    exact h.2
  have hstatus : isStatusBit cmRef i = true := by
    clear h hword
    revert i
    decide
  exact List.mem_filter.2 ⟨List.mem_filter.2 ⟨List.mem_finRange i, hstatus⟩, hword⟩

/-- A status word without a bit of the core is the zero word: the input is inactive (R27, R59). -/
theorem envIntWord_eq_zero {e : EnvRef} (hst : e.st = 0)
    (hrx : (envIntWord cmRef e).getLsbD cmRef.bRxne.val = false)
    (htx : (envIntWord cmRef e).getLsbD cmRef.bTxnf.val = false) : envIntWord cmRef e = 0 := by
  obtain ⟨hrxBit, htxBit⟩ := envIntWord_fifoBits (e := e) (by rw [hst]; rfl)
  have hrx' := hrxBit.symm.trans hrx
  have htx' := htxBit.symm.trans htx
  show flagBit (!e.rxf.objs.isEmpty && e.rxf.ie == some 0x01) _ ||| flagBit (hasSpace e.txf && e.txf.ie == some 0x81) _ |||
    e.st = 0
  rw [hrx', htx', hst]
  rfl

/-- Under `CM_REF` and `ENV_REF` a pass leaves no status bit raised (R129). -/
theorem servicePass_clearsStatus {s : State} {e : EnvRef} (hcm : s.par.cm = cmRef) (h : ChipIs s.bus e)
    (hoff : FixedOffsets e) (masked : e.st &&& 0x300C = e.st) (rq tq : Queue) :
    StatusIs (servicePass rq tq s).bus 0 := by
  obtain ⟨hword, hread⟩ := readStatus_chipIs hcm .isr h hoff
  have hhandled := (hread.statusIs.rxHandler hcm (memRead32 s.par .isr s.par.cm.aInt.toNat s.bus).1 rq).txHandler hcm
    (memRead32 s.par .isr s.par.cm.aInt.toNat s.bus).1 tq s.txHwFull
  obtain ⟨st, hst, hleft⟩ := hhandled.ackAll
    (pendingStatus s.par.cm (memRead32 s.par .isr s.par.cm.aInt.toNat s.bus).1)
    fun i hi => (List.mem_filter.1 (List.mem_of_mem_filter hi)).2
  have hzero : st = 0 := by
    refine BitVec.eq_of_getLsbD_eq fun i hi => ?_
    refine Eq.trans ?_ BitVec.getLsbD_zero.symm
    refine Bool.eq_false_iff.2 fun hset => ?_
    obtain ⟨hraised, hnot⟩ := hleft ⟨i, hi⟩ hset
    rw [hword, hcm] at hnot
    exact hnot (mem_pendingStatus_envIntWord masked hraised)
  exact hzero ▸ hst

/-- A receive drain that finds room adds one frame exactly when its bit is set (R123). -/
theorem RxDrained.length_eq {P : Params} {b : Bus} {st : Word} {q q' : Queue} {evs : List BusEvent}
    (h : RxDrained P b st q q' evs) (room : st.getLsbD P.cm.bRxne.val = true → q.items.length < q.cap) :
    q'.items.length = q.items.length + (st.getLsbD P.cm.bRxne.val).toNat := by
  obtain ⟨hbit, rfl, -⟩ | ⟨hbit, hfull, -⟩ | ⟨hbit, u, o, off, rfl, -⟩ := h.cases
  · rw [hbit, Bool.toNat_false, Nat.add_zero]
  · exact absurd hfull (room hbit).ne
  · rw [hbit, enq_space q (decodeObj P o) (room hbit), List.length_append]
    rfl

/-- A transmit drain takes one unit of work exactly when its bit is set: the head frame, or the full flag (R124). -/
theorem TxDrained.work_eq {P : Params} {b : Bus} {st : Word} {q q' : Queue} {full full' : Bool} {evs : List BusEvent}
    (h : TxDrained P b st q q' full full' evs) (marked : st.getLsbD P.cm.bTxnf.val = true → full = true) :
    q'.items.length + full'.toNat + (st.getLsbD P.cm.bTxnf.val).toNat = q.items.length + full.toNat := by
  obtain ⟨hbit, rfl, rfl, -⟩ | ⟨hbit, hempty, rfl, rfl, -⟩ | ⟨hbit, f, rest, u, head, rfl, rfl, -⟩ := h.cases
  · rw [hbit, Bool.toNat_false, Nat.add_zero]
  · rw [hbit, marked hbit, hempty]
    rfl
  · rw [hbit, head, List.length_cons]
    exact Nat.add_right_comm ..

theorem backlog_eq {s : State} {e : EnvRef} {q : Queue} (h : ChipIs s.bus e) (tx : s.txqSw = some q) :
    backlog s = e.rxf.objs.length + (if e.st = 0 then 0 else 1) + (q.items.length + s.txHwFull.toNat) := by
  obtain ⟨m32, m8, h⟩ := h
  simp only [backlog, h, tx, Option.map_some, Option.getD_some, Nat.add_assoc]
  cases s.txHwFull <;> rfl

/-- The balance of a pass under `ENV_REF` (R129): each FIFO bit of the status word takes one unit of work, and the raised status
bits go as one. -/
theorem exec_irq_backlog {s : State} {e : EnvRef} {rq tq : Queue} (hcm : s.par.cm = cmRef) (h : ChipIs s.bus e)
    (ha : EnvAgrees s e) (hready : s.ready = true) (rx : s.rxqSw = some rq) (tx : s.txqSw = some tq)
    (bound : rq.items.length ≤ rq.cap) :
    ∃ t, exec .irq s = .next t ∧ StatusIs t.bus 0 ∧
      backlog t + ((envIntWord cmRef e).getLsbD cmRef.bRxne.val).toNat +
        ((envIntWord cmRef e).getLsbD cmRef.bTxnf.val).toNat + (if e.st = 0 then 0 else 1) = backlog s := by
  have steady := ((envAgrees_iff s e).1 ha).1
  obtain ⟨⟨-, htxBelief⟩, hrxBelief⟩ := ha.beliefs hready tx rx
  obtain ⟨hrxBit, htxBit⟩ := envIntWord_fifoBits (e := e) steady.status
  obtain ⟨rq', tq', full', rxEvs, txEvs, chip, hrx, htx, hexec⟩ := servicePassRunsHandlers s rq tq rx tx
  have hword : (chipRead s.par.cm s.bus.hist s.par.cm.aInt .four s.bus.chip).1 = envIntWord cmRef e := by
    rw [← (readStatus_chipIs hcm .isr h steady.offsets).1, memRead32_eq, addr12_toNat]
  rw [hword] at hrx htx
  have hmoved := hrx.length_eq fun hset => by
    rw [hcm, hrxBit, Bool.and_eq_true, beq_iff_eq] at hset
    rw [RxBelief, hset.2, queueFull_iff] at hrxBelief
    exact lt_of_le_of_ne bound (by simpa using hrxBelief)
  have hwork := htx.work_eq fun hset => by
    rw [hcm, htxBit, Bool.and_eq_true, beq_iff_eq] at hset
    exact htxBelief.2 hset.2
  rw [hcm] at hmoved hwork
  obtain ⟨⟨e', hchip', -⟩, hin, -⟩ := servicePass_chipAgrees hcm h ha hready rx tx bound
  have hcleared : StatusIs (leaveIsr (servicePass rq tq (enterIsr s))).bus 0 :=
    servicePass_clearsStatus (s := enterIsr s) hcm h steady.offsets steady.status rq tq
  rw [Host.Outcome.next.inj ((exec_irq_some rx tx).symm.trans hexec)] at hchip' hin hcleared
  refine ⟨_, hexec, hcleared, ?_⟩
  rw [inbound_eq hchip' rfl, inbound_eq h rx] at hin
  have hframes := congrArg List.length hin
  simp only [List.length_append, List.length_map] at hframes
  rw [backlog_eq hchip' rfl, backlog_eq h tx, if_pos (hchip'.st_eq hcleared)]
  dsimp only
  omega

/-- Settles O55: an eligible pass finds a bit set in the status word, and each kind of bit takes work. -/
theorem eligiblePassMakesProgress : Obligations.EligiblePassMakesProgress := by
  intro s hs heligible
  obtain ⟨hcm, -, hsound, e, hchip, ha⟩ := (noLoss_iff s).1 hs
  obtain ⟨hint, hready, -⟩ := (isrEligible_iff s).1 heligible
  obtain ⟨htxSome, hrxSome⟩ := phaseOk_queuesPresent ((sound_iff s).1 hsound).2.2 hready
  obtain ⟨tq, tx⟩ := Option.isSome_iff_exists.1 htxSome
  obtain ⟨rq, rx⟩ := Option.isSome_iff_exists.1 hrxSome
  obtain ⟨-, bound⟩ := rxq_bounded ((sound_iff s).1 hsound).2.2 rx
  obtain ⟨t, hexec, ⟨e', hchip', hst'⟩, hbalance⟩ := exec_irq_backlog hcm hchip ha hready rx tx bound
  refine ⟨t, e', hexec, ?_, hchip', hst'⟩
  have hword : envIntWord cmRef e ≠ 0 := by
    obtain ⟨m32, m8, hchip⟩ := hchip
    rw [hcm, hchip] at hint
    have hne : (envIntWord cmRef e != 0) = true := hint
    exact bne_iff_ne.1 hne
  by_contra hnot
  have hnone : ((envIntWord cmRef e).getLsbD cmRef.bRxne.val).toNat = 0 ∧
      ((envIntWord cmRef e).getLsbD cmRef.bTxnf.val).toNat = 0 ∧ (if e.st = 0 then 0 else 1) = 0 := by omega
  obtain ⟨hrx, htx, hst⟩ := hnone
  exact hword (envIntWord_eq_zero (by simpa using hst) (by simpa using hrx) (by simpa using htx))

/-- Without loss and between atomic steps, the interrupt input alone decides whether a ready core runs a pass (R119, R127). -/
theorem isrEligible_eq_intIn {s : State} (hs : NoLoss s) (hready : s.ready = true) :
    isrEligible s = intIn s.par.cm s.bus.chip := by
  obtain ⟨-, -, hsound, -⟩ := hs
  obtain ⟨-, hidle, -⟩ := (sound_iff s).1 hsound
  rw [isrEligible, hready, hidle, Bool.and_true, Bool.not_false, Bool.and_true]

/-- As many passes as there is work leave the interrupt input inactive (R129). -/
theorem drainPasses_inactive (n : Nat) {s : State} (hs : NoLoss s) (hready : s.ready = true) (hwork : backlog s ≤ n) :
    intIn (drainPasses n s).par.cm (drainPasses n s).bus.chip = false := by
  induction n generalizing s with
  | zero =>
    rw [drainPasses, ← isrEligible_eq_intIn hs hready]
    refine Bool.eq_false_iff.2 fun heligible => ?_
    obtain ⟨t, -, -, hless, -⟩ := eligiblePassMakesProgress s hs heligible
    omega
  | succ n ih =>
    rw [drainPasses]
    cases heligible : isrEligible s with
    | true =>
      obtain ⟨t, e', hexec, hless, -⟩ := eligiblePassMakesProgress s hs heligible
      rw [if_pos rfl, hexec]
      exact ih (exec_keeps_noLoss (by simp) rfl hs hexec) (configurationIsFixed .irq s t hready hexec).1 (by omega)
    | false =>
      rw [if_neg Bool.false_ne_true, ← isrEligible_eq_intIn hs hready]
      exact heligible

/-- Settles O56: each pass takes at least one unit of work off the backlog. -/
theorem passesClearBacklog : Obligations.PassesClearBacklog := fun _ hs hready => drainPasses_inactive _ hs hready le_rfl

end Sys2Proof.Machine
end

section
/-! The Filter/Callback Router (R130 to R132): a dispatch on a ready core, with its whole next state. -/

namespace Sys2Proof.Machine

section Dispatch
variable {obs : Byte} {observer : Bool} {f : Frame} {rest : List Frame} {q : Queue} {s : State}

theorem dispatchRefusal_wellFormed (hobs : obs.toNat < 2) (ready : Bool) : dispatchRefusal ready obs = readyGate ready := by
  have hbool : ¬ badBool obs = true := by rw [badBool_iff]; omega
  rw [dispatchRefusal, if_neg hbool]

theorem exec_dispatch_ready (hobs : obs.toNat < 2) (hready : s.ready = true) (rx : s.rxqSw = some q) :
    exec (.dispatch obs) s = .next (dispatchFrame (obs == 1) q s) := by
  show guarded (dispatchRefusal s.ready obs) s _ = _
  rw [dispatchRefusal_wellFormed hobs]
  exact guarded_withQueue hready rx

/-- A registered index contributes its own callback, any other index none (R130, R131). -/
theorem routeEvents_eq (observer : Bool) (table : Vector (Option Handle) 32) (size : Nat) (f : Frame) :
    routeEvents observer table size f = (if observer then [OutEvent.matchObserved f.idx] else []) ++
      ((lookup table size f.idx.toNat).map fun h => OutEvent.callback h f).toList := by
  unfold routeEvents
  cases lookup table size f.idx.toNat with
  | none => rfl
  | some h => rfl

theorem dispatchFrame_empty (hempty : q.items = []) : dispatchFrame observer q s = respond (.bool false) s := by
  obtain ⟨-, htake⟩ | ⟨f, rest, head, -⟩ := takeRx_cases q s
  · rw [dispatchFrame, htake]
  · rw [hempty] at head
    cases head

/-- A dispatched frame leaves the queue as in `RECV`, and its events are appended to the output in order (R131). -/
theorem dispatchFrame_head (head : q.items = f :: rest) :
    dispatchFrame observer q s = { s with
      rxqSw := some { q with items := rest }
      bus := if q.items.length = q.cap then setIE s.par .fg .rxf true s.bus else s.bus
      out := s.out ++ routeEvents observer s.cbTable s.cbSize f
      resp := some (.bool true) } := by
  obtain ⟨hempty, -⟩ | ⟨g, rest', head', htake⟩ := takeRx_cases q s
  · rw [head] at hempty
    cases hempty
  · obtain ⟨rfl, rfl⟩ := List.cons.inj (head'.symm.trans head)
    rw [dispatchFrame, htake]
    simp only [foldl_emit, respond]

end Dispatch

/-- Settles O35: the head leaves the queue as in `RECV`, and its route is the observer event, then the callback of its index. -/
theorem dispatchRoutesExactly : Obligations.DispatchRoutesExactly := by
  intro obs s q hobs hready rx
  rw [exec_dispatch_ready hobs hready rx]
  refine ⟨fun hempty => by rw [dispatchFrame_empty hempty]; rfl, fun f rest head => ?_⟩
  refine ⟨(setIE s.par .fg .rxf true s.bus).chip, ?_⟩
  rw [dispatchFrame_head head, routeEvents_eq, (setIE_ran s.par .fg .rxf true s.bus).eq]
  simp only [beq_iff_eq, List.append_assoc]
  rfl

end Sys2Proof.Machine
end

section
/-! The refusals ahead of a meaning (R110, R131, R134 to R136): the operand's format first, then the ready gate. -/

namespace Sys2Proof.Machine

section Gate
variable {f : FrameOperand} {s : State}

theorem trysendRefusal_malformed (hflags : 4 ≤ f.flags.toNat) (ready : Bool) : trysendRefusal ready f = some .badFrame :=
  if_pos ((badFlags_iff _).2 hflags)

theorem trysendRefusal_wellFormed (hflags : f.flags.toNat < 4) (ready : Bool) : trysendRefusal ready f = readyGate ready :=
  if_neg fun hbad => Nat.not_le.2 hflags ((badFlags_iff _).1 hbad)

theorem dispatchRefusal_malformed {obs : Byte} (hobs : 2 ≤ obs.toNat) (ready : Bool) :
    dispatchRefusal ready obs = some .badBool := if_pos ((badBool_iff _).2 hobs)

/-- A request a reason applies to ends in that refusal, whatever its meaning is. -/
theorem guarded_refused {reason : Option Reason} {r : Reason} (h : reason = some r) (m : Host.Outcome State Fault Refusal) :
    guarded reason s m = .next (raiseRefused r s) := by rw [h, guarded_some]

theorem exec_trysend_malformed (hflags : 4 ≤ f.flags.toNat) : exec (.trysend f) s = .next (raiseRefused .badFrame s) :=
  guarded_refused (trysendRefusal_malformed hflags _) _

theorem exec_trysend_notReady (hflags : f.flags.toNat < 4) (hnot : s.ready = false) :
    exec (.trysend f) s = .next (raiseRefused .notReady s) :=
  guarded_refused ((trysendRefusal_wellFormed hflags _).trans (readyGate_notReady hnot)) _

theorem exec_dispatch_malformed {obs : Byte} (hobs : 2 ≤ obs.toNat) :
    exec (.dispatch obs) s = .next (raiseRefused .badBool s) :=
  guarded_refused (dispatchRefusal_malformed hobs _) _

theorem exec_dispatch_notReady {obs : Byte} (hobs : obs.toNat < 2) (hnot : s.ready = false) :
    exec (.dispatch obs) s = .next (raiseRefused .notReady s) :=
  guarded_refused ((dispatchRefusal_wellFormed hobs _).trans (readyGate_notReady hnot)) _

/-- The requests without an operand that need a queue are behind the ready gate alone (R136). -/
theorem exec_queueRequest_notReady (hnot : s.ready = false) :
    ∀ i ∈ [Instr.avail, .recv, .txqSize, .txqCount, .txqPeak], exec i s = .next (raiseRefused .notReady s) := by
  have hgate := fun m => guarded_refused (s := s) (readyGate_notReady hnot) m
  simp only [List.forall_mem_cons]
  exact ⟨hgate _, hgate _, hgate _, hgate _, hgate _, nofun⟩

/-- A raw codec request asks for no state: it always answers, and its answer is no refusal (R86 to R92). -/
theorem exec_codecRequest_admitted (addr : Half) (v : Word) (w : Byte) (s : State) :
    ∀ i ∈ [Instr.rd32 addr, .wr32 addr v, .rd8 addr, .wr8 addr w, .devreset, .setrate 0, .setrate 1, .readerr],
      ∃ t, exec i s = .next t ∧ t.refused = s.refused ∧ ∀ r, t.resp ≠ some (.refused r) := by
  simp only [List.forall_mem_cons]
  exact ⟨⟨_, rfl, rfl, nofun⟩, ⟨_, rfl, rfl, nofun⟩, ⟨_, rfl, rfl, nofun⟩, ⟨_, rfl, rfl, nofun⟩, ⟨_, rfl, rfl, nofun⟩,
    ⟨_, exec_setrate_named s rfl, rfl, nofun⟩, ⟨_, exec_setrate_named s rfl, rfl, nofun⟩, ⟨_, rfl, rfl, nofun⟩, nofun⟩

end Gate

/-- Settles O22: the format check of each request comes first, and only a well-formed operand meets the ready gate. -/
theorem operandFormatRefusedFirst : Obligations.OperandFormatRefusedFirst := fun _ =>
  ⟨fun _ => exec_trysend_malformed, fun _ => exec_trysend_notReady, fun _ => exec_dispatch_malformed,
    fun _ => exec_dispatch_notReady⟩

/-- Settles O26: the gate before `CONFIGURE`, `CONFIGURE` itself on a ready core, and the requests that no gate guards. -/
theorem readyGateRefuses : Obligations.ReadyGateRefuses := by
  intro s refusedWith
  refine ⟨fun hnot => ⟨exec_queueRequest_notReady hnot, fun f hflags => exec_trysend_notReady hflags hnot,
      fun obs hobs => exec_dispatch_notReady hobs hnot, Bool.eq_false_iff.2 fun heligible => ?_⟩,
    fun hready conf => exec_configure_refused (if_pos hready), fun addr v w => exec_codecRequest_admitted addr v w s⟩
  cases hnot.symm.trans (isrEligible_ready heligible)

end Sys2Proof.Machine
end

section
/-! How a host request ends (R134, R137): refused, answered `false` with nothing changed, answered `false` after the status read
of the bypass path, or answered otherwise. -/

namespace Sys2Proof.Machine

/-- `HostResult s i t`: the ways host request `i` can end, told apart by its response. -/
inductive HostResult (s : State) : Instr → State → Prop
  /-- A refusal (R134). -/
  | refused {i : Instr} (r : Reason) : HostResult s i (raiseRefused r s)
  /-- `false`, and nothing else (R137). -/
  | declined {i : Instr} : HostResult s i (respond (.bool false) s)
  /-- `false` after the status read of a full bypass queue (R112, R137). -/
  | bypassFull (f : FrameOperand) (selector : f.idx = 255) :
      HostResult s (.trysend f) (respond (.bool false) { s with bus := (notFull s.par .fg .txq s.bus).2 })
  /-- Any other answer. -/
  | granted {i : Instr} {t : State} (r : Response) (mark : t.refused = s.refused) (resp : t.resp = some r)
      (notRefused : ∀ x, r ≠ .refused x) (notFalse : r ≠ .bool false) : HostResult s i t

theorem hostResult_of_bool {i : Instr} {s t : State} {b : Bool} (mark : t.refused = s.refused) (resp : t.resp = some (.bool b))
    (unchanged : b = false → t = respond (.bool false) s) : HostResult s i t := by
  cases b with
  | true => exact .granted _ mark resp nofun nofun
  | false =>
    rw [unchanged rfl]
    exact .declined

/-- A guarded request on a queue ends as its meaning does on that queue, or is refused. -/
theorem guarded_withQueue_hostResult {i : Instr} {s t : State} {reason : Option Reason} {o : Option Queue}
    {m : Queue → State} (h : guarded reason s (withQueue o fun q => .next (m q)) = .next t)
    (hm : ∀ q, o = some q → HostResult s i (m q)) : HostResult s i t := by
  obtain ⟨r, -, rfl⟩ | ⟨-, h⟩ := guarded_next h
  · exact .refused r
  · obtain ⟨q, hq, h⟩ := withQueue_next h
    obtain rfl := Host.Outcome.next.inj h
    exact hm q hq

theorem setrate_hostResult {rate : Byte} {s t : State} (h : exec (.setrate rate) s = .next t) :
    HostResult s (.setrate rate) t := by
  cases hrate : rateOf rate with
  | some r =>
    obtain rfl := Host.Outcome.next.inj ((exec_setrate_named s hrate).symm.trans h)
    exact .granted .done rfl rfl nofun nofun
  | none =>
    obtain rfl := Host.Outcome.next.inj ((exec_setrate_unnamed s hrate).symm.trans h)
    exact .refused .badRate

theorem configure_hostResult {conf : ConfOperand} {s t : State} (h : exec (.configure conf) s = .next t) :
    HostResult s (.configure conf) t := by
  obtain ⟨r, -, rfl⟩ | ⟨-, h⟩ := guarded_next h
  · exact .refused r
  · obtain rfl := Host.Outcome.next.inj h
    exact .granted .done rfl rfl nofun nofun

/-- A full software queue is left as it is (R100, R111). -/
theorem sendBuffered_hostResult {i : Instr} {s : State} {q : Queue} (f : Frame) (tx : s.txqSw = some q) :
    HostResult s i (sendBuffered f q s) := by
  rw [sendBuffered_eq f q tx]
  split_ifs
  · exact .granted (.bool true) rfl rfl nofun nofun
  · exact .declined

theorem sendDirect_hostResult {i : Instr} (f : Frame) (s : State) : HostResult s i (sendDirect f s) := by
  obtain hr | hr := sendDirect_cases f s <;> rw [hr] <;> exact .granted (.bool true) rfl rfl nofun nofun

theorem sendBypass_hostResult {f : FrameOperand} (hidx : f.idx = 255) (s : State) :
    HostResult s (.trysend f) (sendBypass (frameOf f) s) := by
  obtain hr | hr | hr := sendBypass_cases (frameOf f) s <;> rw [hr]
  · exact .granted (.bool true) rfl rfl nofun nofun
  · exact .bypassFull f hidx
  · exact .declined

/-- Each path of a frame ends in one of the results (R110 to R112). -/
theorem trysend_hostResult {f : FrameOperand} {s t : State} (h : exec (.trysend f) s = .next t) :
    HostResult s (.trysend f) t := by
  obtain ⟨r, -, rfl⟩ | ⟨-, h⟩ := guarded_next h
  · exact .refused r
  · unfold trySend sendOrdinary at h
    split_ifs at h with hord hfull hbyp
    · obtain ⟨q, hq, h⟩ := withQueue_next h
      obtain rfl := Host.Outcome.next.inj h
      exact sendBuffered_hostResult _ hq
    · obtain rfl := Host.Outcome.next.inj h
      exact sendDirect_hostResult _ s
    · obtain rfl := Host.Outcome.next.inj h
      exact sendBypass_hostResult hbyp s
    · obtain rfl := Host.Outcome.next.inj h
      exact .declined

theorem receive_hostResult {i : Instr} (q : Queue) (s : State) : HostResult s i (receive q s) := by
  obtain ⟨-, htake⟩ | ⟨f, rest, -, htake⟩ := takeRx_cases q s <;> rw [receive, htake]
  · exact .declined
  · exact .granted (.frame f) rfl rfl nofun nofun

theorem dispatchFrame_hostResult {i : Instr} (observer : Bool) (q : Queue) (s : State) :
    HostResult s i (dispatchFrame observer q s) := by
  cases head : q.items with
  | nil =>
    rw [dispatchFrame_empty head]
    exact .declined
  | cons f rest =>
    rw [dispatchFrame_head head]
    exact .granted (.bool true) rfl rfl nofun nofun

/-- Every host request ends in one of the four results. -/
theorem exec_hostResult {i : Instr} {s t : State} (host : requestCode i ≠ none) (h : exec i s = .next t) :
    HostResult s i t := by
  cases i with
  | write | read | reset | irq => exact absurd rfl host
  | rd32 a =>
    obtain rfl := Host.Outcome.next.inj h
    exact .granted (.word _) rfl rfl nofun nofun
  | rd8 a =>
    obtain rfl := Host.Outcome.next.inj h
    exact .granted (.byte _) rfl rfl nofun nofun
  | wr32 | wr8 | devreset =>
    obtain rfl := Host.Outcome.next.inj h
    exact .granted .done rfl rfl nofun nofun
  | setrate rate => exact setrate_hostResult h
  | readerr =>
    obtain rfl := Host.Outcome.next.inj h
    exact .granted (.word _) rfl rfl nofun nofun
  | configure conf => exact configure_hostResult h
  | trysend f => exact trysend_hostResult h
  | avail => exact guarded_withQueue_hostResult h fun q _ => hostResult_of_bool rfl rfl fun hempty => by rw [hempty]
  | recv => exact guarded_withQueue_hostResult h fun q _ => receive_hostResult q s
  | dispatch obs => exact guarded_withQueue_hostResult h fun q _ => dispatchFrame_hostResult _ q s
  | txqSize | txqCount | txqPeak =>
    exact guarded_withQueue_hostResult h fun q _ => .granted (.nat _) rfl rfl nofun nofun

/-- The wire commands and the pass have no request code and leave the mark and the response alone (R128, log entry 7). -/
theorem exec_silent {i : Instr} {s t : State} (silent : requestCode i = none) (h : exec i s = .next t) :
    t.refused = s.refused ∧ t.resp = s.resp := by
  cases i with
  | write | read | reset =>
    obtain rfl := Host.Outcome.next.inj h
    exact ⟨rfl, rfl⟩
  | irq =>
    obtain ⟨rq, tq, -, -, rfl⟩ := exec_irq_eq h
    exact ⟨rfl, rfl⟩
  | rd32 | wr32 | rd8 | wr8 | devreset | setrate | readerr | configure | trysend | avail | recv | dispatch | txqSize
  | txqCount | txqPeak => cases silent

theorem HostResult.refused_or_answered {i : Instr} {s t : State} (h : HostResult s i t) :
    (∃ r, t = raiseRefused r s) ∨ (t.refused = s.refused ∧ ∀ r, t.resp ≠ some (.refused r)) := by
  cases h with
  | refused r => exact .inl ⟨r, rfl⟩
  | declined => exact .inr ⟨rfl, nofun⟩
  | bypassFull f selector => exact .inr ⟨rfl, nofun⟩
  | granted r mark resp notRefused notFalse =>
    exact .inr ⟨mark, fun x hx => notRefused x (Option.some.inj (resp.symm.trans hx))⟩

/-- Settles O36: what has no request code is silent, and a host request is refused or keeps the mark. -/
theorem refusalChangesNothingElse : Obligations.RefusalChangesNothingElse := by
  intro i s t h
  by_cases hcode : requestCode i = none
  · obtain ⟨mark, resp⟩ := exec_silent hcode h
    refine ⟨mark.trans, fun hclear hset => ?_, fun _ => ⟨mark, resp⟩, fun host => absurd hcode host⟩
    cases hset.symm.trans (mark.trans hclear)
  · have hpass : i ≠ .irq := fun hirq => hcode (by rw [hirq]; rfl)
    obtain ⟨r, rfl⟩ | ⟨mark, answered⟩ := (exec_hostResult hcode h).refused_or_answered
    · refine ⟨fun _ => rfl, fun _ _ => ⟨hpass, r, rfl⟩, fun silent => absurd silent hcode, fun _ => ⟨fun x hx => ?_, ?_⟩⟩
      · obtain rfl : r = x := Response.refused.inj (Option.some.inj hx)
        rfl
      · exact fun hnone => absurd rfl (hnone r)
    · refine ⟨mark.trans, fun hclear hset => ?_, fun silent => absurd silent hcode,
        fun _ => ⟨fun x hx => absurd hx (answered x), fun _ => mark⟩⟩
      cases hset.symm.trans (mark.trans hclear)

/-- A host request that answers `false` changed nothing but the response, or read the bypass status (R137). -/
theorem HostResult.of_false {i : Instr} {s t : State} (h : HostResult s i t) (hfalse : t.resp = some (.bool false)) :
    t = respond (.bool false) s ∨
    ∃ f, i = .trysend f ∧ f.idx = 255 ∧ t = respond (.bool false) { s with bus := (notFull s.par .fg .txq s.bus).2 } := by
  cases h with
  | refused r => cases hfalse
  | declined => exact .inl rfl
  | bypassFull f selector => exact .inr ⟨f, rfl, selector, rfl⟩
  | granted r mark resp notRefused notFalse => exact absurd (Option.some.inj (resp.symm.trans hfalse)) notFalse

/-- Settles O37: only a host request gives a result, and the bypass path's is one status read. -/
theorem falseResultChangesNothing : Obligations.FalseResultChangesNothing := by
  intro i s t h hfalse hown
  have host : requestCode i ≠ none := by
    intro silent
    have hsame : s.resp = some (.bool false) := (exec_silent silent h).2.symm.trans hfalse
    obtain hnew | ⟨f, rfl⟩ | rfl | rfl | ⟨obs, rfl⟩ := hown
    · exact hnew hsame
    all_goals cases silent
  obtain rfl | ⟨f, rfl, hidx, rfl⟩ := (exec_hostResult host h).of_false hfalse
  · exact .inl rfl
  · obtain ⟨st, hstatus, -⟩ := notFull_ran s.par .fg .txq s.bus
    refine .inr ⟨f, st, (notFull s.par .fg .txq s.bus).2.chip, rfl, hidx, ?_⟩
    rw [hstatus.eq]
    rfl

end Sys2Proof.Machine
end

section
/-! Core reset (R148): the core before `CONFIGURE`, which no interrupt can enter. -/

namespace Sys2Proof.Machine

theorem reset_unconfigured : Unconfigured State.reset := ⟨rfl, rfl, rfl, rfl, rfl, rfl, rfl, rfl⟩

theorem reset_sound : Sound State.reset :=
  ⟨rfl, rfl, rfl, reset_memories_ok, (phaseOk_iff State.reset).2 (.inl reset_unconfigured)⟩

/-- A pass needs a configured core (R119). -/
theorem isrEligible_of_notReady {s : State} (hnot : s.ready = false) : isrEligible s = false := by
  refine Bool.eq_false_iff.2 fun heligible => ?_
  obtain ⟨-, hready, -⟩ := (isrEligible_iff s).1 heligible
  cases hnot.symm.trans hready

/-- Settles O45: the values are those of the definition, and an unconfigured core is sound and closed to passes. -/
theorem resetIsSound : Obligations.ResetIsSound :=
  ⟨⟨Config.intAtReset, rfl⟩, reset_sound, isrEligible_of_notReady rfl⟩

end Sys2Proof.Machine
end

section
/-! The validation word (R151): the union of one bit for each violated check. -/

namespace Sys2Proof.Machine

theorem errBit_getLsbD (bits : BeginError → Fin 32) (e : BeginError) (i : Fin 32) :
    (errBit bits e).getLsbD i.val = decide (i = bits e) := flagBit_getLsbD true (bits e) i

/-- Adding error bits sets the positions of the errors and keeps the others. -/
theorem foldl_errBit_getLsbD_iff (bits : BeginError → Fin 32) (es : List BeginError) (w : Word) (i : Fin 32) :
    (es.foldl (fun w e => w ||| errBit bits e) w).getLsbD i.val = true ↔
      w.getLsbD i.val = true ∨ ∃ e ∈ es, i = bits e := by
  induction es generalizing w with
  | nil => simp
  | cons e rest ih =>
    simp only [List.foldl_cons, ih, BitVec.getLsbD_or, errBit_getLsbD, Bool.or_eq_true, decide_eq_true_iff, or_assoc,
      List.mem_cons, exists_eq_or_imp]

/-- Only the twelve checks of step 1 can be violated; the run-time errors cannot (R151). -/
theorem mem_beginChecks_of_violates {st : Settings} {e : BeginError} (h : violates st e = true) : e ∈ beginChecks := by
  cases e with
  | cfgTimeout | selftestSlow | pllTimeout | selftestFast | modeTimeout => cases h
  | _ => decide

/-- A position of the validation word is set exactly when a violated check maps to it (R151). -/
theorem validate_getLsbD_iff (bits : BeginError → Fin 32) (st : Settings) (i : Fin 32) :
    (validate bits st).getLsbD i.val = true ↔ ∃ e, violates st e = true ∧ i = bits e := by
  have hmem : ∀ e, e ∈ beginChecks.filter (violates st) ↔ violates st e = true := fun e =>
    List.mem_filter.trans ⟨And.right, fun h => ⟨mem_beginChecks_of_violates h, h⟩⟩
  rw [validate, foldl_errBit_getLsbD_iff]
  simp [hmem]

/-- Under an injective `BEGIN_ERR` the bit of an error tells of that error alone (R151). -/
theorem validate_getLsbD_errBit {bits : BeginError → Fin 32} (hinj : Function.Injective bits) (st : Settings)
    (e : BeginError) : (validate bits st).getLsbD (bits e).val = violates st e := by
  rw [Bool.eq_iff_iff, validate_getLsbD_iff]
  constructor
  · rintro ⟨e', hviolated, hsame⟩
    rwa [hinj hsame]
  · exact fun hviolated => ⟨e, hviolated, rfl⟩

/-- A violated check leaves its bit in the validation word, so the word is not zero. -/
theorem validate_ne_zero {bits : BeginError → Fin 32} {st : Settings} {e : BeginError} (h : violates st e = true) :
    validate bits st ≠ 0 := by
  intro hzero
  have hbit := (validate_getLsbD_iff bits st (bits e)).2 ⟨e, h, rfl⟩
  simp [hzero] at hbit

/-- A nonzero validation word ends the sequence at step 1, before any request (R150, R151). -/
theorem boot_of_validate_ne_zero {bits : BeginError → Fin 32} {st : Settings} (h : validate bits st ≠ 0) (w : SeqWords)
    (n1 n2 n3 : Nat) (s : State) : boot bits w n1 n2 n3 st s = (validate bits st, s) := if_pos h

/-- Settles O57: the word has the bit of a violated check set, so it is not zero and the sequence ends at step 1. -/
theorem validationReportsViolations : Obligations.ValidationReportsViolations := by
  intro bits st hinj
  exact ⟨validate_getLsbD_errBit hinj st, fun w n1 n2 n3 s ⟨_, hviolated⟩ =>
    boot_of_validate_ne_zero (validate_ne_zero hviolated) w n1 n2 n3 s⟩

end Sys2Proof.Machine
end

section
/-! The self-test (R152): each bit of the walk is one write and one read of the scratch word. -/

namespace Sys2Proof.Machine

/-- The transactions of a passing self-test over a list of bit positions (R152). -/
def walkEvents (a : Addr) (b : Bus) (bits : List Nat) : List BusEvent :=
  bits.flatMap fun i => [evWr32 b .fg a.toNat ((1 : Word) <<< i), evRd32 b .fg a.toNat ((1 : Word) <<< i)]

theorem walkEvents_rate {b b' : Bus} (h : b'.rate = b.rate) (a : Addr) (bits : List Nat) :
    walkEvents a b' bits = walkEvents a b bits := by simp only [walkEvents, evWr32_rate h, evRd32_rate h]

/-- A device address as a host operand (R40, R65). -/
theorem toNat_setWidth_addr (a : Addr) : (a.setWidth 16).toNat = a.toNat := BitVec.toNat_setWidth_of_le (by decide)

theorem seqWrite_eq (a : Addr) (v : Word) (s : State) :
    seqWrite a v s = respond .done { s with bus := memWrite32 s.par .fg a.toNat v s.bus } := by
  rw [← toNat_setWidth_addr a]
  rfl

theorem seqRead_eq (a : Addr) (s : State) :
    seqRead a s = ((memRead32 s.par .fg a.toNat s.bus).1,
      respond (.word (memRead32 s.par .fg a.toNat s.bus).1) { s with bus := (memRead32 s.par .fg a.toNat s.bus).2 }) := by
  rw [← toNat_setWidth_addr a]
  rfl

section WriteThenRead

variable (a : Addr) (v : Word) (s : State)

theorem seqRead_seqWrite_par : (seqRead a (seqWrite a v s)).2.par = s.par := by
  rw [seqRead_eq, seqWrite_eq]
  rfl

theorem seqRead_seqWrite_ran :
    RanEvents s.bus (seqRead a (seqWrite a v s)).2.bus
      [evWr32 s.bus .fg a.toNat v, evRd32 s.bus .fg a.toNat (seqRead a (seqWrite a v s)).1] := by
  have hwrite := memWrite32_ran s.par .fg a.toNat v s.bus
  have hread := memRead32_ran s.par .fg a.toNat (memWrite32 s.par .fg a.toNat v s.bus)
  rw [evRd32_rate hwrite.1] at hread
  rw [seqRead_eq, seqWrite_eq]
  exact hwrite.trans hread

end WriteThenRead

/-- The walk passes its first bit when that bit reads back, and goes on from there (R152). -/
theorem selfTestBits_cons {a : Addr} {i : Nat} {s : State}
    (h : (seqRead a (seqWrite a ((1 : Word) <<< i) s)).1 = (1 : Word) <<< i) (rest : List Nat) :
    selfTestBits a (i :: rest) s = selfTestBits a rest (seqRead a (seqWrite a ((1 : Word) <<< i) s)).2 := if_pos h

/-- A walk that passes read its first bit back. -/
theorem readsBack_of_selfTestBits {a : Addr} {i : Nat} {rest : List Nat} {s : State}
    (h : (selfTestBits a (i :: rest) s).1 = true) :
    (seqRead a (seqWrite a ((1 : Word) <<< i) s)).1 = (1 : Word) <<< i := by
  by_contra hmiss
  have hstop : selfTestBits a (i :: rest) s = (false, (seqRead a (seqWrite a ((1 : Word) <<< i) s)).2) := if_neg hmiss
  rw [hstop] at h
  cases h

/-- A walk that passes is exactly its transactions; chip select is released by the last of them, so a walk over no bit must
find it so. -/
theorem selfTestBits_ran {a : Addr} {bits : List Nat} {s : State} (hcs : bits = [] → s.bus.cs = false)
    (h : (selfTestBits a bits s).1 = true) :
    RanEvents s.bus (selfTestBits a bits s).2.bus (walkEvents a s.bus bits) := by
  induction bits generalizing s with
  | nil => exact ⟨rfl, hcs rfl, rfl, (List.append_nil _).symm⟩
  | cons i rest ih =>
    have hback := readsBack_of_selfTestBits h
    have hfirst := seqRead_seqWrite_ran a ((1 : Word) <<< i) s
    rw [hback] at hfirst
    rw [selfTestBits_cons hback] at h ⊢
    have hrest := ih (fun _ => hfirst.2.1) h
    rw [walkEvents_rate hfirst.1] at hrest
    exact hfirst.trans hrest

/-- `ENV_REF` under `CM_REF` with canonical memory and no object parked: the RAM window is plain memory (R59). -/
def RamPlain (s : State) : Prop :=
  s.par.cm = cmRef ∧ ∃ e, s.bus.chip = .ref e ∧ e.mem32.wf = true ∧ e.rxf.objs = []

theorem RamPlain.seqRead_seqWrite {s : State} (h : RamPlain s) (a : Addr) (v : Word) :
    RamPlain (seqRead a (seqWrite a v s)).2 := by
  obtain ⟨hcm, e, hchip, hwf, hempty⟩ := h
  refine ⟨by rw [seqRead_seqWrite_par, hcm], envWrite32 s.par.cm e (addr12 a.toNat) v, ?_, memSet_keeps_wf _ _ _ hwf,
    (envWrite32_rxf_objs _ _ _ _).trans hempty⟩
  rw [seqRead_eq, seqWrite_eq]
  exact txn_rd_keeps_ref (memWrite32_ref hchip)

/-- A word written into the RAM window is what the sequencer reads next (R59). -/
theorem RamPlain.readsBack {s : State} (h : RamPlain s) {a : Addr} (hlow : 0x400 ≤ a.toNat) (hhigh : a.toNat < 0xC00)
    (v : Word) : (seqRead a (seqWrite a v s)).1 = v := by
  obtain ⟨hcm, e, hchip, hwf, hempty⟩ := h
  have haddr : (a.setWidth 16).toNat % 4096 = a.toNat := by rw [toNat_setWidth_addr, Nat.mod_eq_of_lt a.isLt]
  obtain ⟨-, hback⟩ := plainWordReadsBack s e hchip
  obtain ⟨t, t', hwrite, hread, hresp⟩ := hback hcm hwf hempty (a.setWidth 16) (a.setWidth 16) v
    (haddr.symm ▸ hlow) (haddr.symm ▸ hhigh) rfl
  simp only [seqRead, seqWrite, issue, hwrite, hread, hresp]

theorem RamPlain.selfTestBits_passes {s : State} (h : RamPlain s) {a : Addr} (hlow : 0x400 ≤ a.toNat)
    (hhigh : a.toNat < 0xC00) (bits : List Nat) : (selfTestBits a bits s).1 = true := by
  induction bits generalizing s with
  | nil => rfl
  | cons i rest ih =>
    rw [selfTestBits_cons (h.readsBack hlow hhigh _)]
    exact ih (h.seqRead_seqWrite a _)

/-- Settles O58: the walk over the 32 bits, whose scratch word lies in the RAM window under `CM_REF`. -/
theorem selfTestWalksAllBits : Obligations.SelfTestWalksAllBits := by
  refine fun s => ⟨fun hpass => ⟨(selfTest s).2.bus.chip, ?_⟩, fun e hchip hcm hwf hempty => ?_⟩
  · have hran : RanEvents s.bus (selfTest s).2.bus (walkEvents s.par.cm.aScratch s.bus (List.range 32)) :=
      selfTestBits_ran (fun hnil => by cases hnil) hpass
    exact hran.eq
  · have hscratch : s.par.cm.aScratch.toNat = 0x400 := by rw [hcm]; rfl
    have hram : RamPlain s := ⟨hcm, e, hchip, hwf, hempty⟩
    exact hram.selfTestBits_passes hscratch.ge (by rw [hscratch]; decide) (List.range 32)

end Sys2Proof.Machine
end
